-- ==== Sys2Proof/Word.lean ====
section
/-! DEFINITION. The plain word types of the block (spec/00_scope.md R9): bytes, register addresses, pipes. -/
namespace Sys2Proof

/-- A byte, bits 7 down to 0 (R9, R65). -/
abbrev Byte := BitVec 8

/-- A 5-bit register address, command byte bits 4:0 (R84). -/
abbrev RegAddr := BitVec 5

/-- A receive pipe, numbered 0 to 5 (R7 `N_PIPES`, R12). -/
abbrev Pipe := Fin 6

/-- The eleven bus commands, under the spec's mnemonics (R11, R87). -/
inductive BusCmd where
  | rreg | wreg | act | rplw | rrxp | wtxp | wackp | wtxpna | fltx | flrx | nop
  deriving DecidableEq, Repr

end Sys2Proof
end

