-- ==== Sys2Proof/Syntax.lean ====
section
/-! DEFINITION. The instructions of the block: the eleven bus commands of spec/30_encoding.md R87 and the four
host events of R93, one constructor for each row of spec/opcode_table.json. An operand `n` is a number of data
bytes; an operand `data` is the data bytes themselves, in bus order. -/
namespace Sys2Proof

/-- One host step. The data counts are kept as the host sends them, whatever they are: a count outside the range
of R85 is an instruction too, and its meaning is the fault of R103 or R148. -/
inductive Instr where
  /-- `RREG addr, n`: read `n` bytes of the register at `addr` (40_register_commands.md R100). -/
  | rreg (addr : RegAddr) (n : Nat)
  /-- `WREG addr, data`: write the register at `addr` (R101). -/
  | wreg (addr : RegAddr) (data : List Byte)
  /-- `ACT m`: activate or unlock, one data byte (41_fifo_commands.md R143). -/
  | act (data : List Byte)
  /-- `RPLW`: read the dynamic payload width, one byte read (R141). -/
  | rplw (n : Nat)
  /-- `RRXP n`: read the head packet of the RX FIFO (R132). -/
  | rrxp (n : Nat)
  /-- `WTXP data`: write a TX payload, acknowledgment requested (R134). -/
  | wtxp (data : List Byte)
  /-- `WACKP p, data`: write an acknowledgment payload for pipe `p` (R136). -/
  | wackp (p : Pipe) (data : List Byte)
  /-- `WTXPNA data`: write a TX payload, no acknowledgment (R135). -/
  | wtxpna (data : List Byte)
  /-- `FLTX`: flush the TX FIFO; `n` data bytes, 0 when well formed (R138). -/
  | fltx (n : Nat)
  /-- `FLRX`: flush the RX FIFO; `n` data bytes, 0 when well formed (R140). -/
  | flrx (n : Nat)
  /-- `NOP`: status probe; `n` data bytes, 0 when well formed (R146). -/
  | nop (n : Nat)
  /-- `CEL`: lower the chip-enable pin (42_mode_state_machine.md R158). -/
  | cel
  /-- `CEH`: raise the chip-enable pin (R157). -/
  | ceh
  /-- `DELAY n`: wait at least `us` microseconds (R156). -/
  | delay (us : Nat)
  /-- `POR`: power-on reset (70_reset_and_hazards.md R255). -/
  | por
  deriving DecidableEq, Repr

end Sys2Proof
end

