-- ==== Sys2Proof/Decode.lean ====
section
/-! DEFINITION. Decoding and encoding of host steps, from spec/30_encoding.md R83 to R93. -/
namespace Sys2Proof

/-- What a host puts on its ports in one step: a bus transaction (R83), a chip-enable level, a delay, or a
power-on reset (R93). In `bus`, `data` holds one byte for each byte time after the command byte: for a command
whose data flows to the host (R85) only their number counts. -/
inductive HostFrame where
  | bus (cmd : Byte) (data : List Byte)
  | pin (level : Bool)
  | delay (us : Nat)
  | por
  deriving DecidableEq, Repr

/-- Why a frame has no instruction. -/
inductive DecodeError where
  /-- A command byte of R89. -/
  | reservedCommand (b : Byte)
  /-- No command byte at all: not a transaction (R83). -/
  | noCommandByte
  deriving DecidableEq, Repr

/-- A row of the opcode map (R87): a byte `b` selects it when `b AND mask = pattern`. -/
structure OpcodeRow where
  cmd     : BusCmd
  pattern : Byte
  mask    : Byte
  deriving DecidableEq, Repr

/-- The opcode map of R87, in its order. -/
def opcodeRows : List OpcodeRow :=
  [ ⟨.rreg,   0x00, 0xE0⟩,
    ⟨.wreg,   0x20, 0xE0⟩,
    ⟨.act,    0x50, 0xFF⟩,
    ⟨.rplw,   0x60, 0xFF⟩,
    ⟨.rrxp,   0x61, 0xFF⟩,
    ⟨.wtxp,   0xA0, 0xFF⟩,
    ⟨.wackp,  0xA8, 0xF8⟩,
    ⟨.wtxpna, 0xB0, 0xFF⟩,
    ⟨.fltx,   0xE1, 0xFF⟩,
    ⟨.flrx,   0xE2, 0xFF⟩,
    ⟨.nop,    0xFF, 0xFF⟩ ]

/-- The byte selects the row (R87). -/
def OpcodeRow.selects (r : OpcodeRow) (b : Byte) : Bool :=
  b &&& r.mask == r.pattern

/-- The row a command byte selects, if any (R87, R88). -/
def commandOf (b : Byte) : Option BusCmd :=
  (opcodeRows.find? (fun r => r.selects b)).map OpcodeRow.cmd

/-- `addr = zext_5(cmd[4:0])` (R86). -/
def addrField (b : Byte) : RegAddr := b.extractLsb' 0 5

/-- `pipe = zext_3(cmd[2:0])` (R86), when it names one of the six pipes (R89). -/
def pipeField (b : Byte) : Option Pipe :=
  if h : (b.extractLsb' 0 3).toNat < 6 then some ⟨(b.extractLsb' 0 3).toNat, h⟩ else none

/-- Decode one bus transaction; 0xAE and 0xAF are reserved inside the `WACKP` row (R89). -/
def decodeBus (b : Byte) (data : List Byte) : Except DecodeError Instr :=
  match commandOf b with
  | none => .error (.reservedCommand b)
  | some .rreg => .ok (.rreg (addrField b) data.length)
  | some .wreg => .ok (.wreg (addrField b) data)
  | some .act => .ok (.act data)
  | some .rplw => .ok (.rplw data.length)
  | some .rrxp => .ok (.rrxp data.length)
  | some .wtxp => .ok (.wtxp data)
  | some .wackp =>
    match pipeField b with
    | some p => .ok (.wackp p data)
    | none => .error (.reservedCommand b)
  | some .wtxpna => .ok (.wtxpna data)
  | some .fltx => .ok (.fltx data.length)
  | some .flrx => .ok (.flrx data.length)
  | some .nop => .ok (.nop data.length)

/-- Decode a host frame (R87, R93). -/
def decode : HostFrame → Except DecodeError Instr
  | .bus b data => decodeBus b data
  | .pin false => .ok .cel
  | .pin true => .ok .ceh
  | .delay us => .ok (.delay us)
  | .por => .ok .por

/-- Decode the bytes of one bus transaction, command byte first (R83). -/
def decodeBytes : List Byte → Except DecodeError Instr
  | [] => .error .noCommandByte
  | b :: data => decodeBus b data

/-- The byte times of `n` bytes read: what the host sends in them is no part of the instruction. -/
def idleBytes (n : Nat) : List Byte := List.replicate n 0x00#8

/-- The frame of an instruction (R84, R86, R87, R93). -/
def encode : Instr → HostFrame
  | .rreg a n => .bus (0b000#3 ++ a) (idleBytes n)
  | .wreg a data => .bus (0b001#3 ++ a) data
  | .act data => .bus 0x50 data
  | .rplw n => .bus 0x60 (idleBytes n)
  | .rrxp n => .bus 0x61 (idleBytes n)
  | .wtxp data => .bus 0xA0 data
  | .wackp p data => .bus (0b10101#5 ++ BitVec.ofNat 3 p.val) data
  | .wtxpna data => .bus 0xB0 data
  | .fltx n => .bus 0xE1 (idleBytes n)
  | .flrx n => .bus 0xE2 (idleBytes n)
  | .nop n => .bus 0xFF (idleBytes n)
  | .cel => .pin false
  | .ceh => .pin true
  | .delay us => .delay us
  | .por => .por

/-! ### The opcode table's words -/

/-- The data bytes of zeros that a table word stands for: one, for a command that takes data (R85), none for
the others. -/
def tableOperand (b : Byte) : List Byte :=
  match commandOf b with
  | none => []
  | some .fltx => []
  | some .flrx => []
  | some .nop => []
  | some _ => [0x00]

/-- The later bytes of a table word wider than one byte, first byte first. -/
def tableBytes : Nat → Nat → List Byte
  | 0, _ => []
  | k + 1, w => BitVec.ofNat 8 w :: tableBytes k (w / 256)

/-- The frame a word of spec/opcode_table.json stands for. The table numbers the host events on a 2-bit selector
(R93), every command on a byte. -/
def tableFrame (nbits w : Nat) : HostFrame :=
  if nbits < 8 then
    match w % 4 with
    | 0 => .pin false
    | 1 => .pin true
    | 2 => .delay 0
    | _ => .por
  else
    let later := tableBytes (nbits / 8 - 1) (w / 256)
    .bus (BitVec.ofNat 8 w) (if later.isEmpty then tableOperand (BitVec.ofNat 8 w) else later)

/-- The instruction the decoder reads from a word of the opcode table. -/
def decodeTableWord (nbits w : Nat) : Option Instr :=
  match decode (tableFrame nbits w) with
  | .ok i => some i
  | .error _ => none

end Sys2Proof
end

