-- ==== Sys2Proof/Config.lean ====
section
/-! DEFINITION. What an implementation fixes: the constants of spec/00_scope.md R7 with a source value, the types
of the parameters that have none, and the free values, which are constants with no body. -/
namespace Sys2Proof

/-- `FIFO_DEPTH` (R7). -/
abbrev fifoDepth : Nat := 3

/-- `MAX_PAYLOAD` (R7). -/
abbrev maxPayload : Nat := 32

/-- `ARD_QUANTUM`, microseconds (R7). -/
abbrev ardQuantum : Nat := 250

/-- The 26 registers, by function (10_state.md R20). -/
inductive RegName where
  | config | enAa | enRxaddr | setupAw | setupRetr | rfCh | rfSetup | status | observeTx | rpd
  | rxAddr (p : Pipe) | txAddr | rxPw (p : Pipe) | fifoStatus | dynpd | feature
  deriving DecidableEq, Repr

/-- The named fields of the registers whose positions `RegMap` assigns (R20). The fields of `STATUS` are not
among them: the source fixes their positions (R24). -/
inductive Field where
  | maskRxDr | maskTxDs | maskMaxRt | enCrc | crco | pwrUp | primRx
  | enaa (p : Pipe) | erx (p : Pipe) | aw | ard | arc | rfChannel
  | contWave | rfDrLow | pllLock | rfDrHigh | rfPwr
  | plosCnt | arcCnt | rpdBit | rxAddrLsb (p : Pipe) | rxPwLen (p : Pipe)
  | txReuse | txFull | txEmpty | rxFull | rxEmpty
  | dpl (p : Pipe) | enDpl | enAckPay | enDynAck
  deriving DecidableEq, Repr

/-- The register a field belongs to (R20). -/
def Field.reg : Field → RegName
  | .maskRxDr => .config | .maskTxDs => .config | .maskMaxRt => .config
  | .enCrc => .config | .crco => .config | .pwrUp => .config | .primRx => .config
  | .enaa _ => .enAa | .erx _ => .enRxaddr | .aw => .setupAw
  | .ard => .setupRetr | .arc => .setupRetr | .rfChannel => .rfCh
  | .contWave => .rfSetup | .rfDrLow => .rfSetup | .pllLock => .rfSetup
  | .rfDrHigh => .rfSetup | .rfPwr => .rfSetup
  | .plosCnt => .observeTx | .arcCnt => .observeTx | .rpdBit => .rpd
  | .rxAddrLsb p => .rxAddr p | .rxPwLen p => .rxPw p
  | .txReuse => .fifoStatus | .txFull => .fifoStatus | .txEmpty => .fifoStatus
  | .rxFull => .fifoStatus | .rxEmpty => .fifoStatus
  | .dpl _ => .dynpd | .enDpl => .feature | .enAckPay => .feature | .enDynAck => .feature

/-- `RegMap` (R7, R20): name to address and field to bit positions `(hi, lo)`, as plain data. -/
structure RegMap where
  addrs : List (RegAddr × RegName)
  bits  : List (Field × Nat × Nat)
  deriving DecidableEq, Repr

/-- A five-byte register in bus order: `b0` is the first byte transferred (R31). -/
structure Addr5 where
  b0 : Byte
  b1 : Byte
  b2 : Byte
  b3 : Byte
  b4 : Byte
  deriving DecidableEq, Repr

/-- The stored registers of the operating bank (R15, R20). `STATUS`, `FIFO_STATUS`, `OBSERVE_TX` and `RPD` are
not stored (R24, R34, R30). -/
structure Regs where
  config    : Byte
  enAa      : Byte
  enRxaddr  : Byte
  setupAw   : Byte
  setupRetr : Byte
  rfCh      : Byte
  rfSetup   : Byte
  rxAddrP0  : Addr5
  rxAddrP1  : Addr5
  rxAddrP2  : Byte
  rxAddrP3  : Byte
  rxAddrP4  : Byte
  rxAddrP5  : Byte
  txAddr    : Addr5
  rxPw0     : Byte
  rxPw1     : Byte
  rxPw2     : Byte
  rxPw3     : Byte
  rxPw4     : Byte
  rxPw5     : Byte
  dynpd     : Byte
  feature   : Byte
  deriving DecidableEq, Repr

/-- The two chip profiles (R2). -/
inductive Profile where
  | standard | dualBankLegacy
  deriving DecidableEq, Repr

/-- Who calls the event pump (60_exceptions.md R240, 70_reset_and_hazards.md R278): a property of the host
program. -/
inductive PumpCaller where
  | polled | interrupt
  deriving DecidableEq, Repr

/-- What becomes of a `transmit` whose pulse finds max-retries set beforehand, where the spec's rules disagree and
90_conflicts.md is silent: `reconciles`, the pump of its wait reports the bit and ends it (44_driver_operations.md R205,
R208, R211); `waitsForEver`, nothing ends it (70_reset_and_hazards.md R270). DESIGN CHOICE, log entry 28. -/
inductive StaleMaxRt where
  | reconciles | waitsForEver
  deriving DecidableEq, Repr

/-- One entry of the calibration table: a register of the tuning bank and its bytes (44_driver_operations.md R224). -/
structure CalEntry where
  addr  : RegAddr
  bytes : List Byte
  deriving DecidableEq, Repr

/-- A bit of a register of several bytes. -/
structure BitPos where
  byte : Nat
  bit  : Fin 8
  deriving DecidableEq, Repr

/-- `CalTable`, which holds what R224 says is not in the source: the addresses and the values of the fourteen
entries, the register of the two-step toggle, one of the fourteen, the two bits, and the order of set and clear: set
and then cleared as the rule's expansion has it, or the other way round. -/
structure CalTable where
  entries  : Vector CalEntry 14
  toggle   : Fin 14
  bitA     : BitPos
  bitB     : BitPos
  setFirst : Bool
  deriving DecidableEq, Repr

/-- The table fits R224 under a register map: fourteen registers, of several bytes each, two bits of one of them. No
entry stands at `STATUS`, which only the pump and `init` step 11 write (R207; 90_conflicts.md C4; log entry 32). -/
structure CalTable.Ok (m : RegMap) (t : CalTable) : Prop where
  distinct  : (t.entries.toList.map CalEntry.addr).Nodup
  noStatus  : ∀ e ∈ t.entries.toList, m.addrs.lookup e.addr ≠ some .status
  multiByte : ∀ e ∈ t.entries.toList, 2 ≤ e.bytes.length
  twoBits   : t.bitA ≠ t.bitB
  bitsIn    : t.bitA.byte < t.entries[t.toggle].bytes.length ∧ t.bitB.byte < t.entries[t.toggle].bytes.length

/-- The implementation parameters of R7. They stand in the state as `State.cfg`, so a claim over all states is a
claim over all their values; no step changes them. -/
structure Params where
  profile       : Profile
  regMap        : RegMap
  resetVals     : Regs
  addrLsbFirst  : Bool
  magicBank     : Byte
  magicFeature  : Byte
  pipeEmptyCode : BitVec 3
  tPwrup        : Nat
  tPor          : Nat
  tCePulse      : Nat
  ackWhenRxFull : Bool
  allowBadWidth : Bool
  irqMask       : BitVec 3
  calTable      : CalTable
  pumpCaller    : PumpCaller
  staleMaxRt    : StaleMaxRt
  deriving DecidableEq, Repr

/-- `T_PWRUP`: OPEN, no value (R7, R260). -/
opaque Config.tPwrup : Nat

/-- `T_POR`: OPEN, no value (R7, R255). -/
opaque Config.tPor : Nat

/-- `T_CE_PULSE`: OPEN, no value (R7, R261). -/
opaque Config.tCePulse : Nat

/-- `draw(byte)` (00_scope.md R12 "Draw"): the k-th free byte. -/
opaque Config.drawByte : Nat → Byte

/-- The number of bytes of a framing-error entry, 0 to 32 (43_sequencer.md R198). -/
opaque Config.drawLength : Nat → Fin 33

/-- The width of a framing-error entry less 33: 0 to 222 stands for 33 to 255 (R198). -/
opaque Config.drawExcess : Nat → Fin 223

end Sys2Proof
end

