-- ==== Sys2Proof/Machine/Defaults.lean ====
section
/-! DEFINITION. The default values of the parameters (spec/00_scope.md R7, 10_state.md R20, R60). They come from
general knowledge of the chip family, not from the source (93_implementation_defined.md, part 2). -/
namespace Sys2Proof

/-- The default positions of the fields of `CONFIG` (R20, PRESUMED). -/
def bitsConfig : List (Field × Nat × Nat) :=
  [(.maskRxDr, 6, 6), (.maskTxDs, 5, 5), (.maskMaxRt, 4, 4), (.enCrc, 3, 3), (.crco, 2, 2), (.pwrUp, 1, 1),
   (.primRx, 0, 0)]

/-- One bit for each pipe, bit `p` for pipe `p`: `EN_AA`, `EN_RXADDR`, `DYNPD` (R20, PRESUMED). -/
def bitsPerPipe (f : Pipe → Field) : List (Field × Nat × Nat) :=
  [(f 0, 0, 0), (f 1, 1, 1), (f 2, 2, 2), (f 3, 3, 3), (f 4, 4, 4), (f 5, 5, 5)]

/-- `SETUP_AW`, `SETUP_RETR`, `RF_CH`, `RF_SETUP` (R20, PRESUMED). -/
def bitsSetup : List (Field × Nat × Nat) :=
  [(.aw, 1, 0), (.ard, 7, 4), (.arc, 3, 0), (.rfChannel, 6, 0), (.contWave, 7, 7), (.rfDrLow, 5, 5),
   (.pllLock, 4, 4), (.rfDrHigh, 3, 3), (.rfPwr, 2, 1)]

/-- `OBSERVE_TX`, `RPD`, `FIFO_STATUS`, `FEATURE` (R20, PRESUMED). -/
def bitsOther : List (Field × Nat × Nat) :=
  [(.plosCnt, 7, 4), (.arcCnt, 3, 0), (.rpdBit, 0, 0), (.txReuse, 6, 6), (.txFull, 5, 5), (.txEmpty, 4, 4),
   (.rxFull, 1, 1), (.rxEmpty, 0, 0), (.enDpl, 2, 2), (.enAckPay, 1, 1), (.enDynAck, 0, 0)]

/-- The least significant address bytes of pipes 2 to 5 (R20, PRESUMED). -/
def bitsAddr : List (Field × Nat × Nat) :=
  [(.rxAddrLsb 2, 7, 0), (.rxAddrLsb 3, 7, 0), (.rxAddrLsb 4, 7, 0), (.rxAddrLsb 5, 7, 0)]

/-- The static payload widths (R20, PRESUMED). -/
def bitsWidth : List (Field × Nat × Nat) :=
  [(.rxPwLen 0, 5, 0), (.rxPwLen 1, 5, 0), (.rxPwLen 2, 5, 0), (.rxPwLen 3, 5, 0), (.rxPwLen 4, 5, 0),
   (.rxPwLen 5, 5, 0)]

/-- The default field positions of R20 (PRESUMED). -/
def defaultBits : List (Field × Nat × Nat) :=
  List.flatten [bitsConfig, bitsPerPipe .enaa, bitsPerPipe .erx, bitsSetup, bitsOther, bitsAddr, bitsWidth,
    bitsPerPipe .dpl]

/-- The default addresses of R20, 0x00 to 0x09 (PRESUMED). -/
def addrsLow : List (RegAddr × RegName) :=
  [(0x00, .config), (0x01, .enAa), (0x02, .enRxaddr), (0x03, .setupAw), (0x04, .setupRetr), (0x05, .rfCh),
   (0x06, .rfSetup), (0x07, .status), (0x08, .observeTx), (0x09, .rpd)]

/-- The default addresses of R20, 0x0A to 0x10 (PRESUMED). -/
def addrsAddr : List (RegAddr × RegName) :=
  [(0x0A, .rxAddr 0), (0x0B, .rxAddr 1), (0x0C, .rxAddr 2), (0x0D, .rxAddr 3), (0x0E, .rxAddr 4),
   (0x0F, .rxAddr 5), (0x10, .txAddr)]

/-- The default addresses of R20, 0x11 to 0x17, 0x1C, 0x1D (PRESUMED). -/
def addrsHigh : List (RegAddr × RegName) :=
  [(0x11, .rxPw 0), (0x12, .rxPw 1), (0x13, .rxPw 2), (0x14, .rxPw 3), (0x15, .rxPw 4), (0x16, .rxPw 5),
   (0x17, .fifoStatus), (0x1C, .dynpd), (0x1D, .feature)]

/-- The default addresses of R20 (PRESUMED). -/
def defaultAddrs : List (RegAddr × RegName) := List.flatten [addrsLow, addrsAddr, addrsHigh]

/-- The default `RegMap` (R20). -/
def defaultRegMap : RegMap := { addrs := defaultAddrs, bits := defaultBits }

/-- A calibration table that fits R224 under the default map. Its default value says only that there is one. -/
structure DefaultCalTable where
  table : CalTable :=
    { entries := Vector.ofFn fun i => { addr := BitVec.ofNat 5 (8 + i.val), bytes := [0x00, 0x00] }
      toggle := 0, bitA := { byte := 0, bit := 0 }, bitB := { byte := 0, bit := 1 }, setFirst := true }
  ok : table.Ok defaultRegMap := by constructor <;> decide
  deriving Inhabited

/-- `CalTable`: opaque (44_driver_operations.md R224, 91_not_in_source.md N12); nothing is known of it but that it fits
R224. -/
opaque Config.calTable : DefaultCalTable

/-- Five equal bytes. -/
def addr5Of (b : Byte) : Addr5 := { b0 := b, b1 := b, b2 := b, b3 := b, b4 := b }

/-- The default `ResetVals` (R60, PRESUMED). -/
def defaultResetVals : Regs :=
  { config := 0x08, enAa := 0x3F, enRxaddr := 0x03, setupAw := 0x03, setupRetr := 0x03, rfCh := 0x02,
    rfSetup := 0x0E, rxAddrP0 := addr5Of 0xE7, rxAddrP1 := addr5Of 0xC2, rxAddrP2 := 0xC3, rxAddrP3 := 0xC4,
    rxAddrP4 := 0xC5, rxAddrP5 := 0xC6, txAddr := addr5Of 0xE7, rxPw0 := 0x00, rxPw1 := 0x00, rxPw2 := 0x00,
    rxPw3 := 0x00, rxPw4 := 0x00, rxPw5 := 0x00, dynpd := 0x00, feature := 0x00 }

/-- The default parameters (R7). The three times and the calibration table have no default: they are the opaque
constants of Config. -/
def defaultParams : Params :=
  { profile := .standard, regMap := defaultRegMap, resetVals := defaultResetVals, addrLsbFirst := true,
    magicBank := 0x53, magicFeature := 0x73, pipeEmptyCode := 0b111, tPwrup := Config.tPwrup,
    tPor := Config.tPor, tCePulse := Config.tCePulse, ackWhenRxFull := false, allowBadWidth := true,
    irqMask := 0b000, calTable := Config.calTable.table, pumpCaller := .polled, staleMaxRt := .reconciles }

end Sys2Proof
end

