-- ==== Sys2Proof/Machine/State.lean ====
section
/-! DEFINITION. The state of one PRMS instance (spec/10_state.md R13), the reasons a step can stop
(60_exceptions.md R232), and the state after reset. Chip state, host state and the model's own bookkeeping stand
in one record of plain data. -/
namespace Sys2Proof.Machine

/-- RadioState (10_state.md R18, 42_mode_state_machine.md R150). -/
inductive RadioState where
  | powerDown | standby | activeTransmit | activeReceive
  deriving DecidableEq, Repr

/-- The sequencer phase `seq` (R42). -/
inductive Phase where
  | idle
  /-- Attempt number `n` of the head packet is on the air. -/
  | txOnAir (n : Nat)
  /-- Attempt `n` has ended; its acknowledgment is awaited. -/
  | awaitAck (n : Nat)
  deriving DecidableEq, Repr

/-- What a TX FIFO entry is (R40). -/
inductive EntryKind where
  | data
  | ackPayload (p : Pipe)
  deriving DecidableEq, Repr

/-- An entry of the TX FIFO (R40). -/
structure TxEntry where
  kind   : EntryKind
  bytes  : List Byte
  ackReq : Bool
  id     : Nat
  deriving DecidableEq, Repr

/-- An entry of the RX FIFO (R41). -/
structure RxEntry where
  pipe  : Pipe
  bytes : List Byte
  wid   : Byte
  deriving DecidableEq, Repr

/-- `PacketId` (43_sequencer.md R177, R203): the sender's counter paired with the sender. One instance by itself
is sender 0. -/
structure PacketId where
  sender : Nat
  serial : Nat
  deriving DecidableEq, Repr

/-- An on-air packet (R177). -/
structure AirPacket where
  addr  : List Byte
  bytes : List Byte
  noAck : Bool
  id    : PacketId
  deriving DecidableEq, Repr

/-- An on-air acknowledgment (R177). -/
structure AckFrame where
  addr    : List Byte
  payload : Option (List Byte)
  deriving DecidableEq, Repr

/-- A frame the block hands to Air (R180, R193). -/
inductive Emission where
  | packet (k : AirPacket)
  | ack (f : AckFrame)
  deriving DecidableEq, Repr

/-- What a bus transaction returns: `(st, in)` of 20_memory.md R63. -/
structure Reply where
  status : Byte
  data   : List Byte
  deriving DecidableEq, Repr

/-- EventFlags (R48). -/
structure EventFlags where
  dataReceived         : Bool
  transmitAcknowledged : Bool
  maxRetriesReached    : Bool
  deriving DecidableEq, Repr

/-! ### The driver's data (spec/44_driver_operations.md) -/

/-- The three air data rates (00_scope.md R8). -/
inductive DataRate where
  | kbps250 | mbps1 | mbps2
  deriving DecidableEq, Repr

/-- `crcMode` of `init` (44 R218, R221). -/
inductive CrcMode where
  | off | oneByte | twoBytes
  deriving DecidableEq, Repr

/-- The configuration record with the four further inputs of R218. -/
structure InitRecord where
  addrWidth       : Nat
  ownAddr         : List Byte
  pipe1Address    : List Byte
  pipesInUse      : List Pipe
  autoAck         : Bool
  dynamicPayload  : Bool
  ackPayload      : Bool
  staticLength    : Byte
  retransmitCount : Nat
  retransmitDelay : Nat
  channel         : Nat
  rate            : DataRate
  pwrBits         : BitVec 2
  crcMode         : CrcMode
  deriving DecidableEq, Repr

/-- What `init` programmed for a pipe: `isDynamic(p)` and `staticLen(p)` of R212. -/
structure PipeRecord where
  dynamic   : Bool
  staticLen : Byte
  deriving DecidableEq, Repr

/-- The record of a pipe before any `init` (DESIGN CHOICE, log entry 5). -/
def unprogrammed : PipeRecord := { dynamic := false, staticLen := 0 }

/-- The six entries of what `init` programmed (R212). -/
structure PipeTable where
  p0 : PipeRecord
  p1 : PipeRecord
  p2 : PipeRecord
  p3 : PipeRecord
  p4 : PipeRecord
  p5 : PipeRecord
  deriving DecidableEq, Repr

/-- The four mode operations (R214 to R217). -/
inductive ModeOp where
  | powerUp | enterReceive | enterTransmit | powerDown
  deriving DecidableEq, Repr

/-- The driver operations a fault or a refusal can name (R209, 60_exceptions.md R232). -/
inductive OpName where
  | transmit | receive | enterReceiveMode | enterTransmitMode | setAckPayload | init
  deriving DecidableEq, Repr

/-- A call of a driver operation (30_encoding.md R96). -/
inductive DriverCall where
  | pump
  | transmit (bytes : List Byte) (ackRequested : Bool)
  | receive
  | mode (op : ModeOp)
  | init (r : InitRecord)
  | setAckPayload (p : Pipe) (bytes : List Byte)
  | switchBank (b : Bool)
  | loadCalibration
  deriving DecidableEq, Repr

/-- Why `init` fails (60_exceptions.md R230). -/
inductive InitError where
  | communicationError | constraintViolation
  deriving DecidableEq, Repr

/-- The result of a driver operation (44 R208, R212, R218). -/
inductive OpResult where
  | done
  | success | maxRetriesExceeded | fifoFull
  | received (packet : Option (Pipe × List Byte))
  | initOk
  | initError (e : InitError)
  deriving DecidableEq, Repr

/-- Where a driver operation stands: the next host step or control step of its pseudocode, with the values it
has read so far (44 R205 to R224). -/
inductive DriverFrame where
  | pumpRead
  | pumpClear (s : Byte)
  | pumpFlush
  | txStart (bytes : List Byte) (ackRequested : Bool)
  | txProbe (bytes : List Byte) (ackRequested : Bool)
  | txWrite (bytes : List Byte) (ackRequested : Bool)
  | txRaise
  | txHold
  | txLower
  | txWait
  /-- A wait that nothing ends but its being given up (70 R270; log entry 28). -/
  | txStuck
  | rxStart
  | rxCheck
  | rxProbe
  | rxWidth (p : Pipe)
  | rxDiscard
  | rxRead (p : Pipe) (n : Nat)
  | rxMore (p : Pipe) (buf : List Byte)
  | modeStart (op : ModeOp)
  | modeLower (op : ModeOp)
  | modeRead (op : ModeOp)
  | modeWrite (op : ModeOp) (c : Byte)
  | modeFinish (op : ModeOp)
  | initStart (r : InitRecord)
  | initFeature (r : InitRecord)
  | initRfSetup (r : InitRecord)
  | initRfCheck (r : InitRecord)
  | initClear (r : InitRecord)
  | initBank (r : InitRecord)
  | initPower (r : InitRecord)
  | initDone
  | ackPayload (p : Pipe) (bytes : List Byte)
  | switchBank (b : Bool)
  | calibrate
  /-- Host steps made in order whatever they answer. -/
  | script (is : List Instr)
  /-- The operation returns. -/
  | finish (r : OpResult)
  deriving DecidableEq, Repr

/-! ### Faults, refusals, turns -/

/-- The access a settling fault names: a bus command, a reserved command byte, or `CEH` (40 R102, 42 R157). -/
inductive Access where
  | bus (c : BusCmd)
  | reserved (b : Byte)
  | ceh
  deriving DecidableEq, Repr

/-- What a configuration write while active is aimed at (40 R115, 41 R143). -/
inductive WriteTarget where
  | reg (a : RegAddr)
  | act
  deriving DecidableEq, Repr

/-- The closed list of FaultReason, 60_exceptions.md R232. Each marks a point where the source says nothing or
"undefined"; each errs toward unprovable, so each is safe. -/
inductive Fault where
  /-- Raised by every bus command and by `CEH` while `settleUs > 0` (40 R102, 42 R157). Safe. -/
  | accessDuringSettling (a : Access)
  /-- Raised by a command byte outside the command set (30 R89). Safe. -/
  | reservedCommand (b : Byte)
  /-- Raised by `RREG` and `WREG` on an address that names no register (40 R104). Safe. -/
  | unimplementedRegister (a : RegAddr)
  /-- Raised by a bus command with a data count outside its range (40 R103, 41 R148). Safe. -/
  | badTransactionLength (c : BusCmd) (n : Nat)
  /-- Raised by `WREG` of address width code 0 or a payload width above 32 (40 R112). Safe. -/
  | illegalRegisterValue (a : RegAddr) (v : Byte)
  /-- Raised by a configuration `WREG` or an `ACT` in an active mode (40 R115, 41 R143). Safe. -/
  | configWriteWhileActive (t : WriteTarget)
  /-- Raised by `WTXP`, `WTXPNA` and `WACKP` on a full TX FIFO (41 R137). Safe. -/
  | txFifoOverflow
  /-- Raised by `ACT` with a byte that is no magic value of the profile (41 R143). Safe. -/
  | badActivateMagic (m : Byte)
  /-- Raised by `CEH` in PowerDown and by a power-up write with the pin high (42 R152, R157). Safe. -/
  | ceInPowerDown
  /-- Raised by a direction change with the pin high, in a burst or with a latched trigger (42 R154). Safe. -/
  | modeBypass
  /-- Raised by `CEL` ending too short a pulse with something to send (42 R158). Safe. -/
  | shortCePulse (us : Nat)
  /-- Raised by a driver operation called while the driver's state is PowerDown (44 R209). Safe. -/
  | driverMisuse (op : OpName)
  deriving DecidableEq, Repr

/-- Why a step has no meaning. -/
inductive Refusal where
  /-- Answered by `exec` for an instruction with no meaning yet. Safe. -/
  | notModelled (mnemonic : String)
  /-- Answered by a turn that calls a driver operation while one is running: "the engine is not reentrant"
  (00 R6). Safe. -/
  | driverBusy
  /-- Answered by a driver operation whose `require` line does not hold and for which R232 has no fault: `init`
  with the pin high or in an active mode (44 R219), `setAckPayload` above 32 bytes (44 R222). Safe. -/
  | preconditionUnmet (op : OpName)
  deriving DecidableEq, Repr

/-- One turn of one agent (00 R5): what happens next. A turn of an agent that has no step enabled changes
nothing. -/
inductive Turn where
  /-- The host makes one raw host step. -/
  | host (f : HostFrame)
  /-- The application calls a driver operation. -/
  | call (c : DriverCall)
  /-- The running host program (the interrupt-context pump first) makes its next step. -/
  | driver
  /-- The interrupt callback is entered (60 R240). -/
  | irq
  /-- The caller of `transmit` gives up its wait (44 R210). -/
  | abandon
  /-- The sequencer starts a burst or ends an attempt (43 R178, R180). -/
  | sequencer
  /-- Air answers an awaited acknowledgment with `Ack payload` (43 R185). -/
  | ack (payload : Option (List Byte))
  /-- Air answers an awaited acknowledgment with `Timeout` (43 R186, R187). -/
  | timeout
  /-- Air offers an incoming frame (43 R189 to R197). -/
  | offer (k : AirPacket)
  /-- Air causes a framing error on a pipe (43 R198). -/
  | framing (p : Pipe)
  deriving DecidableEq, Repr

/-- The state of one PRMS instance (10_state.md R13). -/
structure State where
  /-- The implementation parameters (00 R7); no step changes them. -/
  cfg           : Params
  /-- The stored registers (R15, R20). -/
  regs          : Regs
  /-- Event bits (R25). -/
  rxDr          : Bool
  txDs          : Bool
  maxRt         : Bool
  /-- The FIFOs, head first (R40, R41). -/
  txf           : List TxEntry
  rxf           : List RxEntry
  /-- The chip-enable pin (R17). -/
  ce            : Bool
  /-- The sequencer phase and the retry count (R42, R43). -/
  seq           : Phase
  retry         : Nat
  /-- The transmit trigger latch and the pulse mark (R44). -/
  txTrigger     : Bool
  pulseUsed     : Bool
  /-- The scoreboard counters (R45). -/
  settleUs      : Nat
  ceHighUs      : Nat
  /-- Packet identities (R46). -/
  nextId        : Nat
  lastRxId      : Option PacketId
  /-- The feature lock (R36). -/
  featureLocked : Bool
  /-- The selected bank: true is bank 1 (R37). -/
  bank          : Bool
  /-- The tuning bank: sorted by address, no repeats, no empty entry (R37). -/
  tune          : List (Nat × List Byte)
  /-- The fault recorded, if any (R47). -/
  fault         : Option Fault
  /-- EventFlags (R48). -/
  ev            : EventFlags
  /-- The driver's record of the RadioState, `drv.state` (R49). -/
  drvState      : RadioState
  /-- What `init` programmed for each pipe (44 R212). -/
  drvPipes      : PipeTable
  /-- The running driver operation, innermost frame first; empty when idle. -/
  thread        : List DriverFrame
  /-- The running interrupt-context pump; empty when idle (60 R240). -/
  irqThread     : List DriverFrame
  /-- The result of the last driver operation that returned. -/
  opResult      : Option OpResult
  /-- What the last bus transaction returned (20 R63). -/
  reply         : Reply
  /-- The frames handed to Air, oldest first (43 R180, R193). -/
  emitted       : List Emission
  /-- The number of free values taken so far: the model's own field. -/
  draws         : Nat
  /-- The turns still to come, oldest first: the model's own field, the inputs of the step (R50). -/
  agenda        : List Turn
  deriving DecidableEq, Repr

/-- The machine right after reset: one `POR` from arbitrary contents with `ce = 0`, no fault, the driver in
PowerDown and the EventFlags false (70_reset_and_hazards.md R255, 10_state.md R60 to R62). -/
def State.reset : State :=
  { cfg := defaultParams, regs := defaultParams.resetVals, rxDr := false, txDs := false, maxRt := false,
    txf := [], rxf := [], ce := false, seq := .idle, retry := 0, txTrigger := false, pulseUsed := false,
    settleUs := defaultParams.tPor, ceHighUs := 0, nextId := 0, lastRxId := none, featureLocked := true,
    bank := false, tune := [], fault := none,
    ev := { dataReceived := false, transmitAcknowledged := false, maxRetriesReached := false },
    drvState := .powerDown,
    drvPipes := { p0 := unprogrammed, p1 := unprogrammed, p2 := unprogrammed, p3 := unprogrammed,
                  p4 := unprogrammed, p5 := unprogrammed },
    thread := [], irqThread := [], opResult := none, reply := { status := 0x00, data := [] }, emitted := [],
    draws := 0, agenda := [] }

/-- The three outcomes of a step, for this machine. -/
abbrev Outcome := Host.Outcome State Fault Refusal

end Sys2Proof.Machine
end

