-- ==== Sys2Proof/Machine/Operands.lean ====
section
/-! DEFINITION. Registers and fields: the register map (spec/10_state.md R20), field slices, the stored bytes,
partial reads and writes of the five-byte registers (20_memory.md R66, R67), effective addresses (R32). -/
namespace Sys2Proof.Machine

/-! ### The register map -/

/-- `a ∈ REG_ADDRS`: 0x00 to 0x17, 0x1C, 0x1D (10_state.md R15). -/
def inRegAddrs (a : RegAddr) : Bool :=
  a.toNat < 0x18 || a == 0x1C || a == 0x1D

/-- The register an address of `REG_ADDRS` names (R20); none at a hole (R74). -/
def regAt (m : RegMap) (a : RegAddr) : Option RegName :=
  if inRegAddrs a then m.addrs.lookup a else none

/-- The address of a register by name (R94). A name the map lacks stands at the hole 0x1F. -/
def addrOf (m : RegMap) (r : RegName) : RegAddr :=
  match m.addrs.find? (fun e => e.2 == r) with
  | some e => e.1
  | none => 0x1F

/-- The number of bytes of a register (R20). -/
def regWidth : RegName → Nat
  | .rxAddr p => if p.val < 2 then 5 else 1
  | .txAddr => 5
  | _ => 1

/-! ### Fields -/

/-- The width of a field at `(hi, lo)`: 0 when `hi < lo`. -/
def sliceWidth (pos : Nat × Nat) : Nat := pos.1 + 1 - pos.2

/-- `v[hi:lo]` (00_scope.md R9). -/
def slice (pos : Nat × Nat) (v : Byte) : Nat := (v.toNat >>> pos.2) % 2 ^ sliceWidth pos

/-- The byte with ones at `hi` down to `lo`. -/
def sliceMask (pos : Nat × Nat) : Byte := BitVec.ofNat 8 ((2 ^ sliceWidth pos - 1) <<< pos.2)

/-- The byte with `n` at `hi` down to `lo` and zeros elsewhere. -/
def slicePut (pos : Nat × Nat) (n : Nat) : Byte := BitVec.ofNat 8 ((n % 2 ^ sliceWidth pos) <<< pos.2)

/-- The position of a field (R20). A field the map lacks has no bits. -/
def fieldPos (m : RegMap) (f : Field) : Nat × Nat := (m.bits.lookup f).getD (0, 1)

/-- The value of field `f` in byte `v`. -/
def fieldOf (m : RegMap) (f : Field) (v : Byte) : Nat := slice (fieldPos m f) v

/-- One-bit field `f` of byte `v` is 1. -/
def bitOf (m : RegMap) (f : Field) (v : Byte) : Bool := fieldOf m f v == 1

/-- The mask of field `f`. -/
def fieldMask (m : RegMap) (f : Field) : Byte := sliceMask (fieldPos m f)

/-- Field `f` holding `n`, zeros elsewhere. -/
def fieldPut (m : RegMap) (f : Field) (n : Nat) : Byte := slicePut (fieldPos m f) n

/-- `implemented(a)`: the OR of the masks of the fields of a register (R19). -/
def implemented (m : RegMap) (r : RegName) : Byte :=
  ((m.bits.filter (fun e => e.1.reg == r)).map (fun e => sliceMask e.2)).foldl (· ||| ·) 0x00

/-! ### Stored registers -/

/-- The bytes of a five-byte register, in bus order (R31). -/
def addrBytes (a : Addr5) : List Byte := [a.b0, a.b1, a.b2, a.b3, a.b4]

/-- `MemWrite(a, n, s)`: the first `n` bytes are replaced, the rest kept (20_memory.md R67). -/
def addrWrite (a : Addr5) (s : List Byte) : Addr5 :=
  { b0 := s[0]?.getD a.b0, b1 := s[1]?.getD a.b1, b2 := s[2]?.getD a.b2, b3 := s[3]?.getD a.b3,
    b4 := s[4]?.getD a.b4 }

/-- `x[r]`, the stored byte of a one-byte register (00_scope.md R10); 0 for a register that is no stored byte. -/
def regByte (x : Regs) : RegName → Byte
  | .config => x.config
  | .enAa => x.enAa
  | .enRxaddr => x.enRxaddr
  | .setupAw => x.setupAw
  | .setupRetr => x.setupRetr
  | .rfCh => x.rfCh
  | .rfSetup => x.rfSetup
  | .rxAddr 2 => x.rxAddrP2
  | .rxAddr 3 => x.rxAddrP3
  | .rxAddr 4 => x.rxAddrP4
  | .rxAddr 5 => x.rxAddrP5
  | .rxPw 0 => x.rxPw0
  | .rxPw 1 => x.rxPw1
  | .rxPw 2 => x.rxPw2
  | .rxPw 3 => x.rxPw3
  | .rxPw 4 => x.rxPw4
  | .rxPw 5 => x.rxPw5
  | .dynpd => x.dynpd
  | .feature => x.feature
  | .rxAddr _ => 0x00
  | .txAddr => 0x00
  | .status => 0x00
  | .observeTx => 0x00
  | .rpd => 0x00
  | .fifoStatus => 0x00

/-- The five-byte register of a name (R31). -/
def regAddr5 (x : Regs) : RegName → Option Addr5
  | .rxAddr 0 => some x.rxAddrP0
  | .rxAddr 1 => some x.rxAddrP1
  | .txAddr => some x.txAddr
  | _ => none

/-- The stored bytes of a register, in bus order: `MemRead` of its whole width (20_memory.md R66). -/
def regBytes (x : Regs) (r : RegName) : List Byte :=
  match regAddr5 x r with
  | some a => addrBytes a
  | none => [regByte x r]

/-- `x[r] <- v` for a one-byte stored register (R10); a register that is no stored byte keeps nothing. -/
def setRegByte (x : Regs) (r : RegName) (v : Byte) : Regs :=
  match r with
  | .config => { x with config := v }
  | .enAa => { x with enAa := v }
  | .enRxaddr => { x with enRxaddr := v }
  | .setupAw => { x with setupAw := v }
  | .setupRetr => { x with setupRetr := v }
  | .rfCh => { x with rfCh := v }
  | .rfSetup => { x with rfSetup := v }
  | .rxAddr 2 => { x with rxAddrP2 := v }
  | .rxAddr 3 => { x with rxAddrP3 := v }
  | .rxAddr 4 => { x with rxAddrP4 := v }
  | .rxAddr 5 => { x with rxAddrP5 := v }
  | .rxPw 0 => { x with rxPw0 := v }
  | .rxPw 1 => { x with rxPw1 := v }
  | .rxPw 2 => { x with rxPw2 := v }
  | .rxPw 3 => { x with rxPw3 := v }
  | .rxPw 4 => { x with rxPw4 := v }
  | .rxPw 5 => { x with rxPw5 := v }
  | .dynpd => { x with dynpd := v }
  | .feature => { x with feature := v }
  | .rxAddr _ => x
  | .txAddr => x
  | .status => x
  | .observeTx => x
  | .rpd => x
  | .fifoStatus => x

/-- `MemWrite` of a five-byte register (20_memory.md R67); any other register is kept. -/
def setRegBytes (x : Regs) (r : RegName) (s : List Byte) : Regs :=
  match r with
  | .rxAddr 0 => { x with rxAddrP0 := addrWrite x.rxAddrP0 s }
  | .rxAddr 1 => { x with rxAddrP1 := addrWrite x.rxAddrP1 s }
  | .txAddr => { x with txAddr := addrWrite x.txAddr s }
  | _ => x

/-! ### Fields of the state's registers -/

/-- `F.name` of the stored registers (00_scope.md R10). -/
def State.field (s : State) (f : Field) : Nat := fieldOf s.cfg.regMap f (regByte s.regs f.reg)

/-- A one-bit field of the stored registers is 1. -/
def State.bit (s : State) (f : Field) : Bool := s.field f == 1

/-- The address width code `aw` selects this many bytes: 1, 2, 3 give 3, 4, 5 (R26). -/
def awBytes (code : Nat) : Nat := code + 2

/-- `AW = aw_bytes(SETUP_AW)` (R16, R26). -/
def State.aw (s : State) : Nat := awBytes (s.field .aw)

/-- `eff_addr(p)` (R32). -/
def State.effAddr (s : State) (p : Pipe) : List Byte :=
  if p.val = 0 then (addrBytes s.regs.rxAddrP0).take s.aw
  else if p.val = 1 then (addrBytes s.regs.rxAddrP1).take s.aw
  else if s.cfg.addrLsbFirst then
    regByte s.regs (.rxAddr p) :: ((addrBytes s.regs.rxAddrP1).take s.aw).drop 1
  else
    (addrBytes s.regs.rxAddrP1).take (s.aw - 1) ++ [regByte s.regs (.rxAddr p)]

/-- `tx_addr() = TX_ADDR[0..AW)` (R32). -/
def State.txAddrBytes (s : State) : List Byte := (addrBytes s.regs.txAddr).take s.aw

/-- The retransmit delay `(ARD + 1) * ARD_QUANTUM` that the setting stands for (R27); no step reads it. -/
def State.retransmitDelayUs (s : State) : Nat := (s.field .ard + 1) * ardQuantum

end Sys2Proof.Machine
end

