-- ==== Sys2Proof/Machine/Flags.lean ====
section
/-! DEFINITION. The views computed from state: the status byte (spec/10_state.md R24), `FIFO_STATUS` (R34), the
RadioState (42_mode_state_machine.md R150), the interrupt line (60_exceptions.md R238). -/
namespace Sys2Proof.Machine

/-- `full(txf)`. -/
def State.txFull (s : State) : Bool := s.txf.length == fifoDepth

/-- `empty(txf)`. -/
def State.txEmpty (s : State) : Bool := s.txf.isEmpty

/-- `full(rxf)`. -/
def State.rxFull (s : State) : Bool := s.rxf.length == fifoDepth

/-- `empty(rxf)`. -/
def State.rxEmpty (s : State) : Bool := s.rxf.isEmpty

/-- `bankbit` (R24): the bank on DualBankLegacy, 0 on Standard. -/
def State.bankBit (s : State) : Bool :=
  match s.cfg.profile with
  | .dualBankLegacy => s.bank
  | .standard => false

/-- `rx_p_no` (R24): the pipe of the head of the RX FIFO, `PIPE_EMPTY_CODE` when there is none. -/
def State.rxPNo (s : State) : BitVec 3 :=
  match s.rxf with
  | [] => s.cfg.pipeEmptyCode
  | h :: _ => BitVec.ofNat 3 h.pipe.val

/-- `status()` (R24). -/
def State.status (s : State) : Byte :=
  BitVec.ofBool s.bankBit ++ BitVec.ofBool s.rxDr ++ BitVec.ofBool s.txDs ++ BitVec.ofBool s.maxRt
    ++ s.rxPNo ++ BitVec.ofBool s.txFull

/-- `fifo_status()` (R34), its flags at the positions of the register map; `TX_REUSE` is always 0. -/
def State.fifoStatus (s : State) : Byte :=
  fieldPut s.cfg.regMap .txFull s.txFull.toNat ||| fieldPut s.cfg.regMap .txEmpty s.txEmpty.toNat
    ||| fieldPut s.cfg.regMap .rxFull s.rxFull.toNat ||| fieldPut s.cfg.regMap .rxEmpty s.rxEmpty.toNat

/-- `mode()` (42 R150). -/
def State.mode (s : State) : RadioState :=
  if s.bit .pwrUp then
    if s.seq ≠ .idle then .activeTransmit
    else if s.bit .primRx && s.ce then .activeReceive
    else .standby
  else .powerDown

/-- `mode()` is ActiveTransmit or ActiveReceive (40 R115). -/
def State.isActive (s : State) : Bool :=
  match s.mode with
  | .activeTransmit => true
  | .activeReceive => true
  | .powerDown => false
  | .standby => false

/-- The event masks in force: `IRQ_MASK OR (MASK_RX_DR ++ MASK_TX_DS ++ MASK_MAX_RT)` (60 R238). -/
def State.irqMasks (s : State) : BitVec 3 :=
  s.cfg.irqMask ||| (BitVec.ofBool (s.bit .maskRxDr) ++ BitVec.ofBool (s.bit .maskTxDs)
    ++ BitVec.ofBool (s.bit .maskMaxRt))

/-- `irq()`, the level of the interrupt line: false (low) when asserted (60 R238). -/
def State.irqLine (s : State) : Bool :=
  !((s.rxDr && !s.irqMasks.getLsbD 2) || (s.txDs && !s.irqMasks.getLsbD 1) || (s.maxRt && !s.irqMasks.getLsbD 0))

end Sys2Proof.Machine
end

