-- ==== Sys2Proof/Machine/Ops.lean ====
section
/-! DEFINITION. The shared operations: raising a model fault (spec/60_exceptions.md R232), the checks every host
step makes (40_register_commands.md R102), free values, the tuning bank (10_state.md R37), the queues, the abort
of a burst (41 R139, 42 R153) and power-on reset (70 R255). -/
namespace Sys2Proof.Machine

/-! ### Faults -/

/-- `raise r`: the step ends in the fault and changes no other state (60 R232, R233). This is the block's only
exception; it has no handler and nothing returns from it. -/
def raise (r : Fault) : Outcome := .fault r

/-- The faulted state: `fault <- some(r)` if it was none (R232). -/
def State.recordFault (s : State) (r : Fault) : State :=
  { s with fault := some (s.fault.getD r) }

/-- The state a step leaves, faulted states included (R232): what a composition of instances carries on with. A
refused step, for which the spec gives no effect, leaves the state as it is (DESIGN CHOICE, log entry 33). -/
def State.afterOutcome (s : State) : Outcome → State
  | .next t => t
  | .fault r => s.recordFault r
  | .refused _ => s

/-- From a faulted state no agent has a step (R233). -/
def unlessFaulted (s : State) (k : State → Outcome) : Outcome :=
  match s.fault with
  | some r => .fault r
  | none => k s

/-- The status byte of the state at the start of the step is sampled into the reply (20_memory.md R82). -/
def State.sampled (s : State) : State := { s with reply := { status := s.status, data := [] } }

/-- The checks (1), (2) and (3) of R102: no fault recorded, settled, then the status byte sampled into the reply
before any effect of the command (20 R82). -/
def busAccess (a : Access) (s : State) (k : State → Outcome) : Outcome :=
  unlessFaulted s fun s =>
    if s.settleUs > 0 then raise (.accessDuringSettling a)
    else k s.sampled

/-- A bus command whose data count is checked by itself (R102, R103, R148). -/
def busCommand (c : BusCmd) (n : Nat) (countOk : Bool) (s : State) (k : State → Outcome) : Outcome :=
  busAccess (.bus c) s fun t =>
    if countOk then k t else raise (.badTransactionLength c n)

/-- The transaction returns these data bytes beside its status byte (20 R63). -/
def State.replyData (s : State) (data : List Byte) : State :=
  { s with reply := { s.reply with data := data } }

/-! ### Free values -/

/-- The next `n` draws of a byte (00 R12 "Draw"). -/
def State.drawnBytes (s : State) (n : Nat) : List Byte :=
  (List.range n).map (fun i => Config.drawByte (s.draws + i))

/-- `n` draws have been taken. -/
def State.drew (s : State) (n : Nat) : State := { s with draws := s.draws + n }

/-! ### The tuning bank (10_state.md R37, 40 R109, R118) -/

/-- `tune[a]`: what was stored there, nothing if nothing was. -/
def tuneGet : List (Nat × List Byte) → Nat → List Byte
  | [], _ => []
  | (b, d) :: rest, a => if a = b then d else tuneGet rest a

/-- `tune[a] <- data`, keeping the entries sorted; storing no bytes leaves no entry. -/
def tuneSet : List (Nat × List Byte) → Nat → List Byte → List (Nat × List Byte)
  | [], a, d => if d.isEmpty then [] else [(a, d)]
  | (b, e) :: rest, a, d =>
    if a < b then (if d.isEmpty then (b, e) :: rest else (a, d) :: (b, e) :: rest)
    else if a = b then (if d.isEmpty then rest else (a, d) :: rest)
    else (b, e) :: tuneSet rest a d

/-- The canonical form: addresses strictly rising, no empty entry. -/
def tuneWf (t : List (Nat × List Byte)) : Prop :=
  t.Pairwise (fun x y => x.1 < y.1) ∧ ∀ e ∈ t, e.2 ≠ []

/-! ### Queues -/

/-- The entry is a data packet. -/
def TxEntry.isData (e : TxEntry) : Bool := e.kind == .data

/-- The entry is an acknowledgment payload for pipe `p`. -/
def TxEntry.isAckFor (p : Pipe) (e : TxEntry) : Bool := e.kind == .ackPayload p

/-- `cur`: the first data entry of the TX FIFO (43 R179). -/
def State.cur (s : State) : Option TxEntry := s.txf.find? TxEntry.isData

/-- `remove cur from txf` (43 R183, R185). -/
def State.removeCur (s : State) : State := { s with txf := s.txf.eraseP TxEntry.isData }

/-- `push(txf, …)` with a fresh identity (41 R134 to R136). -/
def State.pushTx (s : State) (kind : EntryKind) (bytes : List Byte) (ackReq : Bool) : State :=
  { s with
    txf := s.txf ++ [{ kind := kind, bytes := bytes, ackReq := ackReq, id := s.nextId }]
    nextId := s.nextId + 1 }

/-- `push(rxf, …)` and `rx_dr <- true` (43 R185, R192, R198). -/
def State.pushRx (s : State) (e : RxEntry) : State :=
  { s with rxf := s.rxf ++ [e], rxDr := true }

/-- A frame is handed to Air (43 R180, R193). -/
def State.emit (s : State) (e : Emission) : State := { s with emitted := s.emitted ++ [e] }

/-- The burst in progress is aborted: no event bit is set (41 R139, 42 R153). -/
def State.abortBurst (s : State) : State := { s with seq := .idle, retry := 0 }

/-- `sendable()` (42 R158). -/
def State.sendable (s : State) : Bool := !s.maxRt && s.txf.any TxEntry.isData

/-! ### Power-on reset -/

/-- The effect of `POR` on the chip (70 R255): `ce`, `fault`, the host state and the model's own fields stay. -/
def State.powerOnReset (s : State) : State :=
  { s with
    regs := s.cfg.resetVals, rxDr := false, txDs := false, maxRt := false, txf := [], rxf := [], seq := .idle,
    retry := 0, txTrigger := false, pulseUsed := false, settleUs := s.cfg.tPor, ceHighUs := 0, nextId := 0,
    lastRxId := none, featureLocked := true, bank := false, tune := [] }

end Sys2Proof.Machine
end

