-- ==== Sys2Proof/Machine/FifoCommands.lean ====
section
/-! DEFINITION. The FIFO commands and the special commands (spec/41_fifo_commands.md): `ACT`, `RPLW`, `RRXP`,
`WTXP`, `WACKP`, `WTXPNA`, `FLTX`, `FLRX`, `NOP`. -/
namespace Sys2Proof.Machine

/-! ### Reading the RX FIFO -/

/-- The first `n` bytes of a packet, free values past its end (41 R132, R133 a, b). -/
def State.payloadBytes (s : State) (bytes : List Byte) (n : Nat) : List Byte :=
  bytes.take n ++ s.drawnBytes (n - bytes.length)

/-- `RRXP` past its checks: the head is popped for every `n`; an empty FIFO gives free values and keeps
everything (41 R132, R133). -/
def State.readPayload (s : State) (n : Nat) : State :=
  match s.rxf with
  | [] => (s.replyData (s.drawnBytes n)).drew n
  | h :: rest =>
    { ((s.replyData (s.payloadBytes h.bytes n)).drew (n - h.bytes.length)) with rxf := rest }

/-- `RRXP n` (41 R132). -/
def execRrxp (n : Nat) (s : State) : Outcome :=
  busCommand .rrxp n (n ≤ maxPayload) s fun t => .next (t.readPayload n)

/-- `RPLW` past its checks: the width of the head entry, a free value when there is none (41 R141, R142). -/
def State.readWidth (s : State) : State :=
  match s.rxf with
  | [] => (s.replyData (s.drawnBytes 1)).drew 1
  | h :: _ => s.replyData [h.wid]

/-- `RPLW` (41 R141). -/
def execRplw (n : Nat) (s : State) : Outcome :=
  busCommand .rplw n (n == 1) s fun t => .next t.readWidth

/-- `FLRX` (41 R140). -/
def execFlrx (n : Nat) (s : State) : Outcome :=
  busCommand .flrx n (n == 0) s fun t => .next { t with rxf := [] }

/-! ### Writing the TX FIFO -/

/-- The three payload writes differ in the entry they push (41 R134 to R137). -/
def writePayload (c : BusCmd) (kind : EntryKind) (ackReq : Bool) (data : List Byte) (s : State) : Outcome :=
  busCommand c data.length (data.length ≤ maxPayload) s fun t =>
    if t.txFull then raise .txFifoOverflow else .next (t.pushTx kind data ackReq)

/-- `WTXP data` (41 R134). -/
def execWtxp (data : List Byte) (s : State) : Outcome := writePayload .wtxp .data true data s

/-- `WTXPNA data` (41 R135). -/
def execWtxpna (data : List Byte) (s : State) : Outcome := writePayload .wtxpna .data false data s

/-- `WACKP p, data` (41 R136). -/
def execWackp (p : Pipe) (data : List Byte) (s : State) : Outcome :=
  writePayload .wackp (.ackPayload p) false data s

/-- `FLTX` past its checks: a burst in progress is aborted, every entry goes, the trigger is dropped (41 R138,
R139). -/
def State.flushTx (s : State) : State :=
  { (if s.seq ≠ .idle then s.abortBurst else s) with txf := [], txTrigger := false }

/-- `FLTX` (41 R138). -/
def execFltx (n : Nat) (s : State) : Outcome :=
  busCommand .fltx n (n == 0) s fun t => .next t.flushTx

/-! ### Special commands -/

/-- `ACT m` past its count check (41 R143 to R145). -/
def activate (m : Byte) (s : State) : Outcome :=
  if s.isActive then raise (.configWriteWhileActive .act)
  else if m = s.cfg.magicFeature then .next { s with featureLocked := !s.featureLocked }
  else if m = s.cfg.magicBank ∧ s.cfg.profile = .dualBankLegacy then .next { s with bank := !s.bank }
  else raise (.badActivateMagic m)

/-- `ACT m` (41 R143). -/
def execAct (data : List Byte) (s : State) : Outcome :=
  busCommand .act data.length (data.length == 1) s fun t => activate (data.headD 0x00) t

/-- `NOP` (41 R146). -/
def execNop (n : Nat) (s : State) : Outcome :=
  busCommand .nop n (n == 0) s fun t => .next t

end Sys2Proof.Machine
end

