-- ==== Sys2Proof/Machine/HostEvents.lean ====
section
/-! DEFINITION. The host events `CEL`, `CEH`, `DELAY` (spec/42_mode_state_machine.md R156 to R159) and `POR`
(70_reset_and_hazards.md R255). -/
namespace Sys2Proof.Machine

/-- `CEH`: raise chip-enable (42 R157). -/
def execCeh (s : State) : Outcome :=
  unlessFaulted s fun s =>
    if s.ce then .next s
    else if !s.bit .pwrUp then raise .ceInPowerDown
    else if s.settleUs > 0 then raise (.accessDuringSettling .ceh)
    else .next { s with ce := true, ceHighUs := 0, pulseUsed := false }

/-- The pulse that this `CEL` ends could start a burst and has started none (42 R158). -/
def State.endsPulse (s : State) : Bool :=
  s.bit .pwrUp && !s.bit .primRx && s.settleUs == 0 && s.seq == .idle && !s.pulseUsed && s.sendable

/-- `CEL`: lower chip-enable (42 R158, R159). -/
def execCel (s : State) : Outcome :=
  unlessFaulted s fun s =>
    if !s.ce then .next s
    else if s.endsPulse then
      if s.ceHighUs < s.cfg.tCePulse then raise (.shortCePulse s.ceHighUs)
      else .next { s with txTrigger := true, ce := false }
    else .next { s with ce := false }

/-- `DELAY us` (42 R156). -/
def execDelay (us : Nat) (s : State) : Outcome :=
  unlessFaulted s fun s =>
    .next { s with
      settleUs := s.settleUs - us
      ceHighUs := if s.ce then s.ceHighUs + us else s.ceHighUs }

/-- `POR` (70 R255). -/
def execPor (s : State) : Outcome :=
  unlessFaulted s fun s => .next s.powerOnReset

end Sys2Proof.Machine
end

