-- ==== Sys2Proof/Machine/RegisterCommands.lean ====
section
/-! DEFINITION. `RREG` and `WREG` with the read views and write effects of each register
(spec/40_register_commands.md), the mode effects of `WREG CONFIG` among them (42_mode_state_machine.md R152 to
R155). -/
namespace Sys2Proof.Machine

/-- The register an access reaches: none when `bank = 1` sends it to the tuning bank, which takes every address
but that of `STATUS` (40 R109, R118). -/
def State.inTuneBank (s : State) (a : RegAddr) : Bool :=
  s.bankBit && regAt s.cfg.regMap a != some .status

/-! ### RREG -/

/-- `n` free bytes are returned. -/
def State.replyDrawn (s : State) (n : Nat) : State := (s.replyData (s.drawnBytes n)).drew n

/-- `tune_read(addr, n)` (40 R109). -/
def State.tuneRead (s : State) (a : RegAddr) (n : Nat) : State :=
  if n ≤ (tuneGet s.tune a.toNat).length then s.replyData ((tuneGet s.tune a.toNat).take n)
  else s.replyDrawn n

/-- `view(addr)[0..n)`, for `n` up to the width (40 R100, R105 to R108). -/
def State.readView (s : State) (r : RegName) (n : Nat) : State :=
  match r with
  | .status => s.replyData ([s.status].take n)
  | .fifoStatus => s.replyData ([s.fifoStatus].take n)
  | .observeTx => s.replyDrawn n
  | .rpd => s.replyDrawn n
  | .feature => s.replyData ((if s.featureLocked then [0x00] else [s.regs.feature]).take n)
  | .dynpd => s.replyData ((if s.featureLocked then [0x00] else [s.regs.dynpd]).take n)
  | r => s.replyData ((regBytes s.regs r).take n)

/-- `RREG addr, n` (40 R100). -/
def execRreg (addr : RegAddr) (n : Nat) (s : State) : Outcome :=
  busAccess (.bus .rreg) s fun t =>
    if t.inTuneBank addr then .next (t.tuneRead addr n)
    else
      match regAt t.cfg.regMap addr with
      | none => raise (.unimplementedRegister addr)
      | some r =>
        if n > regWidth r then raise (.badTransactionLength .rreg n)
        else .next (t.readView r n)

/-! ### WREG -/

/-- `WREG STATUS, [v]`: write 1 to clear (40 R110). -/
def State.clearEvents (s : State) (v : Byte) : State :=
  { s with
    rxDr := s.rxDr && !v.getLsbD 6
    txDs := s.txDs && !v.getLsbD 5
    maxRt := s.maxRt && !v.getLsbD 4 }

/-- The stored value of a write: `v AND implemented(a)` (10_state.md R19). -/
def State.masked (s : State) (r : RegName) (v : Byte) : Byte := v &&& implemented s.cfg.regMap r

/-- `PWR_UP` goes 0 to 1: the settling time is loaded (42 R152). -/
def State.powerUpEffect (s : State) : State := { s with settleUs := s.cfg.tPwrup }

/-- `PWR_UP` goes 1 to 0: any burst is aborted, the trigger and the settling end; the pin, the FIFOs, the
registers and the event bits stay (42 R153). -/
def State.powerDownEffect (s : State) : State :=
  { (if s.seq ≠ .idle then s.abortBurst else s) with txTrigger := false, settleUs := 0 }

/-- `x[CONFIG] <- new`. -/
def State.storeConfig (s : State) (new : Byte) : State := { s with regs := { s.regs with config := new } }

/-- `WREG CONFIG, [v]`: the direction check, then the power check and effect, then the store (40 R111, 42 R152 to
R155). -/
def writeConfig (v : Byte) (s : State) : Outcome :=
  let m := s.cfg.regMap
  let old := s.regs.config
  let new := s.masked .config v
  if bitOf m .primRx new ≠ bitOf m .primRx old ∧ (s.ce ∨ s.seq ≠ .idle ∨ s.txTrigger) then raise .modeBypass
  else if !bitOf m .pwrUp old && bitOf m .pwrUp new then
    if s.ce then raise .ceInPowerDown else .next (s.powerUpEffect.storeConfig new)
  else if bitOf m .pwrUp old && !bitOf m .pwrUp new then .next (s.powerDownEffect.storeConfig new)
  else .next (s.storeConfig new)

/-- The value may not be stored (40 R112): address width code 0, static payload width above 32. -/
def illegalValue (m : RegMap) (r : RegName) (new : Byte) : Bool :=
  match r with
  | .setupAw => fieldOf m .aw new == 0
  | .rxPw p => fieldOf m (.rxPwLen p) new > maxPayload
  | _ => false

/-- The store of a plain register: one byte masked (40 R116), or the first bytes of a five-byte register
(R117). -/
def State.storePlain (s : State) (r : RegName) (v : Byte) (data : List Byte) : State :=
  if regWidth r = 5 then { s with regs := setRegBytes s.regs r data }
  else { s with regs := setRegByte s.regs r (s.masked r v) }

/-- A configuration write: not while active (40 R115), not an illegal value (R112), then the store. -/
def writePlain (r : RegName) (addr : RegAddr) (v : Byte) (data : List Byte) (s : State) : Outcome :=
  if s.isActive then raise (.configWriteWhileActive (.reg addr))
  else if illegalValue s.cfg.regMap r (s.masked r v) then raise (.illegalRegisterValue addr v)
  else .next (s.storePlain r v data)

/-- The write of at least one byte to a register of the operating bank (40 R101). -/
def writeReg (r : RegName) (addr : RegAddr) (v : Byte) (data : List Byte) (s : State) : Outcome :=
  match r with
  | .status => .next (s.clearEvents v)
  | .config => writeConfig v s
  | .fifoStatus => .next s
  | .observeTx => .next s
  | .rpd => .next s
  | .feature => if s.featureLocked then .next s else writePlain .feature addr v data s
  | .dynpd => if s.featureLocked then .next s else writePlain .dynpd addr v data s
  | r => writePlain r addr v data s

/-- `tune[addr] <- data` (40 R118). -/
def State.tuneWrite (s : State) (a : RegAddr) (data : List Byte) : State :=
  { s with tune := tuneSet s.tune a.toNat data }

/-- `WREG addr, data` (40 R101). -/
def execWreg (addr : RegAddr) (data : List Byte) (s : State) : Outcome :=
  busAccess (.bus .wreg) s fun t =>
    if t.inTuneBank addr then .next (t.tuneWrite addr data)
    else
      match regAt t.cfg.regMap addr with
      | none => raise (.unimplementedRegister addr)
      | some r =>
        if data.length > regWidth r then raise (.badTransactionLength .wreg data.length)
        else
          match data with
          | [] => .next t
          | v :: _ => writeReg r addr v data t

end Sys2Proof.Machine
end

