-- ==== Sys2Proof/Machine/Dispatch.lean ====
section
/-! DEFINITION. The meaning of each instruction, one arm for each constructor of Instr. -/
namespace Sys2Proof.Machine

def exec (i : Instr) (s : State) : Host.Outcome State Fault Refusal :=
  match i with
  | .rreg addr n => Sys2Proof.Machine.execRreg addr n s
  | .wreg addr data => Sys2Proof.Machine.execWreg addr data s
  | .act data => Sys2Proof.Machine.execAct data s
  | .rplw n => Sys2Proof.Machine.execRplw n s
  | .rrxp n => Sys2Proof.Machine.execRrxp n s
  | .wtxp data => Sys2Proof.Machine.execWtxp data s
  | .wackp p data => Sys2Proof.Machine.execWackp p data s
  | .wtxpna data => Sys2Proof.Machine.execWtxpna data s
  | .fltx n => Sys2Proof.Machine.execFltx n s
  | .flrx n => Sys2Proof.Machine.execFlrx n s
  | .nop n => Sys2Proof.Machine.execNop n s
  | .cel => Sys2Proof.Machine.execCel s
  | .ceh => Sys2Proof.Machine.execCeh s
  | .delay us => Sys2Proof.Machine.execDelay us s
  | .por => Sys2Proof.Machine.execPor s

end Sys2Proof.Machine
end

