-- ==== Sys2Proof/Machine/Driver.lean ====
section
/-! DEFINITION. The host-side operations of spec/44_driver_operations.md as small-step programs: each turn makes
the next host step of the running operation through `exec`, or one of its control steps. -/
namespace Sys2Proof.Machine

/-! ### Host programs -/

/-- The frames of the running program: the interrupt-context pump before the normal context (60 R240, R241). -/
def State.frames (s : State) : List DriverFrame :=
  if s.irqThread.isEmpty then s.thread else s.irqThread

/-- The running program goes on with these frames. -/
def State.setFrames (s : State) (fs : List DriverFrame) : State :=
  if s.irqThread.isEmpty then { s with thread := fs } else { s with irqThread := fs }

/-- The host makes the step `i`; on its next state the program goes on by `k`. -/
def hostStep (i : Instr) (s : State) (k : State → State) : Outcome :=
  match exec i s with
  | .next t => .next (k t)
  | .fault r => .fault r
  | .refused r => .refused r

/-- `RREG` of one byte, by name (30_encoding.md R94, R95). -/
def readReg (m : RegMap) (r : RegName) : Instr := .rreg (addrOf m r) 1

/-- `WREG` of one byte, by name (R94, R95). -/
def writeReg1 (m : RegMap) (r : RegName) (v : Byte) : Instr := .wreg (addrOf m r) [v]

/-- `WREG` of a block, by name (R94, R95). -/
def writeBlock (m : RegMap) (r : RegName) (data : List Byte) : Instr := .wreg (addrOf m r) data

/-- The one byte a read returned. -/
def State.readByte (s : State) : Byte := s.reply.data.headD 0x00

/-! ### Results and flags -/

/-- The operation's result is recorded. -/
def State.result (s : State) (r : OpResult) : State := { s with opResult := some r }

/-- The EventFlags all false (44 R219, 10_state.md R62). -/
def clearedFlags : EventFlags :=
  { dataReceived := false, transmitAcknowledged := false, maxRetriesReached := false }

/-- The pump sets the EventFlags the status byte shows, never clears one (44 R205). -/
def State.setFlags (s : State) (b : Byte) : State :=
  { s with ev :=
      { dataReceived := s.ev.dataReceived || b.getLsbD 6
        transmitAcknowledged := s.ev.transmitAcknowledged || b.getLsbD 5
        maxRetriesReached := s.ev.maxRetriesReached || b.getLsbD 4 } }

/-- `transmit` clears its two flags on entry (44 R208, R211). -/
def State.clearTxFlags (s : State) : State :=
  { s with ev := { s.ev with transmitAcknowledged := false, maxRetriesReached := false } }

/-- What `init` programmed for pipe `p` (44 R212). -/
def PipeTable.get (t : PipeTable) (p : Pipe) : PipeRecord :=
  match p with
  | 0 => t.p0
  | 1 => t.p1
  | 2 => t.p2
  | 3 => t.p3
  | 4 => t.p4
  | 5 => t.p5

/-- Every pipe's record is changed by `f`. -/
def PipeTable.program (t : PipeTable) (f : Pipe → PipeRecord → PipeRecord) : PipeTable :=
  { p0 := f 0 t.p0, p1 := f 1 t.p1, p2 := f 2 t.p2, p3 := f 3 t.p3, p4 := f 4 t.p4, p5 := f 5 t.p5 }

/-! ### Initialisation data (44 R218 to R221) -/

/-- The record passes the validation of R218, which checks the length of the own address only: that a
`pipe1Address` of any length passes is the model's choice (DESIGN CHOICE, log entry 26). -/
def InitRecord.valid (r : InitRecord) : Bool :=
  (!r.ackPayload || r.dynamicPayload) && 3 ≤ r.addrWidth && r.addrWidth ≤ 5 && r.retransmitCount ≤ 15
    && r.channel ≤ 127 && r.ownAddr.length == r.addrWidth

/-- OR of one field per pipe in use: `m` of R219. -/
def pipeMask (m : RegMap) (f : Pipe → Field) (used : List Pipe) : Byte :=
  used.foldl (fun acc p => acc ||| fieldMask m (f p)) 0x00

/-- The default minimum retransmit delay, microseconds (R220, PRESUMED). -/
def minDelayUs : DataRate → Nat → Nat
  | .mbps2, ackLen => if ackLen ≤ 15 then 250 else 500
  | .mbps1, ackLen => if ackLen ≤ 5 then 250 else 500
  | .kbps250, ackLen =>
    if ackLen = 0 then 500 else if ackLen ≤ 8 then 750 else if ackLen ≤ 16 then 1000
    else if ackLen ≤ 24 then 1250 else 1500

/-- `ard` of step 8: at least the minimum, clamped to 0..15 (R220). -/
def InitRecord.ard (r : InitRecord) : Nat :=
  let ackLen := if r.ackPayload then 32 else 0
  let least := (minDelayUs r.rate ackLen + (ardQuantum - 1)) / ardQuantum - 1
  min 15 (max r.retransmitDelay least)

/-- `FEATURE` of steps 6 and 7. -/
def InitRecord.featureByte (m : RegMap) (r : InitRecord) : Byte :=
  if r.dynamicPayload then
    fieldPut m .enDpl 1 ||| (if r.ackPayload then fieldPut m .enAckPay 1 else 0x00)
  else 0x00

/-- `DYNPD` of steps 6 and 7. -/
def InitRecord.dynpdByte (m : RegMap) (r : InitRecord) : Byte :=
  if r.dynamicPayload then pipeMask m .dpl r.pipesInUse else 0x00

/-- What `init` programs for pipe `p` (44 R212, R219 steps 6 and 7; 10_state.md R33): the write of `DYNPD` says of
every pipe whether it is dynamic, in use or not, and a static length is the value the field of `RX_PW` keeps of the
byte sent. A pipe whose `RX_PW` is not written keeps its static length (DESIGN CHOICE, log entry 29). -/
def InitRecord.programPipe (m : RegMap) (r : InitRecord) (p : Pipe) (old : PipeRecord) : PipeRecord :=
  { dynamic := r.dynamicPayload && r.pipesInUse.contains p
    staticLen :=
      if !r.dynamicPayload && r.pipesInUse.contains p then BitVec.ofNat 8 (fieldOf m (.rxPwLen p) r.staticLength)
      else old.staticLen }

/-- Steps (1) to (6) of `init` (R219). Of a `pipe1Address` shorter than the address width the bytes there are are
written, none of an empty one (DESIGN CHOICE, log entry 26). -/
def InitRecord.steps1to6 (m : RegMap) (r : InitRecord) : List Instr :=
  [ writeReg1 m .setupAw (fieldPut m .aw (r.addrWidth - 2)),
    writeBlock m .txAddr (r.ownAddr.take r.addrWidth),
    writeBlock m (.rxAddr 0) (r.ownAddr.take r.addrWidth),
    writeBlock m (.rxAddr 1) (r.pipe1Address.take r.addrWidth),
    writeReg1 m .enRxaddr (pipeMask m .erx r.pipesInUse),
    writeReg1 m .enAa (if r.autoAck then pipeMask m .enaa r.pipesInUse else 0x00) ]
  ++ (if r.dynamicPayload then []
      else r.pipesInUse.map (fun p => writeReg1 m (.rxPw p) r.staticLength))

/-- The rest of step (7) after the read of `FEATURE`, and step (8) (R219). -/
def InitRecord.steps7to8 (c : Params) (r : InitRecord) (feature : Byte) : List Instr :=
  (if feature = 0x00 then [Instr.act [c.magicFeature]] else [])
  ++ [ writeReg1 c.regMap .feature (r.featureByte c.regMap),
       writeReg1 c.regMap .dynpd (r.dynpdByte c.regMap),
       writeReg1 c.regMap .setupRetr (fieldPut c.regMap .ard r.ard ||| fieldPut c.regMap .arc r.retransmitCount) ]

/-- `rateBits` (10_state.md R29, PRESUMED). -/
def rateBits (m : RegMap) : DataRate → Byte
  | .kbps250 => fieldPut m .rfDrLow 1
  | .mbps1 => 0x00
  | .mbps2 => fieldPut m .rfDrHigh 1

/-- `RATE_PWR_MASK` (R219). -/
def ratePwrMask (m : RegMap) : Byte := fieldMask m .rfDrLow ||| fieldMask m .rfDrHigh ||| fieldMask m .rfPwr

/-- The byte of step (9), unrelated bits preserved (R219). -/
def InitRecord.rfSetupByte (m : RegMap) (r : InitRecord) (old : Byte) : Byte :=
  (old &&& ~~~ratePwrMask m) ||| rateBits m r.rate ||| fieldPut m .rfPwr r.pwrBits.toNat

/-- `crcBits` (R221, PRESUMED). -/
def crcBits (m : RegMap) : CrcMode → Byte
  | .off => 0x00
  | .oneByte => fieldPut m .enCrc 1
  | .twoBytes => fieldPut m .enCrc 1 ||| fieldPut m .crco 1

/-- The mask of bit `p` in its byte. -/
def bitMask (p : BitPos) : Byte := 1 <<< p.bit.val

/-- The bytes with bit `p` set or cleared. -/
def putBit (on : Bool) (p : BitPos) (d : List Byte) : List Byte :=
  d.modify p.byte fun b => if on then b ||| bitMask p else b &&& ~~~bitMask p

/-- The bytes of entry `i` as they are sent: reversed for the first nine, as listed for the other five (R224). -/
def calSent (t : CalTable) (i : Fin 14) : List Byte :=
  if i.val < 9 then t.entries[i].bytes.reverse else t.entries[i].bytes

/-- The bytes of the toggled register with its two bits set or cleared (R224). -/
def calToggled (t : CalTable) (on : Bool) : List Byte := putBit on t.bitA (putBit on t.bitB (calSent t t.toggle))

/-- The sixteen writes of `loadCalibration`: the fourteen entries, then the two bits of one of their registers set and
cleared, in the table's order (R224). -/
def calibrationSteps (t : CalTable) : List Instr :=
  List.ofFn (fun i : Fin 14 => Instr.wreg t.entries[i].addr (calSent t i))
  ++ [Instr.wreg t.entries[t.toggle].addr (calToggled t t.setFirst),
      Instr.wreg t.entries[t.toggle].addr (calToggled t !t.setFirst)]

/-! ### Mode operations (44 R214 to R217) -/

/-- The operation returns at once (44 R214, R215). -/
def ModeOp.alreadyThere (op : ModeOp) (d : RadioState) : Bool :=
  match op with
  | .powerUp => d ≠ .powerDown
  | .enterReceive => d = .activeReceive
  | .enterTransmit => false
  | .powerDown => false

/-- The `require` line of R215 and R216, with the name it faults under (R209). -/
def ModeOp.misuse (op : ModeOp) (d : RadioState) : Option OpName :=
  match op with
  | .powerUp => none
  | .enterReceive => if d = .powerDown then some .enterReceiveMode else none
  | .enterTransmit => if d = .powerDown then some .enterTransmitMode else none
  | .powerDown => none

/-- The byte written to `CONFIG` from the byte read. -/
def ModeOp.configByte (op : ModeOp) (m : RegMap) (c : Byte) : Byte :=
  match op with
  | .powerUp => (c &&& ~~~fieldMask m .primRx) ||| fieldPut m .pwrUp 1
  | .enterReceive => c ||| fieldPut m .primRx 1
  | .enterTransmit => c &&& ~~~fieldMask m .primRx
  | .powerDown => c &&& ~~~fieldMask m .pwrUp

/-- The last line of the operation: its last host step, if any, and the driver's new record of the mode. -/
def ModeOp.finish (op : ModeOp) (rest : List DriverFrame) (s : State) : Outcome :=
  match op with
  | .powerUp => hostStep (.delay s.cfg.tPwrup) s fun t => { t with drvState := .standby }.setFrames rest
  | .enterReceive => hostStep .ceh s fun t => { t with drvState := .activeReceive }.setFrames rest
  | .enterTransmit => .next ({ s with drvState := .standby }.setFrames rest)
  | .powerDown => .next ({ s with drvState := .powerDown }.setFrames rest)

/-! ### The steps of a running operation -/

/-- One turn of a wait that goes on: the pump is called in polled mode, and is left to the interrupt context otherwise
(44 R208 step 4, 60 R240). -/
def State.waitOn (s : State) (f : DriverFrame) (rest : List DriverFrame) : State :=
  match s.cfg.pumpCaller with
  | .polled => s.setFrames (.pumpRead :: f :: rest)
  | .interrupt => s

/-- The wait that follows the pulse of `transmit`. A pulse that finds max-retries set starts no burst (43 R200), and
what becomes of its wait is the parameter `staleMaxRt` (70 R270 against 44 R205, R208, R211; log entry 28). -/
def State.waitFrame (s : State) : DriverFrame :=
  if s.maxRt && s.cfg.staleMaxRt == .waitsForEver then .txStuck else .txWait

/-- The wait of `transmit` (44 R208 steps 4 and 5, R210, R211): no timeout. -/
def State.waitStep (s : State) (rest : List DriverFrame) : State :=
  if s.ev.transmitAcknowledged then
    ({ s with drvState := .standby, ev := { s.ev with transmitAcknowledged := false } }.result .success).setFrames rest
  else if s.ev.maxRetriesReached then
    ({ s with drvState := .standby, ev := { s.ev with maxRetriesReached := false } }.result
      .maxRetriesExceeded).setFrames rest
  else s.waitOn .txWait rest

/-- `st[3:1]` when it names a pipe (10_state.md R24, 44 R213 b). -/
def pipeOfStatus (st : Byte) : Option Pipe :=
  if h : (st.extractLsb' 1 3).toNat < 6 then some ⟨(st.extractLsb' 1 3).toNat, h⟩ else none

/-- `receive` looks at the pipe of the next packet (44 R212, R213). -/
def State.probeStep (s : State) (rest : List DriverFrame) : State :=
  match pipeOfStatus s.reply.status with
  | none => (s.result (.received none)).setFrames rest
  | some p =>
    if (s.drvPipes.get p).dynamic then s.setFrames (.rxWidth p :: rest)
    else s.setFrames (.rxRead p (s.drvPipes.get p).staticLen.toNat :: rest)

/-- One step of the frame `f`, with the frames `rest` below it (44 R205 to R224). -/
def runFrame (f : DriverFrame) (rest : List DriverFrame) (s : State) : Outcome :=
  let m := s.cfg.regMap
  match f with
  | .pumpRead =>
    hostStep (readReg m .status) s fun t =>
      if t.readByte = 0x00 then t.setFrames rest else t.setFrames (.pumpClear t.readByte :: rest)
  | .pumpClear b =>
    hostStep (writeReg1 m .status b) s fun t =>
      (t.setFlags b).setFrames (if b.getLsbD 4 then .pumpFlush :: rest else rest)
  | .pumpFlush => hostStep (.fltx 0) s fun t => t.setFrames rest
  | .txStart bytes ackReq =>
    if s.drvState = .powerDown then raise (.driverMisuse .transmit)
    else if s.drvState = .activeReceive then
      .next (s.setFrames (.modeStart .enterTransmit :: .txProbe bytes ackReq :: rest))
    else .next (s.setFrames (.txProbe bytes ackReq :: rest))
  | .txProbe bytes ackReq =>
    hostStep (.nop 0) s.clearTxFlags fun t =>
      if t.reply.status.getLsbD 0 then (t.result .fifoFull).setFrames rest
      else t.setFrames (.txWrite bytes ackReq :: rest)
  | .txWrite bytes ackReq =>
    hostStep (if ackReq then .wtxp bytes else .wtxpna bytes) s fun t =>
      { t with drvState := .activeTransmit }.setFrames (.txRaise :: rest)
  | .txRaise => hostStep .ceh s fun t => t.setFrames (.txHold :: rest)
  | .txHold => hostStep (.delay s.cfg.tCePulse) s fun t => t.setFrames (.txLower :: rest)
  | .txLower => hostStep .cel s fun t => t.setFrames (s.waitFrame :: rest)
  | .txWait => .next (s.waitStep rest)
  | .txStuck => .next (s.waitOn .txStuck rest)
  | .rxStart => .next (s.setFrames (.pumpRead :: .rxCheck :: rest))
  | .rxCheck =>
    if s.ev.dataReceived then
      .next ({ s with ev := { s.ev with dataReceived := false } }.setFrames (.rxProbe :: rest))
    else .next ((s.result (.received none)).setFrames rest)
  | .rxProbe => hostStep (.nop 0) s fun t => t.probeStep rest
  | .rxWidth p =>
    hostStep (.rplw 1) s fun t =>
      if t.readByte.toNat > maxPayload then t.setFrames (.rxDiscard :: rest)
      else t.setFrames (.rxRead p t.readByte.toNat :: rest)
  | .rxDiscard => hostStep (.flrx 0) s fun t => (t.result (.received none)).setFrames rest
  | .rxRead p n => hostStep (.rrxp n) s fun t => t.setFrames (.rxMore p t.reply.data :: rest)
  | .rxMore p buf =>
    hostStep (readReg m .fifoStatus) s fun t =>
      if bitOf m .rxEmpty t.readByte then (t.result (.received (some (p, buf)))).setFrames rest
      else t.setFrames (.rxProbe :: rest)
  | .modeStart op =>
    match op.misuse s.drvState with
    | some name => raise (.driverMisuse name)
    | none =>
      if op.alreadyThere s.drvState then .next (s.setFrames rest) else .next (s.setFrames (.modeLower op :: rest))
  | .modeLower op => hostStep .cel s fun t => t.setFrames (.modeRead op :: rest)
  | .modeRead op => hostStep (readReg m .config) s fun t => t.setFrames (.modeWrite op t.readByte :: rest)
  | .modeWrite op c =>
    hostStep (writeReg1 m .config (op.configByte m c)) s fun t => t.setFrames (.modeFinish op :: rest)
  | .modeFinish op => op.finish rest s
  | .initStart r =>
    if !r.valid then .next ((s.result (.initError .constraintViolation)).setFrames rest)
    else if s.ce ∨ s.isActive then .refused (.preconditionUnmet .init)
    else
      .next ({ s with
          ev := clearedFlags
          drvPipes := s.drvPipes.program (r.programPipe m) }.setFrames
        (.script (r.steps1to6 m) :: .initFeature r :: rest))
  | .initFeature r =>
    hostStep (readReg m .feature) s fun t =>
      t.setFrames (.script (r.steps7to8 s.cfg t.readByte) :: .initRfSetup r :: rest)
  | .initRfSetup r =>
    hostStep (readReg m .rfSetup) s fun t =>
      t.setFrames (.script [ writeReg1 m .rfSetup (r.rfSetupByte m t.readByte),
                             writeReg1 m .rfCh (fieldPut m .rfChannel r.channel) ] :: .initRfCheck r :: rest)
  | .initRfCheck r =>
    hostStep (readReg m .rfCh) s fun t =>
      if t.readByte = fieldPut m .rfChannel r.channel then t.setFrames (.initClear r :: rest)
      else (t.result (.initError .communicationError)).setFrames rest
  | .initClear r =>
    .next (s.setFrames (.script [writeReg1 m .status 0x70, .fltx 0, .flrx 0] :: .initBank r :: rest))
  | .initBank r =>
    .next (s.setFrames
      (match s.cfg.profile with
       | .standard => .initPower r :: rest
       | .dualBankLegacy => .switchBank true :: .calibrate :: .switchBank false :: .initPower r :: rest))
  | .initPower r =>
    .next (s.setFrames
      (.script [.cel, writeReg1 m .config (crcBits m r.crcMode ||| fieldPut m .pwrUp 1), .delay s.cfg.tPwrup]
        :: .initDone :: rest))
  | .initDone => .next (({ s with drvState := .standby }.result .initOk).setFrames rest)
  | .ackPayload p bytes =>
    if s.drvState = .powerDown then raise (.driverMisuse .setAckPayload)
    else if bytes.length > maxPayload then .refused (.preconditionUnmet .setAckPayload)
    else hostStep (.wackp p bytes) s fun t => t.setFrames rest
  | .switchBank b =>
    match s.cfg.profile with
    | .standard => .next (s.setFrames rest)
    | .dualBankLegacy =>
      hostStep (.nop 0) s fun t =>
        if t.reply.status.getLsbD 7 = b then t.setFrames rest
        else t.setFrames (.script [.act [s.cfg.magicBank]] :: rest)
  | .calibrate => .next (s.setFrames (.script (calibrationSteps s.cfg.calTable) :: rest))
  | .script [] => .next (s.setFrames rest)
  | .script (i :: is) => hostStep i s fun t => t.setFrames (.script is :: rest)
  | .finish r => .next ((s.result r).setFrames rest)

/-- The running host program makes its next step; with none running nothing happens. -/
def driverStep (s : State) : Outcome :=
  match s.frames with
  | [] => .next s
  | f :: rest => runFrame f rest s

/-! ### Starting, interrupting, abandoning -/

/-- The frames of a call (44 R205 to R224). `transmit`, `receive` and `init` record their own result; the others
return nothing but that they are done. -/
def DriverCall.frames : DriverCall → List DriverFrame
  | .pump => [.pumpRead, .finish .done]
  | .transmit bytes ackReq => [.txStart bytes ackReq]
  | .receive => [.rxStart]
  | .mode op => [.modeStart op, .finish .done]
  | .init r => [.initStart r]
  | .setAckPayload p bytes => [.ackPayload p bytes, .finish .done]
  | .switchBank b => [.switchBank b, .finish .done]
  | .loadCalibration => [.calibrate, .finish .done]

/-- The application calls an operation: one at a time (00_scope.md R6). -/
def callStep (c : DriverCall) (s : State) : Outcome :=
  if s.thread.isEmpty then .next { s with thread := c.frames, opResult := none }
  else .refused .driverBusy

/-- The frame is the wait of `transmit`, step 4. -/
def DriverFrame.isWait (f : DriverFrame) : Bool := f == .txWait || f == .txStuck

/-- The normal context stands where R241 lets the interrupt in: between operations, or in the wait of
`transmit`. -/
def State.interruptible (s : State) : Bool :=
  match s.thread with
  | [] => true
  | f :: _ => f.isWait

/-- The interrupt callback is entered when it may be: interrupt mode, line low, a point of R241, and not nested
(60 R240, R241, R244). -/
def State.irqStep (s : State) : State :=
  if s.cfg.pumpCaller == .interrupt && !s.irqLine && s.irqThread.isEmpty && s.interruptible then
    { s with irqThread := [.pumpRead] }
  else s

/-- The caller gives up a `transmit` that is waiting; the burst goes on in the chip and the operation has no
result (44 R210, 42 R159). `drv.state` is ActiveTransmit only inside `transmit`, so it leaves it as the end of the
wait does (44 R209; log entry 15). -/
def State.abandonStep (s : State) : State :=
  match s.thread with
  | f :: _ => if f.isWait then { s with thread := [], opResult := none, drvState := .standby } else s
  | [] => s

end Sys2Proof.Machine
end

