-- ==== Sys2Proof/Machine/Sequencer.lean ====
section
/-! DEFINITION. The sequencer's own steps and the answers of Air (spec/43_sequencer.md). None of them can fault;
a step that is not enabled leaves the state as it is (R175). -/
namespace Sys2Proof.Machine

/-- The sequencer may have a step at all: powered and settled (43 R175; 42 R165). -/
def State.running (s : State) : Bool := s.bit .pwrUp && s.settleUs == 0

/-! ### Transmit side -/

/-- The pin or the latched trigger asks for a burst (43 R178). -/
def State.triggered (s : State) : Bool :=
  s.txTrigger || (s.ce && s.ceHighUs ≥ s.cfg.tCePulse)

/-- `StartBurst` is enabled (43 R178, R179, R200). -/
def State.canStart (s : State) : Bool :=
  s.running && !s.bit .primRx && s.seq == .idle && s.sendable && s.triggered

/-- `StartBurst` (43 R178). -/
def State.startBurst (s : State) : State :=
  { s with seq := .txOnAir 0, retry := 0, txTrigger := false, pulseUsed := true }

/-- `expectsAck(e)` (43 R181). -/
def State.expectsAck (s : State) (e : TxEntry) : Bool := e.ackReq && s.bit (.enaa 0)

/-- The burst ends well: `cur` leaves, data-sent is set (43 R183, R185). -/
def State.completeBurst (s : State) : State :=
  { s.removeCur with txDs := true, seq := .idle, retry := 0 }

/-- The packet an attempt puts on the air (43 R180). -/
def State.attemptPacket (s : State) (e : TxEntry) : AirPacket :=
  { addr := s.txAddrBytes, bytes := e.bytes, noAck := !e.ackReq, id := { sender := 0, serial := e.id } }

/-- `EndAttempt` of attempt `n` with current entry `e` (43 R180, R181, R183). -/
def State.endAttempt (s : State) (n : Nat) (e : TxEntry) : State :=
  if s.expectsAck e then { s.emit (.packet (s.attemptPacket e)) with seq := .awaitAck n }
  else (s.emit (.packet (s.attemptPacket e))).completeBurst

/-- One step of the sequencer by itself: `StartBurst` or `EndAttempt`, whichever is enabled. -/
def State.sequencerStep (s : State) : State :=
  if s.canStart then s.startBurst
  else
    match s.seq, s.cur with
    | .txOnAir n, some e => if s.running then s.endAttempt n e else s
    | _, _ => s

/-- `sequencerStep` has something to do. -/
def State.sequencerEnabled (s : State) : Bool :=
  s.canStart ||
    (match s.seq, s.cur with
     | .txOnAir _, some _ => s.running
     | _, _ => false)

/-- `ackpay_on()` (43 R194). -/
def State.ackpayOn (s : State) : Bool := !s.featureLocked && s.bit .enAckPay && s.bit .enDpl

/-- `Ack` is admissible: the acknowledgment can be recognised (43 R184). -/
def State.ackAdmissible (s : State) : Bool := s.effAddr 0 == s.txAddrBytes && s.bit (.erx 0)

/-- The RX entry of a packet received whole. -/
def rxEntry (p : Pipe) (bytes : List Byte) : RxEntry :=
  { pipe := p, bytes := bytes, wid := BitVec.ofNat 8 bytes.length }

/-- An acknowledgment payload that arrived is taken into the RX FIFO on pipe 0 (43 R185). -/
def State.takeAckPayload (s : State) (payload : Option (List Byte)) : State :=
  match payload with
  | some bytes => if s.ackpayOn && !s.rxFull then s.pushRx (rxEntry 0 bytes) else s
  | none => s

/-- The payload of an acknowledgment is a packet of at most 32 bytes (43 R177). -/
def payloadOk (payload : Option (List Byte)) : Bool :=
  match payload with
  | some bytes => bytes.length ≤ maxPayload
  | none => true

/-- `AckArrived` (43 R184, R185). -/
def State.ackStep (s : State) (payload : Option (List Byte)) : State :=
  match s.seq with
  | .awaitAck _ =>
    if s.running && s.ackAdmissible && payloadOk payload then s.completeBurst.takeAckPayload payload else s
  | .idle => s
  | .txOnAir _ => s

/-- `AckTimeout`: a retransmission while the budget lasts, max-retries after it (43 R186, R187). -/
def State.timeoutStep (s : State) : State :=
  match s.seq with
  | .awaitAck n =>
    if s.running then
      if n < s.field .arc then { s with retry := n + 1, seq := .txOnAir (n + 1) }
      else { s with maxRt := true, seq := .idle, retry := 0 }
    else s
  | .idle => s
  | .txOnAir _ => s

/-! ### Receive side -/

/-- The receive side may have a step (43 R189). -/
def State.receiving (s : State) : Bool := s.mode == .activeReceive && s.settleUs == 0

/-- Pipe `p` is enabled and its address is the frame's (43 R190). -/
def State.pipeMatches (s : State) (k : AirPacket) (p : Pipe) : Bool :=
  s.bit (.erx p) && k.addr == s.effAddr p

/-- `match(k)`: the lowest matching pipe (43 R190). -/
def State.pipeOf (s : State) (k : AirPacket) : Option Pipe :=
  [0, 1, 2, 3, 4, 5].find? (fun p => s.pipeMatches k p)

/-- `dyn(p)` (43 R191). -/
def State.dynamicPipe (s : State) (p : Pipe) : Bool :=
  !s.featureLocked && s.bit .enDpl && s.bit (.dpl p)

/-- `admitted(k)` on pipe `p` (43 R191). -/
def State.admitted (s : State) (k : AirPacket) (p : Pipe) : Bool :=
  s.dynamicPipe p || k.bytes.length == s.field (.rxPwLen p)

/-- The frame is to be acknowledged on pipe `p` (43 R192, R193, R195, R197). -/
def State.acknowledges (s : State) (k : AirPacket) (p : Pipe) : Bool := s.bit (.enaa p) && !k.noAck

/-- An acknowledgment without payload is emitted (43 R193). -/
def State.emitAck (s : State) (p : Pipe) (payload : Option (List Byte)) : State :=
  s.emit (.ack { addr := s.effAddr p, payload := payload })

/-- The queued acknowledgment payload that rides on the next acknowledgment on pipe `p` (43 R194). -/
def State.ackPayloadFor (s : State) (p : Pipe) : Option TxEntry :=
  if s.ackpayOn then s.txf.find? (TxEntry.isAckFor p) else none

/-- The acknowledgment of a new packet, with the queued payload if there is one: the payload leaves the TX FIFO
and data-sent is set (43 R193, R194, R196), max-retries set or not: R201 [derived], which has the two bits coexist only
as a stale data-sent followed by max-retries, leaves R196 out of its count (DEDUCED, log entry 31). -/
def State.acknowledgeNew (s : State) (p : Pipe) : State :=
  match s.ackPayloadFor p with
  | some e => { s.emitAck p (some e.bytes) with txf := s.txf.eraseP (TxEntry.isAckFor p), txDs := true }
  | none => s.emitAck p none

/-- The accepted frame is stored and its identity remembered (43 R192). -/
def State.storeFrame (s : State) (k : AirPacket) (p : Pipe) : State :=
  { s.pushRx (rxEntry p k.bytes) with lastRxId := some k.id }

/-- `Accept` on pipe `p` (43 R192). -/
def State.accept (s : State) (k : AirPacket) (p : Pipe) : State :=
  if s.acknowledges k p then (s.storeFrame k p).acknowledgeNew p else s.storeFrame k p

/-- `AcceptDuplicate` on pipe `p` (43 R195). -/
def State.acceptDuplicate (s : State) (k : AirPacket) (p : Pipe) : State :=
  if s.acknowledges k p then s.emitAck p none else s

/-- `DropFull` on pipe `p` (43 R197). -/
def State.dropFull (s : State) (k : AirPacket) (p : Pipe) : State :=
  if s.cfg.ackWhenRxFull && s.acknowledges k p then s.emitAck p none else s

/-- Air offers a frame (43 R189 to R197): the duplicate check comes before the check for a full FIFO. A frame of
more than 32 bytes is no `AirPacket` (R177). -/
def State.offerStep (s : State) (k : AirPacket) : State :=
  if s.receiving && k.bytes.length ≤ maxPayload then
    match s.pipeOf k with
    | none => s
    | some p =>
      if !s.admitted k p then s
      else if s.lastRxId == some k.id then s.acceptDuplicate k p
      else if s.rxFull then s.dropFull k p
      else s.accept k p
  else s

/-- The entry of a framing error: free bytes, a free width of 33 to 255 (43 R198, 41 R142). -/
def State.framingEntry (s : State) (p : Pipe) : RxEntry :=
  { pipe := p
    bytes := s.drawnBytes (Config.drawLength s.draws).val
    wid := BitVec.ofNat 8 (33 + (Config.drawExcess s.draws).val) }

/-- `FramingError` on pipe `p` (43 R198). -/
def State.framingStep (s : State) (p : Pipe) : State :=
  if s.cfg.allowBadWidth && s.receiving && !s.rxFull && s.bit (.erx p) && s.dynamicPipe p then
    (s.pushRx (s.framingEntry p)).drew ((Config.drawLength s.draws).val + 1)
  else s

end Sys2Proof.Machine
end

