-- ==== Sys2Proof/Machine/Agents.lean ====
section
/-! DEFINITION. One turn of one agent (spec/00_scope.md R5, 20_memory.md R76), and what happens when no turn is
listed. -/
namespace Sys2Proof.Machine

/-- A frame with no instruction: after the checks that come before decoding, the fault of R89 (40 R102). -/
def undecoded (e : DecodeError) (s : State) : Outcome :=
  match e with
  | .reservedCommand b => busAccess (.reserved b) s fun _ => raise (.reservedCommand b)
  | .noCommandByte => unlessFaulted s .next

/-- The host puts a frame on its ports (30_encoding.md R83, R93). -/
def hostFrame (f : HostFrame) (s : State) : Outcome :=
  match decode f with
  | .ok i => exec i s
  | .error e => undecoded e s

/-- One turn. -/
def runTurn (t : Turn) (s : State) : Outcome :=
  match t with
  | .host f => hostFrame f s
  | .call c => callStep c s
  | .driver => driverStep s
  | .irq => .next s.irqStep
  | .abandon => .next s.abandonStep
  | .sequencer => .next s.sequencerStep
  | .ack payload => .next (s.ackStep payload)
  | .timeout => .next s.timeoutStep
  | .offer k => .next (s.offerStep k)
  | .framing p => .next (s.framingStep p)

/-- No turn is listed: the block goes on by itself if it can, else the running host program does. -/
def idleStep (s : State) : Outcome :=
  if s.sequencerEnabled then .next s.sequencerStep else driverStep s

/-- The turn is one of the host's normal context (60 R246): a raw host step, a call, or giving up a wait. `POR` is the
supply's event (30_encoding.md R93) and "may occur in any state" (70 R255), so it is none of them and comes between two
steps of the interrupt-context pump too (DESIGN CHOICE against 60 R240, log entry 34). -/
def Turn.isNormalContext : Turn → Bool
  | .host (.bus _ _) => true
  | .host (.pin _) => true
  | .host (.delay _) => true
  | .host .por => false
  | .call _ => true
  | .abandon => true
  | .driver => false
  | .irq => false
  | .sequencer => false
  | .ack _ => false
  | .timeout => false
  | .offer _ => false
  | .framing _ => false

/-- The interrupt-context pump runs "to completion as one uninterrupted sequence of host steps" (60 R240): no turn
of the normal context is taken before it has. -/
def State.holdsBack (s : State) (t : Turn) : Bool := !s.irqThread.isEmpty && t.isNormalContext

/-- The next turn is taken from the agenda, unless the interrupt-context pump holds it back: then the pump makes its
next step and the turn stays. From a faulted state no agent has a turn (60 R233). -/
def nextTurn (s : State) : Outcome :=
  unlessFaulted s fun s =>
    match s.agenda with
    | [] => idleStep s
    | t :: rest => if s.holdsBack t then driverStep s else runTurn t { s with agenda := rest }

/-- The state in which the next turn is the host's, with this frame. A bus command is not even decoded before the
block has settled (40 R102), so the settling is over. -/
def State.placeFrame (s : State) (f : HostFrame) : State :=
  match f with
  | .bus _ _ => { s with agenda := .host f :: s.agenda, settleUs := 0 }
  | .pin _ => { s with agenda := .host f :: s.agenda }
  | .delay _ => { s with agenda := .host f :: s.agenda }
  | .por => { s with agenda := .host f :: s.agenda }

end Sys2Proof.Machine
end

