-- ==== Sys2Proof/Machine/Step.lean ====
section
/-! DEFINITION. One step of the machine: the next turn of the agenda. -/
namespace Sys2Proof.Machine

/-- One atomic step of one agent (spec/20_memory.md R76). -/
def step (s : State) : Host.Outcome State Fault Refusal := nextTurn s

/-- `s` with the instruction of a table word as the host's next step. -/
def State.withFetchWord (s : State) (nbits w : Nat) : State := s.placeFrame (tableFrame nbits w)

end Sys2Proof.Machine
end

