-- ==== Sys2Proof/Machine/Composition.lean ====
section
/-! DEFINITION. Two instances on one channel (spec/43_sequencer.md R203): Air may lose and delay what they emit,
and delivers nothing else. -/
namespace Sys2Proof.Machine

/-- The two instances. -/
inductive Side where
  | a | b
  deriving DecidableEq, Repr

/-- The peer. -/
def Side.peer : Side → Side
  | .a => .b
  | .b => .a

/-- The sender number of R203's pairing; 0 is an instance by itself. -/
def Side.number : Side → Nat
  | .a => 1
  | .b => 2

/-- An emitted packet not yet offered: the sender, its attempt number, the frame. -/
structure PacketFlight where
  sender  : Side
  attempt : Nat
  frame   : AirPacket
  deriving DecidableEq, Repr

/-- An emitted acknowledgment not yet delivered: who awaits it, the attempt it answers, the frame. -/
structure AckFlight where
  receiver : Side
  attempt  : Nat
  frame    : AckFrame
  deriving DecidableEq, Repr

/-- Two instances and what is on the air between them. -/
structure Pair where
  a         : State
  b         : State
  attemptsA : Nat
  attemptsB : Nat
  packets   : List PacketFlight
  acks      : List AckFlight
  deriving DecidableEq, Repr

/-- The instance of a side. -/
def Pair.inst (w : Pair) : Side → State
  | .a => w.a
  | .b => w.b

/-- The number of attempts a side has put on the air. -/
def Pair.attempts (w : Pair) : Side → Nat
  | .a => w.attemptsA
  | .b => w.attemptsB

/-- The instance of a side is now `s`. -/
def Pair.setInst (w : Pair) (x : Side) (s : State) : Pair :=
  match x with
  | .a => { w with a := s }
  | .b => { w with b := s }

/-- One more attempt of a side. -/
def Pair.countAttempt (w : Pair) (x : Side) : Pair :=
  match x with
  | .a => { w with attemptsA := w.attemptsA + 1 }
  | .b => { w with attemptsB := w.attemptsB + 1 }

/-- The instances share a channel: equal channel, data rate and address width (43 R203; 10_state.md R28, R29). The
data rates are compared as the two bits of `RF_SETUP`, so the code (1,1), which R29 gives no rate, equals itself only
(DESIGN CHOICE, log entry 27). -/
def Pair.sharesChannel (w : Pair) : Bool :=
  w.a.field .rfChannel == w.b.field .rfChannel && w.a.field .rfDrLow == w.b.field .rfDrLow
    && w.a.field .rfDrHigh == w.b.field .rfDrHigh && w.a.aw == w.b.aw

/-- What happens next in the composition. -/
inductive PairEvent where
  /-- An agent of one instance has a turn: the host, the driver, the sequencer, a timeout, a framing error. -/
  | turn (x : Side) (t : Turn)
  /-- The i-th packet in flight is offered to the peer. -/
  | deliver (i : Nat)
  /-- The i-th packet in flight is lost. -/
  | lose (i : Nat)
  /-- The i-th acknowledgment in flight reaches the instance that awaits it. -/
  | answer (i : Nat)
  /-- The i-th acknowledgment in flight is lost. -/
  | loseAck (i : Nat)
  deriving DecidableEq, Repr

/-- What the instance emitted in the step from `s` to `t`. -/
def newEmissions (s t : State) : List Emission := t.emitted.drop s.emitted.length

/-- The packets of an instance's step go on the air, tagged with their sender and attempt. -/
def Pair.launch (w : Pair) (x : Side) : List Emission → Pair
  | [] => w
  | .packet k :: rest =>
    Pair.launch
      { w.countAttempt x with
        packets := w.packets ++
          [{ sender := x, attempt := w.attempts x + 1,
             frame := { k with id := { sender := x.number, serial := k.id.serial } } }] }
      x rest
  | .ack _ :: rest => w.launch x rest

/-- The acknowledgments of a step that was offered attempt `n` of side `x` go on the air. -/
def Pair.launchAcks (w : Pair) (x : Side) (n : Nat) : List Emission → Pair
  | [] => w
  | .ack f :: rest =>
    Pair.launchAcks { w with acks := w.acks ++ [{ receiver := x, attempt := n, frame := f }] } x n rest
  | .packet _ :: rest => w.launchAcks x n rest

/-- The turn is one Air does not own in the composition. -/
def Turn.isLocal : Turn → Bool
  | .ack _ => false
  | .offer _ => false
  | .host _ => true
  | .call _ => true
  | .driver => true
  | .irq => true
  | .abandon => true
  | .sequencer => true
  | .timeout => true
  | .framing _ => true

/-- The state of an instance after a turn; a faulted instance has none (60 R233). -/
def afterTurn (t : Turn) (s : State) : State := s.afterOutcome (unlessFaulted s (runTurn t))

/-- One event of the composition; none when the event is not admissible (43 R203). That the channel is shared is
asked when a packet is delivered and when an acknowledgment is answered, not when they are emitted (DESIGN CHOICE, log
entry 30). A turn that is refused is admissible and leaves its instance as it is (DESIGN CHOICE, log entry 33). -/
def pairStep (e : PairEvent) (w : Pair) : Option Pair :=
  match e with
  | .turn x t =>
    if t.isLocal && !(w.inst x).holdsBack t then
      some ((w.setInst x (afterTurn t (w.inst x))).launch x (newEmissions (w.inst x) (afterTurn t (w.inst x))))
    else none
  | .deliver i =>
    match w.packets[i]? with
    | none => none
    | some p =>
      if w.sharesChannel then
        let y := p.sender.peer
        let s := w.inst y
        let t := afterTurn (.offer p.frame) s
        some (({ w with packets := w.packets.eraseIdx i }.setInst y t).launchAcks p.sender p.attempt
          (newEmissions s t))
      else none
  | .lose i =>
    match w.packets[i]? with
    | none => none
    | some _ => some { w with packets := w.packets.eraseIdx i }
  | .answer i =>
    match w.acks[i]? with
    | none => none
    | some f =>
      if w.sharesChannel && f.attempt == w.attempts f.receiver
          && f.frame.addr == (w.inst f.receiver).txAddrBytes then
        some ({ w with acks := w.acks.eraseIdx i }.setInst f.receiver
          (afterTurn (.ack f.frame.payload) (w.inst f.receiver)))
      else none
  | .loseAck i =>
    match w.acks[i]? with
    | none => none
    | some _ => some { w with acks := w.acks.eraseIdx i }

end Sys2Proof.Machine
end

