-- ==== Sys2Proof/Safety.lean ====
section
/-! DEFINITION. What claims are stated in: when a host step is admitted, which parameter values are legal, and the
invariant of the machine. -/
namespace Sys2Proof.Machine

/-- No fault is recorded and the block is settled: the conditions every bus command needs
(spec/40_register_commands.md R102). -/
structure State.Ready (s : State) : Prop where
  unfaulted : s.fault = none
  settled   : s.settleUs = 0

/-- The reserved command bytes (30_encoding.md R89). -/
def reservedByte (b : Byte) : Bool :=
  (0x40 ≤ b && b ≤ 0x4F) || (0x51 ≤ b && b ≤ 0x5F) || (0x62 ≤ b && b ≤ 0x9F) || (0xA1 ≤ b && b ≤ 0xA7)
    || (0xB1 ≤ b && b ≤ 0xE0) || (0xE3 ≤ b && b ≤ 0xFE) || b == 0xAE || b == 0xAF

/-- The bus command an instruction is, none for a host event (R87, R93). -/
def busCmdOf : Instr → Option BusCmd
  | .rreg _ _ => some .rreg
  | .wreg _ _ => some .wreg
  | .act _ => some .act
  | .rplw _ => some .rplw
  | .rrxp _ => some .rrxp
  | .wtxp _ => some .wtxp
  | .wackp _ _ => some .wackp
  | .wtxpna _ => some .wtxpna
  | .fltx _ => some .fltx
  | .flrx _ => some .flrx
  | .nop _ => some .nop
  | .cel => none
  | .ceh => none
  | .delay _ => none
  | .por => none

/-- All register names (10_state.md R20). -/
def allRegNames : List RegName :=
  [.config, .enAa, .enRxaddr, .setupAw, .setupRetr, .rfCh, .rfSetup, .status, .observeTx, .rpd, .rxAddr 0, .rxAddr 1,
   .rxAddr 2, .rxAddr 3, .rxAddr 4, .rxAddr 5, .txAddr, .rxPw 0, .rxPw 1, .rxPw 2, .rxPw 3, .rxPw 4, .rxPw 5,
   .fifoStatus, .dynpd, .feature]

/-- The plain one-byte registers (40 R116). -/
def plainByteRegs : List RegName :=
  [.enAa, .enRxaddr, .setupAw, .setupRetr, .rfCh, .rfSetup, .rxAddr 2, .rxAddr 3, .rxAddr 4, .rxAddr 5, .rxPw 0,
   .rxPw 1, .rxPw 2, .rxPw 3, .rxPw 4, .rxPw 5]

/-- The one-byte stored registers (10_state.md R20). -/
def storedByteRegs : List RegName :=
  [.config, .enAa, .enRxaddr, .setupAw, .setupRetr, .rfCh, .rfSetup, .rxAddr 2, .rxAddr 3, .rxAddr 4, .rxAddr 5,
   .rxPw 0, .rxPw 1, .rxPw 2, .rxPw 3, .rxPw 4, .rxPw 5, .dynpd, .feature]

/-- The stored registers are legal under a register map: reserved bits are 0 (10_state.md R19), the address width
code is not 0 (R26), the static widths are at most 32 (R33). -/
structure LegalRegs (m : RegMap) (x : Regs) : Prop where
  reserved  : ∀ r ∈ storedByteRegs, regByte x r &&& implemented m r = regByte x r
  addrWidth : fieldOf m .aw x.setupAw ≠ 0
  rxWidths  : ∀ p : Pipe, fieldOf m (.rxPwLen p) (regByte x (.rxPw p)) ≤ maxPayload

/-- The constraints on the parameters: every register name has its address (10_state.md R20), distinct magic bytes
(41 R143), a pipe code that names no pipe (92 D10), an address width code of two bits and a retransmit count of four
(10_state.md R26, R27), a calibration table that fits 44 R224, legal reset values with the power bit clear (R60). -/
structure LegalParams (c : Params) : Prop where
  names     : ∀ r ∈ allRegNames, regAt c.regMap (addrOf c.regMap r) = some r
  magic     : c.magicBank ≠ c.magicFeature
  emptyCode : 6 ≤ c.pipeEmptyCode.toNat
  awBits    : sliceWidth (fieldPos c.regMap .aw) = 2
  arcBits   : sliceWidth (fieldPos c.regMap .arc) ≤ 4
  calTable  : c.calTable.Ok c.regMap
  resetRegs : LegalRegs c.regMap c.resetVals
  resetOff  : bitOf c.regMap .pwrUp c.resetVals.config = false

/-- What holds while attempt `n` of a burst is under way: powered, settled, transmit direction, max-retries clear,
a data packet queued, no latched trigger, and the retry count within the budget (42 R150, 43 R178, R186, R200). -/
structure State.InBurst (s : State) (n : Nat) : Prop where
  powered   : s.bit .pwrUp = true
  transmit  : s.bit .primRx = false
  settled   : s.settleUs = 0
  noMaxRt   : s.maxRt = false
  hasCur    : s.cur.isSome
  noTrigger : s.txTrigger = false
  retries   : s.retry = n
  budget    : n ≤ s.field .arc

/-- The sequencer phase agrees with the rest of the state (10_state.md R42, R43). -/
def State.PhaseOk (s : State) : Prop :=
  match s.seq with
  | .idle => s.retry = 0
  | .txOnAir n => s.InBurst n
  | .awaitAck n => s.InBurst n

/-- An RX entry: at most 32 bytes, its width their number or the mark of a framing error (10_state.md R41, 41
R142). -/
def RxEntry.Ok (e : RxEntry) : Prop :=
  e.bytes.length ≤ maxPayload ∧ (e.wid.toNat = e.bytes.length ∨ 33 ≤ e.wid.toNat)

/-- The invariant of the machine. -/
structure State.Inv (s : State) : Prop where
  /-- The parameters are legal. -/
  params    : LegalParams s.cfg
  /-- The registers are legal. -/
  registers : LegalRegs s.cfg.regMap s.regs
  /-- The FIFOs hold at most three entries (43 R199). -/
  txDepth   : s.txf.length ≤ fifoDepth
  rxDepth   : s.rxf.length ≤ fifoDepth
  /-- Every entry is a packet of at most 32 bytes. -/
  txEntries : ∀ e ∈ s.txf, e.bytes.length ≤ maxPayload
  rxEntries : ∀ e ∈ s.rxf, e.Ok
  /-- Identities are fresh and rise along the queue (10_state.md R46). -/
  txIds     : s.txf.Pairwise (fun e f => e.id < f.id)
  txFresh   : ∀ e ∈ s.txf, e.id < s.nextId
  /-- The phase agrees with the rest. -/
  phase     : s.PhaseOk
  /-- A latched trigger waits in the powered, settled transmit direction (42 R158). -/
  trigger   : s.txTrigger = true → s.seq = .idle ∧ s.bit .pwrUp = true ∧ s.bit .primRx = false ∧ s.settleUs = 0
  /-- The second bank exists on DualBankLegacy only (10_state.md R37). -/
  oneBank   : s.cfg.profile = .standard → s.bank = false
  /-- The tuning bank is in canonical form. -/
  tuneOk    : tuneWf s.tune

/-! ### The host side -/

/-- The host program of a context: the interrupt context's or the normal context's (60_exceptions.md R246). -/
def State.program (s : State) (irq : Bool) : List DriverFrame := if irq then s.irqThread else s.thread

/-- A step of `transmit` between its payload write and the end of its wait (44 R209). -/
def DriverFrame.InTransmit (f : DriverFrame) : Prop := f ∈ [.txRaise, .txHold, .txLower, .txWait, .txStuck]

/-- A step of the event pump (44 R205). -/
def DriverFrame.OfPump (f : DriverFrame) : Prop := f = .pumpRead ∨ (∃ b, f = .pumpClear b) ∨ f = .pumpFlush

/-- The laws of the host side. -/
structure State.HostOk (s : State) : Prop where
  /-- ActiveTransmit is the driver's record only inside `transmit` (44 R209, 90 C11). -/
  record : s.drvState = .activeTransmit → ∃ f ∈ s.thread, f.InTransmit
  /-- The interrupt context runs nothing but the pump (60 R240). -/
  pump   : ∀ f ∈ s.irqThread, f.OfPump
  /-- It runs in interrupt mode, at a point the normal context may be interrupted at (60 R240, R241). -/
  point  : s.irqThread ≠ [] →
    s.cfg.pumpCaller = .interrupt ∧ (s.thread = [] ∨ ∃ f rest, s.thread = f :: rest ∧ (f = .txWait ∨ f = .txStuck))

/-! ### The composition -/

/-- The packets among what an instance emitted, in order. -/
def packetsOf (es : List Emission) : List AirPacket :=
  es.filterMap fun
    | .packet k => some k
    | .ack _ => none

/-- The acknowledgments among what an instance emitted, in order. -/
def acksOf (es : List Emission) : List AckFrame :=
  es.filterMap fun
    | .packet _ => none
    | .ack f => some f

/-! ### Bursts -/

/-- Air's answer to an awaited acknowledgment (43 R176). -/
inductive Answer where
  | ack (payload : Option (List Byte))
  | timeout
  deriving DecidableEq, Repr

/-- The answer is given; an `Ack` that is not admissible can only be a `Timeout` (43 R184). -/
def State.answered (s : State) : Answer → State
  | .ack payload => if s.ackAdmissible && payloadOk payload then s.ackStep payload else s.timeoutStep
  | .timeout => s.timeoutStep

/-- A burst runs on: the attempt on the air ends and its acknowledgment, if one is awaited, is answered; a burst
that has ended stays so. -/
def burst : List Answer → State → State
  | [], s => s
  | a :: rest, s => if s.seq = .idle then s else burst rest (s.sequencerStep.answered a)

/-- What an instruction leaves alone whatever it is: the parameters, the host side, the frames on the air and the
turns to come. -/
structure SameHostSide (s t : State) : Prop where
  cfg       : t.cfg = s.cfg
  fault     : t.fault = s.fault
  ev        : t.ev = s.ev
  drvState  : t.drvState = s.drvState
  drvPipes  : t.drvPipes = s.drvPipes
  thread    : t.thread = s.thread
  irqThread : t.irqThread = s.irqThread
  opResult  : t.opResult = s.opResult
  emitted   : t.emitted = s.emitted
  agenda    : t.agenda = s.agenda

end Sys2Proof.Machine
end

