-- ==== Sys2Proof/Certificates/Slice0/Obligations.lean ====
section
/-! DEFINITION. The statements for the provers. Each docstring names the rule of spec/ it formalises. Register
addresses are never literal: a statement speaks of the register an address names under the machine's own register
map (spec/10_state.md R20), and holds for every map. -/

open Sys2Proof Sys2Proof.Machine

/-! ### Encoding (30_encoding.md) -/

/-- Decoding the encoding of an instruction gives it back, whatever its operands (R84, R86, R87, R93). -/
def Obligations.DecodeOfEncode : Prop :=
  ∀ i : Instr, decode (encode i) = .ok i

/-- A few words written out from R87, one for each command, and the host events of R93. -/
def Obligations.SampleWordsDecode : Prop :=
  decode (.bus 0b00000111 [0x00]) = .ok (.rreg 0x07 1) ∧
  decode (.bus 0b00111101 [0x06]) = .ok (.wreg 0x1D [0x06]) ∧
  decode (.bus 0b01010000 [0x73]) = .ok (.act [0x73]) ∧
  decode (.bus 0b01100000 [0x00]) = .ok (.rplw 1) ∧
  decode (.bus 0b01100001 [0x00, 0x00]) = .ok (.rrxp 2) ∧
  decode (.bus 0b10100000 [0x01, 0x02]) = .ok (.wtxp [0x01, 0x02]) ∧
  decode (.bus 0b10101101 [0x99]) = .ok (.wackp 5 [0x99]) ∧
  decode (.bus 0b10110000 []) = .ok (.wtxpna []) ∧
  decode (.bus 0b11100001 []) = .ok (.fltx 0) ∧
  decode (.bus 0b11100010 []) = .ok (.flrx 0) ∧
  decode (.bus 0b11111111 []) = .ok (.nop 0) ∧
  decode (.pin false) = .ok .cel ∧ decode (.pin true) = .ok .ceh

/-- R89: exactly the 178 listed bytes have no command, whatever data follow, and on a settled machine with no fault
such a byte raises `ReservedCommand`. -/
def Obligations.ReservedBytesFault : Prop :=
  (∀ (b : Byte) (data : List Byte), decode (.bus b data) = .error (.reservedCommand b) ↔ reservedByte b = true) ∧
  ((List.range 256).filter (fun n => reservedByte (BitVec.ofNat 8 n))).length = 178 ∧
  ∀ (s : State) (b : Byte) (data : List Byte), s.Ready → reservedByte b = true →
    hostFrame (.bus b data) s = .fault (.reservedCommand b)

/-- R88 (the spec marks it derived): the rows of the opcode map do not overlap, so a row that selects a byte is the
row the decoder takes, in whatever order the rows are tested. -/
def Obligations.OpcodeRowsDisjoint : Prop :=
  ∀ (r : OpcodeRow) (b : Byte) (rows : List OpcodeRow), rows.Perm opcodeRows → r ∈ rows → r.selects b = true →
    (rows.find? (fun q => q.selects b)).map OpcodeRow.cmd = some r.cmd ∧ commandOf b = some r.cmd

/-! ### The step -/

/-- When the next turn is the host's and its frame decodes, the step is that instruction's meaning, on the state
without that turn; while the interrupt-context pump runs, its next step comes first and the turn waits (60 R240, log
entry 1), but for a `POR` (70 R255, log entry 34). -/
def Obligations.StepRunsDecoded : Prop :=
  ∀ (s : State) (f : HostFrame) (rest : List Turn) (i : Instr),
    s.fault = none → s.agenda = .host f :: rest → decode f = .ok i →
      (s.irqThread = [] ∨ f = .por → step s = exec i { s with agenda := rest }) ∧
      (s.irqThread ≠ [] → f ≠ .por → step s = driverStep s)

/-- R233: from a faulted state no agent has a step, `POR` included; R232: the first reason is kept, and a raise
changes nothing but the fault record. -/
def Obligations.FaultIsFinal : Prop :=
  (∀ (s : State) (r : Fault), s.fault = some r →
    step s = .fault r ∧ (∀ i, exec i s = .fault r) ∧ (∀ f, hostFrame f s = .fault r) ∧
    (∀ q, s.recordFault q = s)) ∧
  ∀ (s : State) (r : Fault), s.fault = none → s.afterOutcome (.fault r) = { s with fault := some r }

/-- 40 R102 check (2), 42 R152, R165: while the settling lasts every bus command, every reserved byte and a `CEH`
that would raise the pin fault; `DELAY`, `CEL` and `POR` are admitted. -/
def Obligations.SettlingAdmission : Prop :=
  ∀ s : State, s.fault = none → 0 < s.settleUs →
    (∀ i c, busCmdOf i = some c → exec i s = .fault (.accessDuringSettling (.bus c))) ∧
    (∀ b data, reservedByte b = true →
      hostFrame (.bus b data) s = .fault (.accessDuringSettling (.reserved b))) ∧
    (s.ce = false → s.bit .pwrUp = true → exec .ceh s = .fault (.accessDuringSettling .ceh)) ∧
    (∀ us, ∃ t, exec (.delay us) s = .next t ∧ t.settleUs = s.settleUs - us) ∧
    exec .cel s = .next { s with ce := false } ∧
    ∃ t, exec .por s = .next t ∧ t.settleUs = s.cfg.tPor

/-! ### RREG (40_register_commands.md) -/

/-- 20 R66 with R103: a stored register returns its first bytes in bus order, whatever the mode; more bytes than it
has are a fault. -/
def Obligations.RregStoredRegister : Prop :=
  ∀ (s : State) (a : RegAddr) (r : RegName) (n : Nat),
    s.Ready → s.bankBit = false → regAt s.cfg.regMap a = some r →
    r ∉ [RegName.status, .fifoStatus, .observeTx, .rpd, .feature, .dynpd] →
      if n ≤ regWidth r then
        exec (.rreg a n) s =
          .next { s with reply := { status := s.status, data := (regBytes s.regs r).take n } }
      else exec (.rreg a n) s = .fault (.badTransactionLength .rreg n)

/-- R105 to R108: the read views of `STATUS` (in both banks: 10 R37 and R109, the spec's general knowledge),
`FIFO_STATUS`, `OBSERVE_TX`, `RPD`, `FEATURE` and `DYNPD` (that the lock covers `DYNPD` is the general knowledge of 10
R36, decision D31, log entry 25, PRESUMED). The bytes of `OBSERVE_TX` and `RPD` are free values; no value of them is
asserted. 10 R34 under the default register map (log entry 3, PRESUMED): the layout of `FIFO_STATUS`. -/
def Obligations.RregViews : Prop :=
  (∀ (s : State) (a : RegAddr), s.Ready →
    (regAt s.cfg.regMap a = some .status →
      exec (.rreg a 1) s = .next { s with reply := { status := s.status, data := [s.status] } }) ∧
    (s.bankBit = false →
      (regAt s.cfg.regMap a = some .fifoStatus →
        exec (.rreg a 1) s = .next { s with reply := { status := s.status, data := [s.fifoStatus] } }) ∧
      (regAt s.cfg.regMap a = some .observeTx ∨ regAt s.cfg.regMap a = some .rpd →
        exec (.rreg a 1) s =
          .next { s with
            reply := { status := s.status, data := [Config.drawByte s.draws] }, draws := s.draws + 1 }) ∧
      (regAt s.cfg.regMap a = some .feature →
        exec (.rreg a 1) s =
          .next { s with
            reply := { status := s.status, data := [if s.featureLocked then 0x00 else s.regs.feature] } }) ∧
      (regAt s.cfg.regMap a = some .dynpd →
        exec (.rreg a 1) s =
          .next { s with
            reply := { status := s.status, data := [if s.featureLocked then 0x00 else s.regs.dynpd] } }))) ∧
  ∀ s : State, s.cfg.regMap = defaultRegMap →
    s.fifoStatus.getLsbD 7 = false ∧ s.fifoStatus.getLsbD 6 = false ∧
    s.fifoStatus.getLsbD 5 = (s.txf.length == 3) ∧ s.fifoStatus.getLsbD 4 = (s.txf == []) ∧
    s.fifoStatus.getLsbD 3 = false ∧ s.fifoStatus.getLsbD 2 = false ∧
    s.fifoStatus.getLsbD 1 = (s.rxf.length == 3) ∧ s.fifoStatus.getLsbD 0 = (s.rxf == [])

/-- R104 with 30 R90: the six holes of the operating bank fault, read or written, whatever the data count and the
mode. -/
def Obligations.HolesFault : Prop :=
  ∀ (s : State) (a : RegAddr), s.Ready → s.bankBit = false →
    a ∈ [(0x18 : RegAddr), 0x19, 0x1A, 0x1B, 0x1E, 0x1F] →
      (∀ n, exec (.rreg a n) s = .fault (.unimplementedRegister a)) ∧
      ∀ data, exec (.wreg a data) s = .fault (.unimplementedRegister a)

/-- R109, R118: in bank 1 every address but that of `STATUS` reaches the tuning bank: a write stores its bytes
whole and leaves every other entry; a read returns the first bytes stored, or free values when fewer are stored. R224:
`loadCalibration` is sixteen writes, the fourteen entries, the bytes of the first nine reversed, and then two bits of one
of these registers set and cleared (in which order is the table's, log entry 32). R207, 90 C4: none of them goes to
`STATUS` (log entry 32, DEDUCED: the parameters are legal only then). -/
def Obligations.TuningBankAccess : Prop :=
  (∀ c : Params, LegalParams c →
    let steps := calibrationSteps c.calTable
    steps.length = 16 ∧
    (∀ i ∈ steps, ∃ a d, i = .wreg a d ∧ regAt c.regMap a ≠ some .status ∧ 2 ≤ d.length) ∧
    (∀ k : Fin 14, steps[k.val]? = some (.wreg c.calTable.entries[k].addr
      (if k.val < 9 then c.calTable.entries[k].bytes.reverse else c.calTable.entries[k].bytes))) ∧
    ∃ (a : RegAddr) (d : List Byte) (p q : BitPos) (on : Bool), .wreg a d ∈ steps.take 14 ∧ p ≠ q ∧
      p.byte < d.length ∧ q.byte < d.length ∧
      steps.drop 14 = [.wreg a (putBit on p (putBit on q d)), .wreg a (putBit (!on) p (putBit (!on) q d))]) ∧
  ∀ (s : State) (a : RegAddr), s.Ready → s.bankBit = true → regAt s.cfg.regMap a ≠ some .status → tuneWf s.tune →
    (∀ data, ∃ t, exec (.wreg a data) s = .next t ∧
      t = { s with reply := { status := s.status, data := [] }, tune := t.tune } ∧
      tuneWf t.tune ∧ tuneGet t.tune a.toNat = data ∧
      ∀ b : RegAddr, b ≠ a → tuneGet t.tune b.toNat = tuneGet s.tune b.toNat) ∧
    ∀ n,
      if n ≤ (tuneGet s.tune a.toNat).length then
        exec (.rreg a n) s =
          .next { s with reply := { status := s.status, data := (tuneGet s.tune a.toNat).take n } }
      else
        exec (.rreg a n) s =
          .next { s with reply := { status := s.status, data := s.drawnBytes n }, draws := s.draws + n }

/-! ### WREG -/

/-- R110: write 1 to clear, in every mode; nothing else changes, and bits 7, 3:1 and 0 are ignored. That it does so
in both banks is R118's sentence, the spec's general knowledge (log entry 25, PRESUMED). -/
def Obligations.WregStatusClears : Prop :=
  ∀ (s : State) (a : RegAddr) (v : Byte), s.Ready → regAt s.cfg.regMap a = some .status →
    exec (.wreg a [v]) s =
      .next { s with
        reply := { status := s.status, data := [] }
        rxDr := if v.getLsbD 6 then false else s.rxDr
        txDs := if v.getLsbD 5 then false else s.txDs
        maxRt := if v.getLsbD 4 then false else s.maxRt }

/-- 42 R154 with 40 R111: a direction change faults with the pin high, in a burst or with a latched trigger; a write
that changes neither the power bit nor, in those cases, the direction only stores the byte. -/
def Obligations.WregConfigDirection : Prop :=
  ∀ (s : State) (a : RegAddr) (v : Byte), s.Ready → s.bankBit = false → regAt s.cfg.regMap a = some .config →
    let new := v &&& implemented s.cfg.regMap .config
    let turns := bitOf s.cfg.regMap .primRx new ≠ s.bit .primRx
    let busy := s.ce = true ∨ s.seq ≠ .idle ∨ s.txTrigger = true
    (turns → busy → exec (.wreg a [v]) s = .fault .modeBypass) ∧
    (¬ (turns ∧ busy) → bitOf s.cfg.regMap .pwrUp new = s.bit .pwrUp →
      exec (.wreg a [v]) s =
        .next { s with
          reply := { status := s.status, data := [] }, regs := { s.regs with config := new } })

/-- 42 R152: a write that sets the power bit faults with the pin high (the direction check of R154 first), else it
stores the byte and loads the settling time; until that time has passed every bus command and `CEH` fault, and a
delay of it is enough. -/
def Obligations.WregConfigPowerUp : Prop :=
  ∀ (s : State) (a : RegAddr) (v : Byte), s.Ready → s.bankBit = false → regAt s.cfg.regMap a = some .config →
    let new := v &&& implemented s.cfg.regMap .config
    let turns := bitOf s.cfg.regMap .primRx new ≠ s.bit .primRx
    let busy := s.ce = true ∨ s.seq ≠ .idle ∨ s.txTrigger = true
    s.bit .pwrUp = false → bitOf s.cfg.regMap .pwrUp new = true → ¬ (turns ∧ busy) →
      (s.ce = true → exec (.wreg a [v]) s = .fault .ceInPowerDown) ∧
      (s.ce = false → ∃ t, exec (.wreg a [v]) s = .next t ∧
        t = { s with
          reply := { status := s.status, data := [] }, regs := { s.regs with config := new }
          settleUs := s.cfg.tPwrup } ∧
        (∀ us u, us < s.cfg.tPwrup → exec (.delay us) t = .next u →
          exec .ceh u = .fault (.accessDuringSettling .ceh) ∧
          ∀ i c, busCmdOf i = some c → exec i u = .fault (.accessDuringSettling (.bus c))) ∧
        ∃ u, exec (.delay s.cfg.tPwrup) t = .next u ∧ u.settleUs = 0)

/-- 42 R153 (the abort of a burst in flight is the spec's own inference, decision D19): a write that clears the
power bit stores the byte, aborts any burst with no event bit set, drops the trigger and ends the settling; the pin,
the FIFOs and the event bits stay. -/
def Obligations.WregConfigPowerDown : Prop :=
  ∀ (s : State) (a : RegAddr) (v : Byte), s.Ready → s.bankBit = false → regAt s.cfg.regMap a = some .config →
    let new := v &&& implemented s.cfg.regMap .config
    let turns := bitOf s.cfg.regMap .primRx new ≠ s.bit .primRx
    let busy := s.ce = true ∨ s.seq ≠ .idle ∨ s.txTrigger = true
    s.bit .pwrUp = true → bitOf s.cfg.regMap .pwrUp new = false → ¬ (turns ∧ busy) →
      ∃ t, exec (.wreg a [v]) s = .next t ∧ t.mode = .powerDown ∧
        t = { s with
          reply := { status := s.status, data := [] }, regs := { s.regs with config := new }
          seq := .idle, retry := (if s.seq = .idle then s.retry else 0), txTrigger := false, settleUs := 0 }

/-- R116 with R112 and 10 R19: a plain one-byte register stores the byte without its reserved bits when the block is
not active and the value is legal; no other register and no other state changes. -/
def Obligations.WregPlainByte : Prop :=
  ∀ (s : State) (a : RegAddr) (r : RegName) (v : Byte), s.Ready → s.bankBit = false →
    regAt s.cfg.regMap a = some r → r ∈ plainByteRegs → s.isActive = false →
    illegalValue s.cfg.regMap r (v &&& implemented s.cfg.regMap r) = false →
      ∃ t, exec (.wreg a [v]) s = .next t ∧
        t = { s with reply := { status := s.status, data := [] }, regs := t.regs } ∧
        regByte t.regs r = v &&& implemented s.cfg.regMap r ∧
        ∀ q, q ≠ r → regBytes t.regs q = regBytes s.regs q

/-- R117, 20 R67: a five-byte register has its first bytes replaced and keeps the rest; no other register and no
other state changes. -/
def Obligations.WregFiveBytes : Prop :=
  ∀ (s : State) (a : RegAddr) (r : RegName) (data : List Byte), s.Ready → s.bankBit = false →
    regAt s.cfg.regMap a = some r → regWidth r = 5 → s.isActive = false → data ≠ [] → data.length ≤ 5 →
      ∃ t, exec (.wreg a data) s = .next t ∧
        t = { s with reply := { status := s.status, data := [] }, regs := t.regs } ∧
        regBytes t.regs r = data ++ (regBytes s.regs r).drop data.length ∧
        ∀ q, q ≠ r → regBytes t.regs q = regBytes s.regs q

/-- R114: `FEATURE` and `DYNPD` ignore a write while locked, in every mode; unlocked they store the byte without
its reserved bits, whatever the feature bits are, when the block is not active. That the lock covers `DYNPD` is the
spec's general knowledge (10 R36, decision D31, log entry 25, PRESUMED). -/
def Obligations.WregFeatureLock : Prop :=
  ∀ (s : State) (a : RegAddr) (r : RegName) (v : Byte), s.Ready → s.bankBit = false →
    regAt s.cfg.regMap a = some r → r ∈ [RegName.feature, .dynpd] →
      (s.featureLocked = true →
        exec (.wreg a [v]) s = .next { s with reply := { status := s.status, data := [] } }) ∧
      (s.featureLocked = false → s.isActive = true →
        exec (.wreg a [v]) s = .fault (.configWriteWhileActive (.reg a))) ∧
      (s.featureLocked = false → s.isActive = false → ∃ t, exec (.wreg a [v]) s = .next t ∧
        t = { s with reply := { status := s.status, data := [] }, regs := t.regs } ∧
        regByte t.regs r = v &&& implemented s.cfg.regMap r ∧
        ∀ q, q ≠ r → regBytes t.regs q = regBytes s.regs q)

/-- R112: storing address width code 0 or a static width above 32 faults when the block is not active; the stored
value is the byte without its reserved bits. That the fault carries the byte as sent is log entry 20 (DEDUCED). -/
def Obligations.IllegalValuesFault : Prop :=
  ∀ (s : State) (a : RegAddr) (v : Byte), s.Ready → s.bankBit = false → s.isActive = false →
    (regAt s.cfg.regMap a = some .setupAw →
      fieldOf s.cfg.regMap .aw (v &&& implemented s.cfg.regMap .setupAw) = 0 →
      exec (.wreg a [v]) s = .fault (.illegalRegisterValue a v)) ∧
    ∀ p : Pipe, regAt s.cfg.regMap a = some (.rxPw p) →
      32 < fieldOf s.cfg.regMap (.rxPwLen p) (v &&& implemented s.cfg.regMap (.rxPw p)) →
      exec (.wreg a [v]) s = .fault (.illegalRegisterValue a v)

/-- R115: while active, a write of at least one byte to any register but `STATUS`, `CONFIG`, the read-only ones and
the locked ones faults. -/
def Obligations.ActiveConfigWritesFault : Prop :=
  ∀ (s : State) (a : RegAddr) (r : RegName) (data : List Byte), s.Ready → s.bankBit = false →
    regAt s.cfg.regMap a = some r → s.isActive = true → data ≠ [] → data.length ≤ regWidth r →
    r ∉ [RegName.status, .config, .fifoStatus, .observeTx, .rpd] →
    (r ∈ [RegName.feature, .dynpd] → s.featureLocked = false) →
      exec (.wreg a data) s = .fault (.configWriteWhileActive (.reg a))

/-- R113: a write to a read-only register changes nothing and raises nothing, in every mode. -/
def Obligations.WregReadOnlyIgnored : Prop :=
  ∀ (s : State) (a : RegAddr) (r : RegName) (v : Byte), s.Ready → s.bankBit = false →
    regAt s.cfg.regMap a = some r → r ∈ [RegName.fifoStatus, .observeTx, .rpd] →
      exec (.wreg a [v]) s = .next { s with reply := { status := s.status, data := [] } }

/-! ### FIFO and special commands (41_fifo_commands.md) -/

/-- R132, R133: `RRXP` returns the head packet's bytes, free values past their end, and pops the head for every
count up to 32, 0 included; with the FIFO empty every byte is a free value and nothing is popped. -/
def Obligations.RrxpReadsAndPops : Prop :=
  ∀ (s : State) (n : Nat), s.Ready → n ≤ 32 →
    (∀ h rest, s.rxf = h :: rest →
      exec (.rrxp n) s =
        .next { s with
          reply := { status := s.status, data := h.bytes.take n ++ s.drawnBytes (n - h.bytes.length) }
          draws := s.draws + (n - h.bytes.length)
          rxf := rest }) ∧
    (s.rxf = [] →
      exec (.rrxp n) s =
        .next { s with
          reply := { status := s.status, data := s.drawnBytes n }, draws := s.draws + n })

/-- R141, R142: `RPLW` returns the head entry's width, a free value when the FIFO is empty, and changes nothing
else. -/
def Obligations.RplwReadsWidth : Prop :=
  ∀ s : State, s.Ready →
    (∀ h rest, s.rxf = h :: rest →
      exec (.rplw 1) s = .next { s with reply := { status := s.status, data := [h.wid] } }) ∧
    (s.rxf = [] →
      exec (.rplw 1) s =
        .next { s with
          reply := { status := s.status, data := [Config.drawByte s.draws] }, draws := s.draws + 1 })

/-- R140: `FLRX` empties the RX FIFO and keeps everything else, the data-ready bit and the last accepted identity
among it; the status byte then shows the code of an empty FIFO. -/
def Obligations.FlrxEmpties : Prop :=
  ∀ s : State, s.Ready → ∃ t, exec (.flrx 0) s = .next t ∧
    t = { s with reply := { status := s.status, data := [] }, rxf := [] } ∧
    t.status.extractLsb' 1 3 = s.cfg.pipeEmptyCode ∧ t.rxEmpty = true

/-- R134, R135, R137: the two payload writes append a data entry with a fresh identity, in every mode, and start
nothing; on a full TX FIFO they fault. -/
def Obligations.PayloadWritesAppend : Prop :=
  ∀ (s : State) (data : List Byte), s.Ready → data.length ≤ 32 →
    (s.txf.length = 3 →
      exec (.wtxp data) s = .fault .txFifoOverflow ∧ exec (.wtxpna data) s = .fault .txFifoOverflow) ∧
    (s.txf.length ≠ 3 →
      exec (.wtxp data) s =
        .next { s with
          reply := { status := s.status, data := [] }
          txf := s.txf ++ [{ kind := .data, bytes := data, ackReq := true, id := s.nextId }]
          nextId := s.nextId + 1 } ∧
      exec (.wtxpna data) s =
        .next { s with
          reply := { status := s.status, data := [] }
          txf := s.txf ++ [{ kind := .data, bytes := data, ackReq := false, id := s.nextId }]
          nextId := s.nextId + 1 })

/-- R136, R137 (that acknowledgment payloads queue in the TX FIFO is the spec's general knowledge, decision D28):
`WACKP` appends an acknowledgment payload for its pipe; on a full TX FIFO it faults. -/
def Obligations.AckPayloadWriteAppends : Prop :=
  ∀ (s : State) (p : Pipe) (data : List Byte), s.Ready → data.length ≤ 32 →
    (s.txf.length = 3 → exec (.wackp p data) s = .fault .txFifoOverflow) ∧
    (s.txf.length ≠ 3 →
      exec (.wackp p data) s =
        .next { s with
          reply := { status := s.status, data := [] }
          txf := s.txf ++ [{ kind := .ackPayload p, bytes := data, ackReq := false, id := s.nextId }]
          nextId := s.nextId + 1 })

/-- R138, R139 (the abort of a burst is the spec's own inference, decision D19): `FLTX` drops every entry and the
latched trigger, aborts a burst in progress with no event bit set, and keeps everything else. -/
def Obligations.FltxFlushes : Prop :=
  ∀ s : State, s.Ready →
    exec (.fltx 0) s =
      .next { s with
        reply := { status := s.status, data := [] }
        seq := .idle, retry := (if s.seq = .idle then s.retry else 0), txf := [], txTrigger := false }

/-- R143 with R144, R145: while active `ACT` faults; else the feature byte toggles the lock and keeps the stored
values, the bank byte toggles the bank on DualBankLegacy, and any other byte faults. -/
def Obligations.ActToggles : Prop :=
  ∀ (s : State) (m : Byte), s.Ready → s.cfg.magicBank ≠ s.cfg.magicFeature →
    (s.isActive = true → exec (.act [m]) s = .fault (.configWriteWhileActive .act)) ∧
    (s.isActive = false → m = s.cfg.magicFeature →
      exec (.act [m]) s =
        .next { s with reply := { status := s.status, data := [] }, featureLocked := !s.featureLocked }) ∧
    (s.isActive = false → m = s.cfg.magicBank → s.cfg.profile = .dualBankLegacy →
      ∃ t, exec (.act [m]) s = .next t ∧
        t = { s with reply := { status := s.status, data := [] }, bank := !s.bank } ∧
        t.status.getLsbD 7 = !s.status.getLsbD 7) ∧
    (s.isActive = false → m ≠ s.cfg.magicFeature → ¬ (m = s.cfg.magicBank ∧ s.cfg.profile = .dualBankLegacy) →
      exec (.act [m]) s = .fault (.badActivateMagic m))

/-- R146 with 20 R82: `NOP` returns the status byte of the state it starts from and changes nothing; R100, R101,
corner case of no data bytes: an `RREG` or a `WREG` of none is the same probe. -/
def Obligations.NopProbes : Prop :=
  ∀ s : State, s.Ready →
    exec (.nop 0) s = .next { s with reply := { status := s.status, data := [] } } ∧
    ∀ (a : RegAddr) (r : RegName), s.inTuneBank a = false → regAt s.cfg.regMap a = some r →
      exec (.rreg a 0) s = exec (.nop 0) s ∧ exec (.wreg a []) s = exec (.nop 0) s

/-- R148, R103: every bus command with a data count outside its range faults; a register access of the operating
bank takes at most the bytes the register has. That an access to `STATUS` in bank 1 is checked too is log entry 24
(DEDUCED). -/
def Obligations.DataCountsFault : Prop :=
  ∀ s : State, s.Ready →
    (∀ (a : RegAddr) (r : RegName), s.inTuneBank a = false → regAt s.cfg.regMap a = some r →
      (∀ n, regWidth r < n → exec (.rreg a n) s = .fault (.badTransactionLength .rreg n)) ∧
      ∀ data : List Byte, regWidth r < data.length →
        exec (.wreg a data) s = .fault (.badTransactionLength .wreg data.length)) ∧
    (∀ n, 32 < n → exec (.rrxp n) s = .fault (.badTransactionLength .rrxp n)) ∧
    (∀ data : List Byte, 32 < data.length →
      exec (.wtxp data) s = .fault (.badTransactionLength .wtxp data.length) ∧
      exec (.wtxpna data) s = .fault (.badTransactionLength .wtxpna data.length) ∧
      ∀ p, exec (.wackp p data) s = .fault (.badTransactionLength .wackp data.length)) ∧
    (∀ n, n ≠ 1 → exec (.rplw n) s = .fault (.badTransactionLength .rplw n)) ∧
    (∀ data : List Byte, data.length ≠ 1 →
      exec (.act data) s = .fault (.badTransactionLength .act data.length)) ∧
    ∀ n, n ≠ 0 →
      exec (.fltx n) s = .fault (.badTransactionLength .fltx n) ∧
      exec (.flrx n) s = .fault (.badTransactionLength .flrx n) ∧
      exec (.nop n) s = .fault (.badTransactionLength .nop n)

/-! ### Host events (42_mode_state_machine.md, 70_reset_and_hazards.md) -/

/-- R157: `CEH`. -/
def Obligations.CehRaisesPin : Prop :=
  ∀ s : State, s.fault = none →
    (s.ce = true → exec .ceh s = .next s) ∧
    (s.ce = false → s.bit .pwrUp = false → exec .ceh s = .fault .ceInPowerDown) ∧
    (s.ce = false → s.bit .pwrUp = true → 0 < s.settleUs →
      exec .ceh s = .fault (.accessDuringSettling .ceh)) ∧
    (s.ce = false → s.bit .pwrUp = true → s.settleUs = 0 → ∃ t, exec .ceh s = .next t ∧
      t = { s with ce := true, ceHighUs := 0, pulseUsed := false } ∧
      (s.bit .primRx = true → s.seq = .idle → t.mode = .activeReceive))

/-- R158, R159: `CEL` lowers the pin in every mode; it latches the trigger when it ends a pulse of sufficient
length that could start a burst and has started none, and faults when such a pulse is too short. That nothing is
latched while max-retries is set is the spec's general knowledge (43 R200, decision D23, log entry 25, PRESUMED), and
R159 is its derivation. -/
def Obligations.CelLowersPin : Prop :=
  ∀ s : State, s.fault = none →
    let pulse := s.bit .pwrUp = true ∧ s.bit .primRx = false ∧ s.settleUs = 0 ∧ s.seq = .idle ∧
      s.pulseUsed = false ∧ s.maxRt = false ∧ ∃ e ∈ s.txf, e.kind = .data
    (s.ce = false → exec .cel s = .next s) ∧
    (s.ce = true → pulse → s.ceHighUs < s.cfg.tCePulse → exec .cel s = .fault (.shortCePulse s.ceHighUs)) ∧
    (s.ce = true → pulse → s.cfg.tCePulse ≤ s.ceHighUs →
      exec .cel s = .next { s with txTrigger := true, ce := false }) ∧
    (s.ce = true → ¬ pulse → exec .cel s = .next { s with ce := false })

/-- R156: `DELAY` is admitted in every state, settling included; the settling time is subtracted down to 0 and the
time the pin has been high grows; delays add, and a delay of 0 changes nothing. -/
def Obligations.DelayCounts : Prop :=
  ∀ s : State, s.fault = none →
    (∀ us, exec (.delay us) s =
      .next { s with
        settleUs := s.settleUs - us, ceHighUs := (if s.ce then s.ceHighUs + us else s.ceHighUs) }) ∧
    exec (.delay 0) s = .next s ∧
    ∀ m n t, exec (.delay m) s = .next t → exec (.delay n) t = exec (.delay (m + n)) s

/-- 70 R255 with 10 R61: `POR` in any state. The host's pin, the fault record, the driver's state and the
EventFlags stay; the registers take the values of the parameter `ResetVals`. The initial state is one that a `POR`
leaves, with the pin low, no fault, the driver in PowerDown and the EventFlags false. -/
def Obligations.PorResets : Prop :=
  (∀ s : State, s.fault = none →
    exec .por s =
      .next { s with
        regs := s.cfg.resetVals, rxDr := false, txDs := false, maxRt := false, txf := [], rxf := []
        seq := .idle, retry := 0, txTrigger := false, pulseUsed := false, settleUs := s.cfg.tPor, ceHighUs := 0
        nextId := 0, lastRxId := none, featureLocked := true, bank := false, tune := [] }) ∧
  exec .por State.reset = .next State.reset ∧ State.reset.ce = false ∧ State.reset.fault = none ∧
  State.reset.drvState = .powerDown ∧ State.reset.ev.dataReceived = false ∧
  State.reset.ev.transmitAcknowledged = false ∧ State.reset.ev.maxRetriesReached = false

/-! ### Views -/

/-- 10 R24: the layout of the status byte. -/
def Obligations.StatusLayout : Prop :=
  ∀ s : State,
    s.status.getLsbD 7 = (s.cfg.profile == .dualBankLegacy && s.bank) ∧
    s.status.getLsbD 6 = s.rxDr ∧ s.status.getLsbD 5 = s.txDs ∧ s.status.getLsbD 4 = s.maxRt ∧
    (∀ h rest, s.rxf = h :: rest → (s.status.extractLsb' 1 3).toNat = h.pipe.val) ∧
    (s.rxf = [] → s.status.extractLsb' 1 3 = s.cfg.pipeEmptyCode) ∧
    s.status.getLsbD 0 = (s.txf.length == 3)

/-- 10 R16, R26, R32: the address width in force, and the effective addresses under both byte orders: pipes 2 to 5
have the bytes of pipe 1 but their own least significant byte. The codes of the width are the spec's general
knowledge (R26, log entry 25). In a state that meets the invariant every address has exactly that many bytes. -/
def Obligations.EffectiveAddresses : Prop :=
  (∀ s : State,
    (s.field .aw = 1 → s.aw = 3) ∧ (s.field .aw = 2 → s.aw = 4) ∧ (s.field .aw = 3 → s.aw = 5) ∧
    s.effAddr 0 = (regBytes s.regs (.rxAddr 0)).take s.aw ∧
    s.effAddr 1 = (regBytes s.regs (.rxAddr 1)).take s.aw ∧
    s.txAddrBytes = (regBytes s.regs .txAddr).take s.aw ∧
    ∀ p : Pipe, 2 ≤ p.val →
      (s.cfg.addrLsbFirst = true →
        s.effAddr p = regByte s.regs (.rxAddr p) :: ((regBytes s.regs (.rxAddr 1)).take s.aw).drop 1) ∧
      (s.cfg.addrLsbFirst = false →
        s.effAddr p = (regBytes s.regs (.rxAddr 1)).take (s.aw - 1) ++ [regByte s.regs (.rxAddr p)])) ∧
  ∀ s : State, s.Inv → 3 ≤ s.aw ∧ s.aw ≤ 5 ∧ s.txAddrBytes.length = s.aw ∧
    ∀ p : Pipe, (s.effAddr p).length = s.aw ∧
      ∀ i, 2 ≤ p.val → i < s.aw → i ≠ (if s.cfg.addrLsbFirst then 0 else s.aw - 1) →
        (s.effAddr p)[i]? = (s.effAddr 1)[i]?

/-- 42 R150: the four RadioStates, each exactly under its condition. -/
def Obligations.ModeIsFunctionOfState : Prop :=
  ∀ s : State,
    (s.mode = .powerDown ↔ s.bit .pwrUp = false) ∧
    (s.mode = .activeTransmit ↔ s.bit .pwrUp = true ∧ s.seq ≠ .idle) ∧
    (s.mode = .activeReceive ↔ s.bit .pwrUp = true ∧ s.seq = .idle ∧ s.bit .primRx = true ∧ s.ce = true) ∧
    (s.mode = .standby ↔ s.bit .pwrUp = true ∧ s.seq = .idle ∧ (s.ce = false ∨ s.bit .primRx = false))

/-- 60 R238, R244: the line is low while an unmasked event bit is set; writing back the status byte read releases
it, and between a state and that write a new event keeps it low: the bit was 0 in the byte written. -/
def Obligations.WriteBackReleasesLine : Prop :=
  (∀ s : State, s.irqLine = false ↔
    (s.rxDr = true ∧ s.cfg.irqMask.getLsbD 2 = false ∧ s.bit .maskRxDr = false) ∨
    (s.txDs = true ∧ s.cfg.irqMask.getLsbD 1 = false ∧ s.bit .maskTxDs = false) ∨
    (s.maxRt = true ∧ s.cfg.irqMask.getLsbD 0 = false ∧ s.bit .maskMaxRt = false)) ∧
  (∀ (s : State) (a : RegAddr), s.Ready → regAt s.cfg.regMap a = some .status →
    ∃ t, exec (.wreg a [s.status]) s = .next t ∧ t.irqLine = true) ∧
  ∀ (s u : State) (a : RegAddr), u.Ready → regAt u.cfg.regMap a = some .status →
    ∃ t, exec (.wreg a [s.status]) u = .next t ∧
      (s.rxDr = false → t.rxDr = u.rxDr) ∧ (s.txDs = false → t.txDs = u.txDs) ∧
      (s.maxRt = false → t.maxRt = u.maxRt)

/-! ### Frames: what an instruction leaves alone -/

/-- 20 R73: `RREG`, `RPLW` and `NOP` change only the reply (and the count of free values taken); `RRXP` also the RX
FIFO. -/
def Obligations.ReadsFrame : Prop :=
  ∀ (s t : State) (i : Instr), exec i s = .next t →
    ((busCmdOf i = some .rreg ∨ busCmdOf i = some .rplw ∨ busCmdOf i = some .nop) →
      t = { s with reply := t.reply, draws := t.draws }) ∧
    (busCmdOf i = some .rrxp → t = { s with reply := t.reply, draws := t.draws, rxf := t.rxf })

/-- No instruction but `WREG` and `POR` changes a register; a `WREG` changes only the register its address names,
none in the tuning bank; no instruction but `WREG` and `POR` changes the tuning bank, a `WREG` only the entry of its
address, none outside bank 1. -/
def Obligations.RegistersFrame : Prop :=
  ∀ (s t : State) (i : Instr), exec i s = .next t →
    (busCmdOf i ≠ some .wreg → i ≠ .por → t.regs = s.regs ∧ t.tune = s.tune) ∧
    ∀ a data, i = .wreg a data →
      (∀ q, s.inTuneBank a = true ∨ regAt s.cfg.regMap a ≠ some q → regBytes t.regs q = regBytes s.regs q) ∧
      (∀ b : Nat, s.inTuneBank a = false ∨ b ≠ a.toNat → tuneGet t.tune b = tuneGet s.tune b)

/-- Which instructions change the FIFOs and the packet identities (R134 to R140), the event bits (10 R25), the
sequencer phase, the lock and the bank, the pin, and what the last transaction returned; and that no instruction touches the parameters, the host side,
the frames on the air or the turns to come. -/
def Obligations.ChipStateFrame : Prop :=
  ∀ (s t : State) (i : Instr), exec i s = .next t →
    SameHostSide s t ∧
    (i ≠ .por →
      (busCmdOf i ∉ [some .wtxp, some .wtxpna, some .wackp, some .fltx] → t.txf = s.txf) ∧
      (busCmdOf i ∉ [some .wtxp, some .wtxpna, some .wackp] → t.nextId = s.nextId) ∧
      (busCmdOf i ∉ [some .rrxp, some .flrx] → t.rxf = s.rxf) ∧
      t.lastRxId = s.lastRxId ∧
      (busCmdOf i ≠ some .wreg → t.rxDr = s.rxDr ∧ t.txDs = s.txDs ∧ t.maxRt = s.maxRt) ∧
      (busCmdOf i ∉ [some .wreg, some .fltx] → t.seq = s.seq ∧ t.retry = s.retry) ∧
      (busCmdOf i ≠ some .act → t.featureLocked = s.featureLocked ∧ t.bank = s.bank)) ∧
    (i ≠ .cel → i ≠ .ceh → t.ce = s.ce) ∧
    (busCmdOf i ∉ [some .wreg, some .fltx] → i ≠ .por → i ≠ .cel → t.txTrigger = s.txTrigger) ∧
    (busCmdOf i ≠ some .wreg → i ≠ .por → (∀ us, i ≠ .delay us) → t.settleUs = s.settleUs) ∧
    (i ≠ .por → i ≠ .ceh → t.pulseUsed = s.pulseUsed ∧ ((∀ us, i ≠ .delay us) → t.ceHighUs = s.ceHighUs)) ∧
    (busCmdOf i = none → t.reply = s.reply) ∧
    (busCmdOf i ∉ [some .rreg, some .rplw, some .rrxp] → t.draws = s.draws)

/-! ### The sequencer (43_sequencer.md) -/

/-- R178: `StartBurst`: enabled exactly under its conditions; when it is not enabled an idle sequencer does nothing.
That a clear max-retries bit is among them (R200, decision D23) and that a pin held high starts bursts (42 R160) are
the spec's general knowledge (log entry 25, PRESUMED). -/
def Obligations.StartBurstEnabled : Prop :=
  ∀ s : State,
    let enabled := s.bit .pwrUp = true ∧ s.settleUs = 0 ∧ s.bit .primRx = false ∧ s.seq = .idle ∧
      s.maxRt = false ∧ (∃ e ∈ s.txf, e.kind = .data) ∧
      (s.txTrigger = true ∨ (s.ce = true ∧ s.cfg.tCePulse ≤ s.ceHighUs))
    (enabled →
      s.sequencerStep = { s with seq := .txOnAir 0, retry := 0, txTrigger := false, pulseUsed := true } ∧
      s.sequencerStep.mode = .activeTransmit) ∧
    (¬ enabled → s.seq = .idle → s.sequencerStep = s)

/-- R180, R181, R183: `EndAttempt` puts the current packet on the air, then awaits its acknowledgment or completes
at once, data-sent set and the packet gone. The current packet is the first data entry (R179). -/
def Obligations.EndAttemptSends : Prop :=
  ∀ (s : State) (n : Nat) (before after : List TxEntry) (e : TxEntry),
    s.seq = .txOnAir n → s.bit .pwrUp = true → s.settleUs = 0 →
    s.txf = before ++ e :: after → (∀ f ∈ before, f.kind ≠ .data) → e.kind = .data →
    let packet : AirPacket :=
      { addr := s.txAddrBytes, bytes := e.bytes, noAck := !e.ackReq, id := { sender := 0, serial := e.id } }
    s.sequencerStep =
      if e.ackReq = true ∧ s.bit (.enaa 0) = true then
        { s with emitted := s.emitted ++ [.packet packet], seq := .awaitAck n }
      else
        { s with
          emitted := s.emitted ++ [.packet packet], txf := before ++ after, txDs := true, seq := .idle, retry := 0 }

/-- R184, R185: an `Ack` changes nothing while no acknowledgment is awaited, which is also 41 R139's late
acknowledgment, and is taken only when it can be recognised; then the packet leaves, data-sent is set, and a payload is
taken on pipe 0 when the features are on and there is room. -/
def Obligations.AckArrivedCompletes : Prop :=
  (∀ (s : State) (payload : Option (List Byte)), (∀ n, s.seq ≠ .awaitAck n) → s.ackStep payload = s) ∧
  ∀ (s : State) (n : Nat) (before after : List TxEntry) (e : TxEntry) (payload : Option (List Byte)),
    s.seq = .awaitAck n → s.bit .pwrUp = true → s.settleUs = 0 →
    s.txf = before ++ e :: after → (∀ f ∈ before, f.kind ≠ .data) → e.kind = .data →
    (∀ bytes, payload = some bytes → bytes.length ≤ 32) →
    let admissible := s.effAddr 0 = s.txAddrBytes ∧ s.bit (.erx 0) = true
    let payOn := s.featureLocked = false ∧ s.bit .enAckPay = true ∧ s.bit .enDpl = true
    (¬ admissible → s.ackStep payload = s) ∧
    (admissible →
      let done : State := { s with txf := before ++ after, txDs := true, seq := .idle, retry := 0 }
      (∀ bytes, payload = some bytes → payOn → s.rxf.length ≠ 3 →
        s.ackStep payload =
          { done with
            rxf := s.rxf ++ [{ pipe := 0, bytes := bytes, wid := BitVec.ofNat 8 bytes.length }], rxDr := true }) ∧
      ((payload = none ∨ ¬ payOn ∨ s.rxf.length = 3) → s.ackStep payload = done))

/-- R186, R187: a timeout, which is enabled only while an acknowledgment is awaited, sends the same packet again while
the budget lasts, then raises max-retries with the packet still queued. -/
def Obligations.TimeoutRetries : Prop :=
  (∀ s : State, (∀ n, s.seq ≠ .awaitAck n) → s.timeoutStep = s) ∧
  ∀ (s : State) (n : Nat), s.seq = .awaitAck n → s.bit .pwrUp = true → s.settleUs = 0 →
    s.timeoutStep =
      if n < s.field .arc then { s with retry := n + 1, seq := .txOnAir (n + 1) }
      else { s with maxRt := true, seq := .idle, retry := 0 }

/-- R189, R190, R191: a frame offered outside ActiveReceive, one that matches no enabled pipe, and one of another
length on a static pipe change nothing. What happens on a length mismatch is the spec's general knowledge (R191,
decision D27, log entry 25, PRESUMED). -/
def Obligations.UnwantedFramesIgnored : Prop :=
  ∀ (s : State) (k : AirPacket),
    (s.mode ≠ .activeReceive ∨ s.settleUs ≠ 0 → s.offerStep k = s ∧ ∀ p, s.framingStep p = s) ∧
    ((∀ p : Pipe, s.bit (.erx p) = true → k.addr ≠ s.effAddr p) → s.offerStep k = s) ∧
    ∀ p : Pipe, s.bit (.erx p) = true → k.addr = s.effAddr p →
      (∀ q : Pipe, q < p → s.bit (.erx q) = true → k.addr ≠ s.effAddr q) →
      ¬ (s.featureLocked = false ∧ s.bit .enDpl = true ∧ s.bit (.dpl p) = true) →
      k.bytes.length ≠ s.field (.rxPwLen p) → s.offerStep k = s

/-- R192 to R194, R196 (the acknowledgment payload's part is the spec's general knowledge, decision D28): a new
frame whose lowest matching enabled pipe is `p` (R190), on a dynamic pipe or of the pipe's static length (R191), with
room in the RX FIFO is stored, data-ready set, its identity remembered, and acknowledged when the pipe asks for it,
with the first payload queued for the pipe. -/
def Obligations.AcceptStores : Prop :=
  ∀ (s : State) (k : AirPacket) (p : Pipe),
    s.mode = .activeReceive → s.settleUs = 0 → k.bytes.length ≤ 32 →
    s.bit (.erx p) = true → k.addr = s.effAddr p →
    (∀ q : Pipe, q < p → s.bit (.erx q) = true → k.addr ≠ s.effAddr q) →
    (s.featureLocked = false ∧ s.bit .enDpl = true ∧ s.bit (.dpl p) = true ∨
      k.bytes.length = s.field (.rxPwLen p)) →
    s.lastRxId ≠ some k.id → s.rxf.length ≠ 3 →
    let stored : State :=
      { s with
        rxf := s.rxf ++ [{ pipe := p, bytes := k.bytes, wid := BitVec.ofNat 8 k.bytes.length }]
        rxDr := true, lastRxId := some k.id }
    let acks := s.bit (.enaa p) = true ∧ k.noAck = false
    let payOn := s.featureLocked = false ∧ s.bit .enAckPay = true ∧ s.bit .enDpl = true
    (¬ acks → s.offerStep k = stored) ∧
    (acks → (¬ payOn ∨ ∀ e ∈ s.txf, e.kind ≠ .ackPayload p) →
      s.offerStep k =
        { stored with emitted := s.emitted ++ [.ack { addr := s.effAddr p, payload := none }] }) ∧
    (acks → payOn → ∀ before after e, s.txf = before ++ e :: after →
      (∀ f ∈ before, f.kind ≠ .ackPayload p) → e.kind = .ackPayload p →
      s.offerStep k =
        { stored with
          txf := before ++ after, txDs := true
          emitted := s.emitted ++ [.ack { addr := s.effAddr p, payload := some e.bytes }] })

/-- R195, R197 (that a duplicate is told by exact identity is the spec's decision D25, log entry 25, PRESUMED), for a
frame that matches and is admitted as R190 and R191 say: a retransmission of the frame accepted last is acknowledged
without payload and stored nowhere, the RX FIFO full or not; a new frame with the RX FIFO full is dropped, and
acknowledged only if the parameter says so. -/
def Obligations.DuplicateAndFullDrop : Prop :=
  ∀ (s : State) (k : AirPacket) (p : Pipe),
    s.mode = .activeReceive → s.settleUs = 0 → k.bytes.length ≤ 32 →
    s.bit (.erx p) = true → k.addr = s.effAddr p →
    (∀ q : Pipe, q < p → s.bit (.erx q) = true → k.addr ≠ s.effAddr q) →
    (s.featureLocked = false ∧ s.bit .enDpl = true ∧ s.bit (.dpl p) = true ∨
      k.bytes.length = s.field (.rxPwLen p)) →
    let acks := s.bit (.enaa p) = true ∧ k.noAck = false
    let acked : State := { s with emitted := s.emitted ++ [.ack { addr := s.effAddr p, payload := none }] }
    (s.lastRxId = some k.id → s.offerStep k = if acks then acked else s) ∧
    (s.lastRxId ≠ some k.id → s.rxf.length = 3 →
      s.offerStep k = if s.cfg.ackWhenRxFull = true ∧ acks then acked else s)

/-- R198: a framing error pushes an entry of free bytes and a width of 33 to 255 on an enabled dynamic pipe with
room, sets data-ready, emits nothing and keeps the last identity; where the parameter or a condition is off, nothing
happens. -/
def Obligations.FramingErrorEntry : Prop :=
  ∀ (s : State) (p : Pipe),
    let enabled := s.cfg.allowBadWidth = true ∧ s.mode = .activeReceive ∧ s.settleUs = 0 ∧ s.rxf.length ≠ 3 ∧
      s.bit (.erx p) = true ∧ s.featureLocked = false ∧ s.bit .enDpl = true ∧ s.bit (.dpl p) = true
    (¬ enabled → s.framingStep p = s) ∧
    (enabled → ∃ e : RxEntry, e.pipe = p ∧ e.bytes.length ≤ 32 ∧ 33 ≤ e.wid.toNat ∧
      s.framingStep p =
        { s with rxf := s.rxf ++ [e], rxDr := true, draws := (s.framingStep p).draws })

/-! ### Whole-machine rules -/

/-- The invariant of the machine (10 R16, R19, R42, R43; 43 R199) is kept by every step, from every state that
meets it. -/
def Obligations.StepKeepsInv : Prop :=
  ∀ s t : State, s.Inv → step s = .next t → t.Inv

/-- The machine after reset meets the invariant. The values of the registers are the model's choice (log entry 3:
the family's). -/
def Obligations.ResetMeetsInv : Prop := State.reset.Inv

/-- R7: no step changes an implementation parameter. -/
def Obligations.StepKeepsParams : Prop :=
  ∀ s t : State, step s = .next t → t.cfg = s.cfg

/-- 42 R161 (the spec marks it derived): no step leads straight from ActiveReceive to ActiveTransmit or back. -/
def Obligations.StandbyNeverBypassed : Prop :=
  ∀ s t : State, s.Inv → step s = .next t →
    ¬ (s.mode = .activeReceive ∧ t.mode = .activeTransmit) ∧
    ¬ (s.mode = .activeTransmit ∧ t.mode = .activeReceive)

/-- 10 R25: the event bits are set only by the sequencer and Air and cleared only by a `WREG` of `STATUS` with a 1
in their position and by `POR`. -/
def Obligations.EventBitsOwners : Prop :=
  (∀ (i : Instr) (s t : State), exec i s = .next t →
    (t.rxDr = true → s.rxDr = true) ∧ (t.txDs = true → s.txDs = true) ∧ (t.maxRt = true → s.maxRt = true) ∧
    (t.rxDr ≠ s.rxDr ∨ t.txDs ≠ s.txDs ∨ t.maxRt ≠ s.maxRt →
      i = .por ∨ ∃ a v, i = .wreg a [v] ∧ regAt s.cfg.regMap a = some .status ∧
        (t.rxDr ≠ s.rxDr → v.getLsbD 6 = true) ∧ (t.txDs ≠ s.txDs → v.getLsbD 5 = true) ∧
        (t.maxRt ≠ s.maxRt → v.getLsbD 4 = true))) ∧
  ∀ (s t : State) (k : AirPacket) (payload : Option (List Byte)) (p : Pipe),
    t ∈ [s.sequencerStep, s.ackStep payload, s.timeoutStep, s.offerStep k, s.framingStep p] →
      (s.rxDr = true → t.rxDr = true) ∧ (s.txDs = true → t.txDs = true) ∧ (s.maxRt = true → t.maxRt = true)

/-- 43 R188 (the spec marks it derived): whatever Air answers, a burst ends after at most `ARC + 1` attempts, with
exactly one of data-sent newly raised and the packet gone, or max-retries raised and the packet kept. -/
def Obligations.BurstEnds : Prop :=
  ∀ (s : State) (answers : List Answer), s.Inv → s.seq = .txOnAir 0 → answers.length = s.field .arc + 1 →
    let t := burst answers s
    t.seq = .idle ∧ t.emitted.length ≤ s.emitted.length + (s.field .arc + 1) ∧
    ((t.maxRt = false ∧ t.txDs = true ∧ t.txf = s.txf.eraseP TxEntry.isData) ∨
     (t.maxRt = true ∧ t.txDs = s.txDs ∧ t.txf = s.txf))

/-- 42 R162, R163 with 41 R139, R153, 70 R255: the sequencer leaves a burst by its end (data-sent set and the packet
gone, or max-retries set and the packet kept: 43 R183, R185, R187), by a flush, by a power-down or by `POR`, the last
three with no event bit set; the mode then is Standby, or PowerDown after the last two. -/
def Obligations.LeavingTransmit : Prop :=
  ∀ s t : State, s.Inv → step s = .next t → s.mode = .activeTransmit → t.mode ≠ .activeTransmit →
    let events := t.rxDr = s.rxDr ∧ t.txDs = s.txDs ∧ t.maxRt = s.maxRt
    t.seq = .idle ∧ t.retry = 0 ∧
    (t.mode = .standby ∧
        (t.txDs = true ∧ t.maxRt = s.maxRt ∧ t.txf = s.txf.eraseP TxEntry.isData ∨
         t.maxRt = true ∧ t.txDs = s.txDs ∧ t.rxDr = s.rxDr ∧ t.txf = s.txf ∨
         t.txf = [] ∧ events) ∨
     t.mode = .powerDown ∧
        (t.txf = s.txf ∧ events ∨
         t.regs = s.cfg.resetVals ∧ t.txf = [] ∧ t.rxDr = false ∧ t.txDs = false ∧ t.maxRt = false))

/-! ### Driver operations (44_driver_operations.md) -/

/-- R205, R206, 70 R278: the pump, in the normal context or in the interrupt context, reads the status byte; if it is
not 0 it writes it back, which clears exactly the events it read, and sets the EventFlags they stand for; on
max-retries it flushes the TX FIFO. The other context stays where it is. -/
def Obligations.PumpHandlesEvents : Prop :=
  ∀ (s : State) (irq : Bool) (rest : List DriverFrame), s.Ready → LegalParams s.cfg →
    (irq = false → s.irqThread = []) → s.program irq = .pumpRead :: rest →
    let ended (t : State) := t.program irq = rest ∧ t.program (!irq) = s.program (!irq)
    (s.status = 0x00 → ∃ t, driverStep s = .next t ∧ ended t ∧ t.ev = s.ev) ∧
    (s.status ≠ 0x00 → ∃ t u, driverStep s = .next t ∧ driverStep t = .next u ∧
      u.rxDr = false ∧ u.txDs = false ∧ u.maxRt = false ∧
      u.ev = { dataReceived := s.ev.dataReceived || s.rxDr
               transmitAcknowledged := s.ev.transmitAcknowledged || s.txDs
               maxRetriesReached := s.ev.maxRetriesReached || s.maxRt } ∧
      (s.maxRt = false → ended u ∧ u.txf = s.txf) ∧
      (s.maxRt = true → ∃ v, driverStep u = .next v ∧ v.txf = [] ∧ ended v ∧ v.ev = u.ev))

/-- R209: an operation called in PowerDown faults. R218: a record that breaks the constraint or has a field out of its
range is rejected and the chip is not touched; any other clears the EventFlags and goes on, in Standby or PowerDown with
the pin low (R219), and says of each pipe whether it is dynamic and which static length it has (R212; log entry 29,
DESIGN CHOICE); so a `pipe1Address` of another length is accepted (log entry 26, DESIGN CHOICE). A call while an
operation runs is refused (00 R6; that it is a refusal is log entry 14, DESIGN CHOICE).
R208 step 1: `transmit` with three entries queued makes one `NOP` and returns `FifoFull`, the chip as it was; steps 4
and 5, R210, R211: its wait ends on a flag, data-sent tested first, and has no timeout; after a pulse that found
max-retries set the parameter `staleMaxRt` says whether it is that wait or 70 R270's, which nothing ends (log entry 28,
DESIGN CHOICE). -/
def Obligations.OperationGuards : Prop :=
  (∀ (s : State) (rest : List DriverFrame) (bytes : List Byte) (ackReq : Bool) (p : Pipe),
    s.irqThread = [] → s.drvState = .powerDown →
    (s.thread = .txStart bytes ackReq :: rest → driverStep s = .fault (.driverMisuse .transmit)) ∧
    (s.thread = .modeStart .enterReceive :: rest → driverStep s = .fault (.driverMisuse .enterReceiveMode)) ∧
    (s.thread = .modeStart .enterTransmit :: rest → driverStep s = .fault (.driverMisuse .enterTransmitMode)) ∧
    (s.thread = .ackPayload p bytes :: rest → driverStep s = .fault (.driverMisuse .setAckPayload))) ∧
  (∀ (s : State) (rest : List DriverFrame) (r : InitRecord), s.irqThread = [] → s.thread = .initStart r :: rest →
    let bad := r.ackPayload = true ∧ r.dynamicPayload = false ∨ r.addrWidth < 3 ∨ 5 < r.addrWidth ∨
      15 < r.retransmitCount ∨ 127 < r.channel ∨ r.ownAddr.length ≠ r.addrWidth
    (bad → driverStep s = .next { s with thread := rest, opResult := some (.initError .constraintViolation) }) ∧
    (¬ bad → s.ce = false → (s.mode = .standby ∨ s.mode = .powerDown) →
      ∃ t, driverStep s = .next t ∧ (∃ f g, t.thread = f :: g :: rest) ∧
        t = { s with
          thread := t.thread, drvPipes := t.drvPipes
          ev := { dataReceived := false, transmitAcknowledged := false, maxRetriesReached := false } } ∧
        ∀ p : Pipe,
          ((t.drvPipes.get p).dynamic = true ↔ r.dynamicPayload = true ∧ p ∈ r.pipesInUse) ∧
          (t.drvPipes.get p).staticLen =
            if r.dynamicPayload = false ∧ p ∈ r.pipesInUse then
              BitVec.ofNat 8 (fieldOf s.cfg.regMap (.rxPwLen p) r.staticLength)
            else (s.drvPipes.get p).staticLen)) ∧
  (∀ (s : State) (c : DriverCall), s.thread ≠ [] → callStep c s = .refused .driverBusy) ∧
  (∀ (s : State) (rest : List DriverFrame), s.irqThread = [] → s.thread = .txWait :: rest →
    (s.ev.transmitAcknowledged = true →
      driverStep s =
        .next { s with
          thread := rest, drvState := .standby, opResult := some .success
          ev := { s.ev with transmitAcknowledged := false } }) ∧
    (s.ev.transmitAcknowledged = false → s.ev.maxRetriesReached = true →
      driverStep s =
        .next { s with
          thread := rest, drvState := .standby, opResult := some .maxRetriesExceeded
          ev := { s.ev with maxRetriesReached := false } }) ∧
    (s.ev.transmitAcknowledged = false → s.ev.maxRetriesReached = false →
      driverStep s =
        .next { s with
          thread := match s.cfg.pumpCaller with
            | .polled => .pumpRead :: .txWait :: rest
            | .interrupt => .txWait :: rest })) ∧
  (∀ (s : State) (rest : List DriverFrame), s.irqThread = [] → s.thread = .txStuck :: rest →
    driverStep s =
      .next { s with
        thread := match s.cfg.pumpCaller with
          | .polled => .pumpRead :: .txStuck :: rest
          | .interrupt => .txStuck :: rest }) ∧
  (∀ (s t : State) (rest : List DriverFrame), s.irqThread = [] → s.thread = .txLower :: rest →
    driverStep s = .next t → ∃ u, exec .cel s = .next u ∧
      t = { u with
        thread :=
          (if s.maxRt = true ∧ s.cfg.staleMaxRt = .waitsForEver then .txStuck else .txWait) :: rest }) ∧
  ∀ (s : State) (rest : List DriverFrame) (bytes : List Byte) (ackReq : Bool), s.Ready → s.irqThread = [] →
    s.thread = .txProbe bytes ackReq :: rest → s.txf.length = 3 →
    driverStep s =
      .next { s with
        thread := rest, opResult := some .fifoFull, reply := { status := s.status, data := [] }
        ev := { s.ev with transmitAcknowledged := false, maxRetriesReached := false } }

/-- R240, R241, R244: where the interrupt-context pump is entered, and that no host step, call or abandoned wait of
the normal context comes between two of its steps (that such a turn waits is log entry 1), while a `POR` does (70 R255;
log entry 34, DESIGN CHOICE); R209, R210: an abandoned
wait ends `transmit` with no result and the driver's record in Standby (log entry 15). The laws of the host side hold
after reset and are kept by every step: ActiveTransmit is the driver's record only inside `transmit`, and a running
interrupt-context pump is a pump, in interrupt mode, at a point R241 allows. -/
def Obligations.HostContexts : Prop :=
  (∀ s : State,
    let may := s.cfg.pumpCaller = .interrupt ∧ s.irqLine = false ∧ s.irqThread = [] ∧
      (s.thread = [] ∨ ∃ f rest, s.thread = f :: rest ∧ (f = .txWait ∨ f = .txStuck))
    (may → s.irqStep = { s with irqThread := [.pumpRead] }) ∧ (¬ may → s.irqStep = s)) ∧
  (∀ (s : State) (a : Turn) (rest : List Turn), s.fault = none → s.irqThread ≠ [] → s.agenda = a :: rest →
    ((∃ f, a = .host f ∧ f ≠ .por) ∨ (∃ c, a = .call c) ∨ a = .abandon) → step s = driverStep s) ∧
  (∀ (s : State) (rest : List Turn), s.fault = none → s.agenda = .host .por :: rest →
    ∃ t, step s = .next t ∧ t.thread = s.thread ∧ t.irqThread = s.irqThread ∧ t.drvState = s.drvState ∧
      t.ev = s.ev ∧ t.agenda = rest ∧ t.regs = s.cfg.resetVals ∧ t.settleUs = s.cfg.tPor) ∧
  (∀ (s : State) (f : DriverFrame) (rest : List DriverFrame), s.thread = f :: rest → f = .txWait ∨ f = .txStuck →
    s.abandonStep = { s with thread := [], opResult := none, drvState := .standby }) ∧
  State.reset.HostOk ∧ ∀ s t : State, s.HostOk → step s = .next t → t.HostOk

/-- R203, in the form of the composition that is log entry 18's (DEDUCED) and entry 30's (DESIGN CHOICE): a turn of an
instance puts each packet it emits in flight once, in order, under the next attempt number and with its identity paired
with the sender, and no other event does. A delivery needs a shared channel, takes its packet out of flight, offers it
to the peer, changes no packet else and leaves the sender alone; each acknowledgment the peer emits for it gets in
flight once, for the attempt of that packet, and no other event puts one in flight. An acknowledgment is given once, and
only to the attempt it answers, the sender's latest, under the address the sender awaits. What is lost is taken out of
flight and changes nothing else. -/
def Obligations.DeliveryTakesFlight : Prop :=
  (∀ (w v : Pair) (x : Side) (t : Turn), pairStep (.turn x t) w = some v →
    let sent := packetsOf (newEmissions (w.inst x) (v.inst x))
    v.inst x = afterTurn t (w.inst x) ∧ v.inst x.peer = w.inst x.peer ∧
    v.attempts x = w.attempts x + sent.length ∧ v.attempts x.peer = w.attempts x.peer ∧ v.acks = w.acks ∧
    v.packets = w.packets ++ sent.mapIdx fun j k =>
      { sender := x, attempt := w.attempts x + j + 1
        frame := { k with id := { sender := x.number, serial := k.id.serial } } }) ∧
  (∀ (w v : Pair) (i : Nat), pairStep (.deliver i) w = some v →
    w.sharesChannel = true ∧
    ∃ f, w.packets[i]? = some f ∧ v.packets = w.packets.eraseIdx i ∧ v.inst f.sender = w.inst f.sender ∧
      v.inst f.sender.peer = afterTurn (.offer f.frame) (w.inst f.sender.peer) ∧
      (∀ x, v.attempts x = w.attempts x) ∧
      v.acks = w.acks ++ (acksOf (newEmissions (w.inst f.sender.peer) (v.inst f.sender.peer))).map fun a =>
        { receiver := f.sender, attempt := f.attempt, frame := a }) ∧
  (∀ (w v : Pair) (e : PairEvent), pairStep e w = some v → ∀ f ∈ v.packets, f ∈ w.packets ∨
    ∃ (t : Turn) (k : AirPacket), e = .turn f.sender t ∧
      .packet k ∈ newEmissions (w.inst f.sender) (v.inst f.sender) ∧
      f.frame = { k with id := { sender := f.sender.number, serial := k.id.serial } }) ∧
  (∀ (w v : Pair) (e : PairEvent), pairStep e w = some v → ∀ f ∈ v.acks, f ∈ w.acks ∨
    ∃ (i : Nat) (p : PacketFlight), e = .deliver i ∧ w.packets[i]? = some p ∧
      f.receiver = p.sender ∧ f.attempt = p.attempt ∧
      .ack f.frame ∈ newEmissions (w.inst p.sender.peer) (v.inst p.sender.peer)) ∧
  (∀ (w v : Pair) (i : Nat),
    (pairStep (.lose i) w = some v → v = { w with packets := w.packets.eraseIdx i }) ∧
    (pairStep (.loseAck i) w = some v → v = { w with acks := w.acks.eraseIdx i })) ∧
  ∀ (w v : Pair) (i : Nat), pairStep (.answer i) w = some v →
    w.sharesChannel = true ∧
    ∃ f, w.acks[i]? = some f ∧ v.acks = w.acks.eraseIdx i ∧ f.attempt = w.attempts f.receiver ∧
      f.frame.addr = (w.inst f.receiver).txAddrBytes ∧
      v.inst f.receiver = afterTurn (.ack f.frame.payload) (w.inst f.receiver) ∧
      v.inst f.receiver.peer = w.inst f.receiver.peer ∧ v.packets = w.packets ∧ ∀ x, v.attempts x = w.attempts x
end

