-- ==== Sys2Proof/Laws/Composition.lean ====
section
/-! SUPPORT. What the composition of two instances does with what a step emits. -/
namespace Sys2Proof.Machine

@[simp] theorem packetsOf_nil : packetsOf [] = [] := rfl
@[simp] theorem packetsOf_packet (k : AirPacket) (es : List Emission) :
    packetsOf (.packet k :: es) = k :: packetsOf es := rfl
@[simp] theorem packetsOf_ack (f : AckFrame) (es : List Emission) : packetsOf (.ack f :: es) = packetsOf es := rfl

@[simp] theorem acksOf_nil : acksOf [] = [] := rfl
@[simp] theorem acksOf_packet (k : AirPacket) (es : List Emission) : acksOf (.packet k :: es) = acksOf es := rfl
@[simp] theorem acksOf_ack (f : AckFrame) (es : List Emission) : acksOf (.ack f :: es) = f :: acksOf es := rfl

/-- What a packet of side `x` is in flight, as attempt `n`. -/
def flightOf (x : Side) (n : Nat) (k : AirPacket) : PacketFlight :=
  { sender := x, attempt := n, frame := { k with id := { sender := x.number, serial := k.id.serial } } }

/-- Everything `launch` does: each packet is in flight once, under the next attempt numbers of its side. -/
theorem launch_spec (x : Side) (es : List Emission) (w : Pair) :
    (w.launch x es).packets =
        w.packets ++ (packetsOf es).mapIdx (fun j k => flightOf x (w.attempts x + j + 1) k) ∧
      (w.launch x es).attempts x = w.attempts x + (packetsOf es).length ∧
      (w.launch x es).attempts x.peer = w.attempts x.peer ∧
      (∀ y, (w.launch x es).inst y = w.inst y) ∧ (w.launch x es).acks = w.acks := by
  induction es generalizing w with
  | nil => simp [Pair.launch]
  | cons e es ih =>
    cases e with
    | ack f => exact ih w
    | packet k =>
      obtain ⟨hp, ha, hq, hi, hk⟩ :=
        ih { w.countAttempt x with packets := w.packets ++ [flightOf x (w.attempts x + 1) k] }
      refine ⟨hp.trans ?_, ha.trans ?_, hq.trans ?_, fun y => (hi y).trans ?_, hk.trans ?_⟩
      · cases x <;> simp [Pair.attempts, Pair.countAttempt, List.mapIdx_cons, Nat.add_assoc, Nat.add_comm 1]
      · cases x <;> simp [Pair.attempts, Pair.countAttempt, Nat.add_assoc, Nat.add_comm 1]
      · cases x <;> rfl
      · cases x <;> cases y <;> rfl
      · cases x <;> rfl

/-- Everything `launchAcks` does: each acknowledgment is in flight once, for the attempt it answers. -/
theorem launchAcks_spec (x : Side) (n : Nat) (es : List Emission) (w : Pair) :
    w.launchAcks x n es =
      { w with acks := w.acks ++ (acksOf es).map fun f => { receiver := x, attempt := n, frame := f } } := by
  induction es generalizing w with
  | nil => simp [Pair.launchAcks]
  | cons e es ih => cases e <;> simp [Pair.launchAcks, ih]

end Sys2Proof.Machine
end

