-- ==== Sys2Proof/Laws/State.lean ====
section
/-! SUPPORT. What each named update of the state does to each field, one simp lemma a field, so that no later
proof unfolds an update. -/
namespace Sys2Proof.Machine

variable (s : State)

/-! ### `State.sampled` -/
@[simp] theorem State.sampled_cfg : s.sampled.cfg = s.cfg := rfl
@[simp] theorem State.sampled_regs : s.sampled.regs = s.regs := rfl
@[simp] theorem State.sampled_rxDr : s.sampled.rxDr = s.rxDr := rfl
@[simp] theorem State.sampled_txDs : s.sampled.txDs = s.txDs := rfl
@[simp] theorem State.sampled_maxRt : s.sampled.maxRt = s.maxRt := rfl
@[simp] theorem State.sampled_txf : s.sampled.txf = s.txf := rfl
@[simp] theorem State.sampled_rxf : s.sampled.rxf = s.rxf := rfl
@[simp] theorem State.sampled_ce : s.sampled.ce = s.ce := rfl
@[simp] theorem State.sampled_seq : s.sampled.seq = s.seq := rfl
@[simp] theorem State.sampled_retry : s.sampled.retry = s.retry := rfl
@[simp] theorem State.sampled_txTrigger : s.sampled.txTrigger = s.txTrigger := rfl
@[simp] theorem State.sampled_pulseUsed : s.sampled.pulseUsed = s.pulseUsed := rfl
@[simp] theorem State.sampled_settleUs : s.sampled.settleUs = s.settleUs := rfl
@[simp] theorem State.sampled_ceHighUs : s.sampled.ceHighUs = s.ceHighUs := rfl
@[simp] theorem State.sampled_nextId : s.sampled.nextId = s.nextId := rfl
@[simp] theorem State.sampled_lastRxId : s.sampled.lastRxId = s.lastRxId := rfl
@[simp] theorem State.sampled_featureLocked : s.sampled.featureLocked = s.featureLocked := rfl
@[simp] theorem State.sampled_bank : s.sampled.bank = s.bank := rfl
@[simp] theorem State.sampled_tune : s.sampled.tune = s.tune := rfl
@[simp] theorem State.sampled_fault : s.sampled.fault = s.fault := rfl
@[simp] theorem State.sampled_ev : s.sampled.ev = s.ev := rfl
@[simp] theorem State.sampled_drvState : s.sampled.drvState = s.drvState := rfl
@[simp] theorem State.sampled_drvPipes : s.sampled.drvPipes = s.drvPipes := rfl
@[simp] theorem State.sampled_thread : s.sampled.thread = s.thread := rfl
@[simp] theorem State.sampled_irqThread : s.sampled.irqThread = s.irqThread := rfl
@[simp] theorem State.sampled_opResult : s.sampled.opResult = s.opResult := rfl
@[simp] theorem State.sampled_reply : s.sampled.reply = { status := s.status, data := [] } := rfl
@[simp] theorem State.sampled_emitted : s.sampled.emitted = s.emitted := rfl
@[simp] theorem State.sampled_draws : s.sampled.draws = s.draws := rfl
@[simp] theorem State.sampled_agenda : s.sampled.agenda = s.agenda := rfl

/-! ### `State.replyData` -/
@[simp] theorem State.replyData_cfg (d : List Byte) : (s.replyData d).cfg = s.cfg := rfl
@[simp] theorem State.replyData_regs (d : List Byte) : (s.replyData d).regs = s.regs := rfl
@[simp] theorem State.replyData_rxDr (d : List Byte) : (s.replyData d).rxDr = s.rxDr := rfl
@[simp] theorem State.replyData_txDs (d : List Byte) : (s.replyData d).txDs = s.txDs := rfl
@[simp] theorem State.replyData_maxRt (d : List Byte) : (s.replyData d).maxRt = s.maxRt := rfl
@[simp] theorem State.replyData_txf (d : List Byte) : (s.replyData d).txf = s.txf := rfl
@[simp] theorem State.replyData_rxf (d : List Byte) : (s.replyData d).rxf = s.rxf := rfl
@[simp] theorem State.replyData_ce (d : List Byte) : (s.replyData d).ce = s.ce := rfl
@[simp] theorem State.replyData_seq (d : List Byte) : (s.replyData d).seq = s.seq := rfl
@[simp] theorem State.replyData_retry (d : List Byte) : (s.replyData d).retry = s.retry := rfl
@[simp] theorem State.replyData_txTrigger (d : List Byte) : (s.replyData d).txTrigger = s.txTrigger := rfl
@[simp] theorem State.replyData_pulseUsed (d : List Byte) : (s.replyData d).pulseUsed = s.pulseUsed := rfl
@[simp] theorem State.replyData_settleUs (d : List Byte) : (s.replyData d).settleUs = s.settleUs := rfl
@[simp] theorem State.replyData_ceHighUs (d : List Byte) : (s.replyData d).ceHighUs = s.ceHighUs := rfl
@[simp] theorem State.replyData_nextId (d : List Byte) : (s.replyData d).nextId = s.nextId := rfl
@[simp] theorem State.replyData_lastRxId (d : List Byte) : (s.replyData d).lastRxId = s.lastRxId := rfl
@[simp] theorem State.replyData_featureLocked (d : List Byte) : (s.replyData d).featureLocked = s.featureLocked := rfl
@[simp] theorem State.replyData_bank (d : List Byte) : (s.replyData d).bank = s.bank := rfl
@[simp] theorem State.replyData_tune (d : List Byte) : (s.replyData d).tune = s.tune := rfl
@[simp] theorem State.replyData_fault (d : List Byte) : (s.replyData d).fault = s.fault := rfl
@[simp] theorem State.replyData_ev (d : List Byte) : (s.replyData d).ev = s.ev := rfl
@[simp] theorem State.replyData_drvState (d : List Byte) : (s.replyData d).drvState = s.drvState := rfl
@[simp] theorem State.replyData_drvPipes (d : List Byte) : (s.replyData d).drvPipes = s.drvPipes := rfl
@[simp] theorem State.replyData_thread (d : List Byte) : (s.replyData d).thread = s.thread := rfl
@[simp] theorem State.replyData_irqThread (d : List Byte) : (s.replyData d).irqThread = s.irqThread := rfl
@[simp] theorem State.replyData_opResult (d : List Byte) : (s.replyData d).opResult = s.opResult := rfl
@[simp] theorem State.replyData_reply (d : List Byte) : (s.replyData d).reply = { status := s.reply.status, data := d } := rfl
@[simp] theorem State.replyData_emitted (d : List Byte) : (s.replyData d).emitted = s.emitted := rfl
@[simp] theorem State.replyData_draws (d : List Byte) : (s.replyData d).draws = s.draws := rfl
@[simp] theorem State.replyData_agenda (d : List Byte) : (s.replyData d).agenda = s.agenda := rfl

/-! ### `State.drew` -/
@[simp] theorem State.drew_cfg (n : Nat) : (s.drew n).cfg = s.cfg := rfl
@[simp] theorem State.drew_regs (n : Nat) : (s.drew n).regs = s.regs := rfl
@[simp] theorem State.drew_rxDr (n : Nat) : (s.drew n).rxDr = s.rxDr := rfl
@[simp] theorem State.drew_txDs (n : Nat) : (s.drew n).txDs = s.txDs := rfl
@[simp] theorem State.drew_maxRt (n : Nat) : (s.drew n).maxRt = s.maxRt := rfl
@[simp] theorem State.drew_txf (n : Nat) : (s.drew n).txf = s.txf := rfl
@[simp] theorem State.drew_rxf (n : Nat) : (s.drew n).rxf = s.rxf := rfl
@[simp] theorem State.drew_ce (n : Nat) : (s.drew n).ce = s.ce := rfl
@[simp] theorem State.drew_seq (n : Nat) : (s.drew n).seq = s.seq := rfl
@[simp] theorem State.drew_retry (n : Nat) : (s.drew n).retry = s.retry := rfl
@[simp] theorem State.drew_txTrigger (n : Nat) : (s.drew n).txTrigger = s.txTrigger := rfl
@[simp] theorem State.drew_pulseUsed (n : Nat) : (s.drew n).pulseUsed = s.pulseUsed := rfl
@[simp] theorem State.drew_settleUs (n : Nat) : (s.drew n).settleUs = s.settleUs := rfl
@[simp] theorem State.drew_ceHighUs (n : Nat) : (s.drew n).ceHighUs = s.ceHighUs := rfl
@[simp] theorem State.drew_nextId (n : Nat) : (s.drew n).nextId = s.nextId := rfl
@[simp] theorem State.drew_lastRxId (n : Nat) : (s.drew n).lastRxId = s.lastRxId := rfl
@[simp] theorem State.drew_featureLocked (n : Nat) : (s.drew n).featureLocked = s.featureLocked := rfl
@[simp] theorem State.drew_bank (n : Nat) : (s.drew n).bank = s.bank := rfl
@[simp] theorem State.drew_tune (n : Nat) : (s.drew n).tune = s.tune := rfl
@[simp] theorem State.drew_fault (n : Nat) : (s.drew n).fault = s.fault := rfl
@[simp] theorem State.drew_ev (n : Nat) : (s.drew n).ev = s.ev := rfl
@[simp] theorem State.drew_drvState (n : Nat) : (s.drew n).drvState = s.drvState := rfl
@[simp] theorem State.drew_drvPipes (n : Nat) : (s.drew n).drvPipes = s.drvPipes := rfl
@[simp] theorem State.drew_thread (n : Nat) : (s.drew n).thread = s.thread := rfl
@[simp] theorem State.drew_irqThread (n : Nat) : (s.drew n).irqThread = s.irqThread := rfl
@[simp] theorem State.drew_opResult (n : Nat) : (s.drew n).opResult = s.opResult := rfl
@[simp] theorem State.drew_reply (n : Nat) : (s.drew n).reply = s.reply := rfl
@[simp] theorem State.drew_emitted (n : Nat) : (s.drew n).emitted = s.emitted := rfl
@[simp] theorem State.drew_draws (n : Nat) : (s.drew n).draws = s.draws + n := rfl
@[simp] theorem State.drew_agenda (n : Nat) : (s.drew n).agenda = s.agenda := rfl

/-! ### `State.replyDrawn` -/
@[simp] theorem State.replyDrawn_cfg (n : Nat) : (s.replyDrawn n).cfg = s.cfg := rfl
@[simp] theorem State.replyDrawn_regs (n : Nat) : (s.replyDrawn n).regs = s.regs := rfl
@[simp] theorem State.replyDrawn_rxDr (n : Nat) : (s.replyDrawn n).rxDr = s.rxDr := rfl
@[simp] theorem State.replyDrawn_txDs (n : Nat) : (s.replyDrawn n).txDs = s.txDs := rfl
@[simp] theorem State.replyDrawn_maxRt (n : Nat) : (s.replyDrawn n).maxRt = s.maxRt := rfl
@[simp] theorem State.replyDrawn_txf (n : Nat) : (s.replyDrawn n).txf = s.txf := rfl
@[simp] theorem State.replyDrawn_rxf (n : Nat) : (s.replyDrawn n).rxf = s.rxf := rfl
@[simp] theorem State.replyDrawn_ce (n : Nat) : (s.replyDrawn n).ce = s.ce := rfl
@[simp] theorem State.replyDrawn_seq (n : Nat) : (s.replyDrawn n).seq = s.seq := rfl
@[simp] theorem State.replyDrawn_retry (n : Nat) : (s.replyDrawn n).retry = s.retry := rfl
@[simp] theorem State.replyDrawn_txTrigger (n : Nat) : (s.replyDrawn n).txTrigger = s.txTrigger := rfl
@[simp] theorem State.replyDrawn_pulseUsed (n : Nat) : (s.replyDrawn n).pulseUsed = s.pulseUsed := rfl
@[simp] theorem State.replyDrawn_settleUs (n : Nat) : (s.replyDrawn n).settleUs = s.settleUs := rfl
@[simp] theorem State.replyDrawn_ceHighUs (n : Nat) : (s.replyDrawn n).ceHighUs = s.ceHighUs := rfl
@[simp] theorem State.replyDrawn_nextId (n : Nat) : (s.replyDrawn n).nextId = s.nextId := rfl
@[simp] theorem State.replyDrawn_lastRxId (n : Nat) : (s.replyDrawn n).lastRxId = s.lastRxId := rfl
@[simp] theorem State.replyDrawn_featureLocked (n : Nat) : (s.replyDrawn n).featureLocked = s.featureLocked := rfl
@[simp] theorem State.replyDrawn_bank (n : Nat) : (s.replyDrawn n).bank = s.bank := rfl
@[simp] theorem State.replyDrawn_tune (n : Nat) : (s.replyDrawn n).tune = s.tune := rfl
@[simp] theorem State.replyDrawn_fault (n : Nat) : (s.replyDrawn n).fault = s.fault := rfl
@[simp] theorem State.replyDrawn_ev (n : Nat) : (s.replyDrawn n).ev = s.ev := rfl
@[simp] theorem State.replyDrawn_drvState (n : Nat) : (s.replyDrawn n).drvState = s.drvState := rfl
@[simp] theorem State.replyDrawn_drvPipes (n : Nat) : (s.replyDrawn n).drvPipes = s.drvPipes := rfl
@[simp] theorem State.replyDrawn_thread (n : Nat) : (s.replyDrawn n).thread = s.thread := rfl
@[simp] theorem State.replyDrawn_irqThread (n : Nat) : (s.replyDrawn n).irqThread = s.irqThread := rfl
@[simp] theorem State.replyDrawn_opResult (n : Nat) : (s.replyDrawn n).opResult = s.opResult := rfl
@[simp] theorem State.replyDrawn_reply (n : Nat) : (s.replyDrawn n).reply = { status := s.reply.status, data := s.drawnBytes n } := rfl
@[simp] theorem State.replyDrawn_emitted (n : Nat) : (s.replyDrawn n).emitted = s.emitted := rfl
@[simp] theorem State.replyDrawn_draws (n : Nat) : (s.replyDrawn n).draws = s.draws + n := rfl
@[simp] theorem State.replyDrawn_agenda (n : Nat) : (s.replyDrawn n).agenda = s.agenda := rfl

/-! ### `State.pushTx` -/
@[simp] theorem State.pushTx_cfg (k : EntryKind) (b : List Byte) (q : Bool) : (s.pushTx k b q).cfg = s.cfg := rfl
@[simp] theorem State.pushTx_regs (k : EntryKind) (b : List Byte) (q : Bool) : (s.pushTx k b q).regs = s.regs := rfl
@[simp] theorem State.pushTx_rxDr (k : EntryKind) (b : List Byte) (q : Bool) : (s.pushTx k b q).rxDr = s.rxDr := rfl
@[simp] theorem State.pushTx_txDs (k : EntryKind) (b : List Byte) (q : Bool) : (s.pushTx k b q).txDs = s.txDs := rfl
@[simp] theorem State.pushTx_maxRt (k : EntryKind) (b : List Byte) (q : Bool) : (s.pushTx k b q).maxRt = s.maxRt := rfl
@[simp] theorem State.pushTx_txf (k : EntryKind) (b : List Byte) (q : Bool) : (s.pushTx k b q).txf = s.txf ++ [{ kind := k, bytes := b, ackReq := q, id := s.nextId }] := rfl
@[simp] theorem State.pushTx_rxf (k : EntryKind) (b : List Byte) (q : Bool) : (s.pushTx k b q).rxf = s.rxf := rfl
@[simp] theorem State.pushTx_ce (k : EntryKind) (b : List Byte) (q : Bool) : (s.pushTx k b q).ce = s.ce := rfl
@[simp] theorem State.pushTx_seq (k : EntryKind) (b : List Byte) (q : Bool) : (s.pushTx k b q).seq = s.seq := rfl
@[simp] theorem State.pushTx_retry (k : EntryKind) (b : List Byte) (q : Bool) : (s.pushTx k b q).retry = s.retry := rfl
@[simp] theorem State.pushTx_txTrigger (k : EntryKind) (b : List Byte) (q : Bool) : (s.pushTx k b q).txTrigger = s.txTrigger := rfl
@[simp] theorem State.pushTx_pulseUsed (k : EntryKind) (b : List Byte) (q : Bool) : (s.pushTx k b q).pulseUsed = s.pulseUsed := rfl
@[simp] theorem State.pushTx_settleUs (k : EntryKind) (b : List Byte) (q : Bool) : (s.pushTx k b q).settleUs = s.settleUs := rfl
@[simp] theorem State.pushTx_ceHighUs (k : EntryKind) (b : List Byte) (q : Bool) : (s.pushTx k b q).ceHighUs = s.ceHighUs := rfl
@[simp] theorem State.pushTx_nextId (k : EntryKind) (b : List Byte) (q : Bool) : (s.pushTx k b q).nextId = s.nextId + 1 := rfl
@[simp] theorem State.pushTx_lastRxId (k : EntryKind) (b : List Byte) (q : Bool) : (s.pushTx k b q).lastRxId = s.lastRxId := rfl
@[simp] theorem State.pushTx_featureLocked (k : EntryKind) (b : List Byte) (q : Bool) : (s.pushTx k b q).featureLocked = s.featureLocked := rfl
@[simp] theorem State.pushTx_bank (k : EntryKind) (b : List Byte) (q : Bool) : (s.pushTx k b q).bank = s.bank := rfl
@[simp] theorem State.pushTx_tune (k : EntryKind) (b : List Byte) (q : Bool) : (s.pushTx k b q).tune = s.tune := rfl
@[simp] theorem State.pushTx_fault (k : EntryKind) (b : List Byte) (q : Bool) : (s.pushTx k b q).fault = s.fault := rfl
@[simp] theorem State.pushTx_ev (k : EntryKind) (b : List Byte) (q : Bool) : (s.pushTx k b q).ev = s.ev := rfl
@[simp] theorem State.pushTx_drvState (k : EntryKind) (b : List Byte) (q : Bool) : (s.pushTx k b q).drvState = s.drvState := rfl
@[simp] theorem State.pushTx_drvPipes (k : EntryKind) (b : List Byte) (q : Bool) : (s.pushTx k b q).drvPipes = s.drvPipes := rfl
@[simp] theorem State.pushTx_thread (k : EntryKind) (b : List Byte) (q : Bool) : (s.pushTx k b q).thread = s.thread := rfl
@[simp] theorem State.pushTx_irqThread (k : EntryKind) (b : List Byte) (q : Bool) : (s.pushTx k b q).irqThread = s.irqThread := rfl
@[simp] theorem State.pushTx_opResult (k : EntryKind) (b : List Byte) (q : Bool) : (s.pushTx k b q).opResult = s.opResult := rfl
@[simp] theorem State.pushTx_reply (k : EntryKind) (b : List Byte) (q : Bool) : (s.pushTx k b q).reply = s.reply := rfl
@[simp] theorem State.pushTx_emitted (k : EntryKind) (b : List Byte) (q : Bool) : (s.pushTx k b q).emitted = s.emitted := rfl
@[simp] theorem State.pushTx_draws (k : EntryKind) (b : List Byte) (q : Bool) : (s.pushTx k b q).draws = s.draws := rfl
@[simp] theorem State.pushTx_agenda (k : EntryKind) (b : List Byte) (q : Bool) : (s.pushTx k b q).agenda = s.agenda := rfl

/-! ### `State.pushRx` -/
@[simp] theorem State.pushRx_cfg (e : RxEntry) : (s.pushRx e).cfg = s.cfg := rfl
@[simp] theorem State.pushRx_regs (e : RxEntry) : (s.pushRx e).regs = s.regs := rfl
@[simp] theorem State.pushRx_rxDr (e : RxEntry) : (s.pushRx e).rxDr = true := rfl
@[simp] theorem State.pushRx_txDs (e : RxEntry) : (s.pushRx e).txDs = s.txDs := rfl
@[simp] theorem State.pushRx_maxRt (e : RxEntry) : (s.pushRx e).maxRt = s.maxRt := rfl
@[simp] theorem State.pushRx_txf (e : RxEntry) : (s.pushRx e).txf = s.txf := rfl
@[simp] theorem State.pushRx_rxf (e : RxEntry) : (s.pushRx e).rxf = s.rxf ++ [e] := rfl
@[simp] theorem State.pushRx_ce (e : RxEntry) : (s.pushRx e).ce = s.ce := rfl
@[simp] theorem State.pushRx_seq (e : RxEntry) : (s.pushRx e).seq = s.seq := rfl
@[simp] theorem State.pushRx_retry (e : RxEntry) : (s.pushRx e).retry = s.retry := rfl
@[simp] theorem State.pushRx_txTrigger (e : RxEntry) : (s.pushRx e).txTrigger = s.txTrigger := rfl
@[simp] theorem State.pushRx_pulseUsed (e : RxEntry) : (s.pushRx e).pulseUsed = s.pulseUsed := rfl
@[simp] theorem State.pushRx_settleUs (e : RxEntry) : (s.pushRx e).settleUs = s.settleUs := rfl
@[simp] theorem State.pushRx_ceHighUs (e : RxEntry) : (s.pushRx e).ceHighUs = s.ceHighUs := rfl
@[simp] theorem State.pushRx_nextId (e : RxEntry) : (s.pushRx e).nextId = s.nextId := rfl
@[simp] theorem State.pushRx_lastRxId (e : RxEntry) : (s.pushRx e).lastRxId = s.lastRxId := rfl
@[simp] theorem State.pushRx_featureLocked (e : RxEntry) : (s.pushRx e).featureLocked = s.featureLocked := rfl
@[simp] theorem State.pushRx_bank (e : RxEntry) : (s.pushRx e).bank = s.bank := rfl
@[simp] theorem State.pushRx_tune (e : RxEntry) : (s.pushRx e).tune = s.tune := rfl
@[simp] theorem State.pushRx_fault (e : RxEntry) : (s.pushRx e).fault = s.fault := rfl
@[simp] theorem State.pushRx_ev (e : RxEntry) : (s.pushRx e).ev = s.ev := rfl
@[simp] theorem State.pushRx_drvState (e : RxEntry) : (s.pushRx e).drvState = s.drvState := rfl
@[simp] theorem State.pushRx_drvPipes (e : RxEntry) : (s.pushRx e).drvPipes = s.drvPipes := rfl
@[simp] theorem State.pushRx_thread (e : RxEntry) : (s.pushRx e).thread = s.thread := rfl
@[simp] theorem State.pushRx_irqThread (e : RxEntry) : (s.pushRx e).irqThread = s.irqThread := rfl
@[simp] theorem State.pushRx_opResult (e : RxEntry) : (s.pushRx e).opResult = s.opResult := rfl
@[simp] theorem State.pushRx_reply (e : RxEntry) : (s.pushRx e).reply = s.reply := rfl
@[simp] theorem State.pushRx_emitted (e : RxEntry) : (s.pushRx e).emitted = s.emitted := rfl
@[simp] theorem State.pushRx_draws (e : RxEntry) : (s.pushRx e).draws = s.draws := rfl
@[simp] theorem State.pushRx_agenda (e : RxEntry) : (s.pushRx e).agenda = s.agenda := rfl

/-! ### `State.emit` -/
@[simp] theorem State.emit_cfg (e : Emission) : (s.emit e).cfg = s.cfg := rfl
@[simp] theorem State.emit_regs (e : Emission) : (s.emit e).regs = s.regs := rfl
@[simp] theorem State.emit_rxDr (e : Emission) : (s.emit e).rxDr = s.rxDr := rfl
@[simp] theorem State.emit_txDs (e : Emission) : (s.emit e).txDs = s.txDs := rfl
@[simp] theorem State.emit_maxRt (e : Emission) : (s.emit e).maxRt = s.maxRt := rfl
@[simp] theorem State.emit_txf (e : Emission) : (s.emit e).txf = s.txf := rfl
@[simp] theorem State.emit_rxf (e : Emission) : (s.emit e).rxf = s.rxf := rfl
@[simp] theorem State.emit_ce (e : Emission) : (s.emit e).ce = s.ce := rfl
@[simp] theorem State.emit_seq (e : Emission) : (s.emit e).seq = s.seq := rfl
@[simp] theorem State.emit_retry (e : Emission) : (s.emit e).retry = s.retry := rfl
@[simp] theorem State.emit_txTrigger (e : Emission) : (s.emit e).txTrigger = s.txTrigger := rfl
@[simp] theorem State.emit_pulseUsed (e : Emission) : (s.emit e).pulseUsed = s.pulseUsed := rfl
@[simp] theorem State.emit_settleUs (e : Emission) : (s.emit e).settleUs = s.settleUs := rfl
@[simp] theorem State.emit_ceHighUs (e : Emission) : (s.emit e).ceHighUs = s.ceHighUs := rfl
@[simp] theorem State.emit_nextId (e : Emission) : (s.emit e).nextId = s.nextId := rfl
@[simp] theorem State.emit_lastRxId (e : Emission) : (s.emit e).lastRxId = s.lastRxId := rfl
@[simp] theorem State.emit_featureLocked (e : Emission) : (s.emit e).featureLocked = s.featureLocked := rfl
@[simp] theorem State.emit_bank (e : Emission) : (s.emit e).bank = s.bank := rfl
@[simp] theorem State.emit_tune (e : Emission) : (s.emit e).tune = s.tune := rfl
@[simp] theorem State.emit_fault (e : Emission) : (s.emit e).fault = s.fault := rfl
@[simp] theorem State.emit_ev (e : Emission) : (s.emit e).ev = s.ev := rfl
@[simp] theorem State.emit_drvState (e : Emission) : (s.emit e).drvState = s.drvState := rfl
@[simp] theorem State.emit_drvPipes (e : Emission) : (s.emit e).drvPipes = s.drvPipes := rfl
@[simp] theorem State.emit_thread (e : Emission) : (s.emit e).thread = s.thread := rfl
@[simp] theorem State.emit_irqThread (e : Emission) : (s.emit e).irqThread = s.irqThread := rfl
@[simp] theorem State.emit_opResult (e : Emission) : (s.emit e).opResult = s.opResult := rfl
@[simp] theorem State.emit_reply (e : Emission) : (s.emit e).reply = s.reply := rfl
@[simp] theorem State.emit_emitted (e : Emission) : (s.emit e).emitted = s.emitted ++ [e] := rfl
@[simp] theorem State.emit_draws (e : Emission) : (s.emit e).draws = s.draws := rfl
@[simp] theorem State.emit_agenda (e : Emission) : (s.emit e).agenda = s.agenda := rfl

/-! ### `State.removeCur` -/
@[simp] theorem State.removeCur_cfg : s.removeCur.cfg = s.cfg := rfl
@[simp] theorem State.removeCur_regs : s.removeCur.regs = s.regs := rfl
@[simp] theorem State.removeCur_rxDr : s.removeCur.rxDr = s.rxDr := rfl
@[simp] theorem State.removeCur_txDs : s.removeCur.txDs = s.txDs := rfl
@[simp] theorem State.removeCur_maxRt : s.removeCur.maxRt = s.maxRt := rfl
@[simp] theorem State.removeCur_txf : s.removeCur.txf = s.txf.eraseP TxEntry.isData := rfl
@[simp] theorem State.removeCur_rxf : s.removeCur.rxf = s.rxf := rfl
@[simp] theorem State.removeCur_ce : s.removeCur.ce = s.ce := rfl
@[simp] theorem State.removeCur_seq : s.removeCur.seq = s.seq := rfl
@[simp] theorem State.removeCur_retry : s.removeCur.retry = s.retry := rfl
@[simp] theorem State.removeCur_txTrigger : s.removeCur.txTrigger = s.txTrigger := rfl
@[simp] theorem State.removeCur_pulseUsed : s.removeCur.pulseUsed = s.pulseUsed := rfl
@[simp] theorem State.removeCur_settleUs : s.removeCur.settleUs = s.settleUs := rfl
@[simp] theorem State.removeCur_ceHighUs : s.removeCur.ceHighUs = s.ceHighUs := rfl
@[simp] theorem State.removeCur_nextId : s.removeCur.nextId = s.nextId := rfl
@[simp] theorem State.removeCur_lastRxId : s.removeCur.lastRxId = s.lastRxId := rfl
@[simp] theorem State.removeCur_featureLocked : s.removeCur.featureLocked = s.featureLocked := rfl
@[simp] theorem State.removeCur_bank : s.removeCur.bank = s.bank := rfl
@[simp] theorem State.removeCur_tune : s.removeCur.tune = s.tune := rfl
@[simp] theorem State.removeCur_fault : s.removeCur.fault = s.fault := rfl
@[simp] theorem State.removeCur_ev : s.removeCur.ev = s.ev := rfl
@[simp] theorem State.removeCur_drvState : s.removeCur.drvState = s.drvState := rfl
@[simp] theorem State.removeCur_drvPipes : s.removeCur.drvPipes = s.drvPipes := rfl
@[simp] theorem State.removeCur_thread : s.removeCur.thread = s.thread := rfl
@[simp] theorem State.removeCur_irqThread : s.removeCur.irqThread = s.irqThread := rfl
@[simp] theorem State.removeCur_opResult : s.removeCur.opResult = s.opResult := rfl
@[simp] theorem State.removeCur_reply : s.removeCur.reply = s.reply := rfl
@[simp] theorem State.removeCur_emitted : s.removeCur.emitted = s.emitted := rfl
@[simp] theorem State.removeCur_draws : s.removeCur.draws = s.draws := rfl
@[simp] theorem State.removeCur_agenda : s.removeCur.agenda = s.agenda := rfl

/-! ### `State.abortBurst` -/
@[simp] theorem State.abortBurst_cfg : s.abortBurst.cfg = s.cfg := rfl
@[simp] theorem State.abortBurst_regs : s.abortBurst.regs = s.regs := rfl
@[simp] theorem State.abortBurst_rxDr : s.abortBurst.rxDr = s.rxDr := rfl
@[simp] theorem State.abortBurst_txDs : s.abortBurst.txDs = s.txDs := rfl
@[simp] theorem State.abortBurst_maxRt : s.abortBurst.maxRt = s.maxRt := rfl
@[simp] theorem State.abortBurst_txf : s.abortBurst.txf = s.txf := rfl
@[simp] theorem State.abortBurst_rxf : s.abortBurst.rxf = s.rxf := rfl
@[simp] theorem State.abortBurst_ce : s.abortBurst.ce = s.ce := rfl
@[simp] theorem State.abortBurst_seq : s.abortBurst.seq = .idle := rfl
@[simp] theorem State.abortBurst_retry : s.abortBurst.retry = 0 := rfl
@[simp] theorem State.abortBurst_txTrigger : s.abortBurst.txTrigger = s.txTrigger := rfl
@[simp] theorem State.abortBurst_pulseUsed : s.abortBurst.pulseUsed = s.pulseUsed := rfl
@[simp] theorem State.abortBurst_settleUs : s.abortBurst.settleUs = s.settleUs := rfl
@[simp] theorem State.abortBurst_ceHighUs : s.abortBurst.ceHighUs = s.ceHighUs := rfl
@[simp] theorem State.abortBurst_nextId : s.abortBurst.nextId = s.nextId := rfl
@[simp] theorem State.abortBurst_lastRxId : s.abortBurst.lastRxId = s.lastRxId := rfl
@[simp] theorem State.abortBurst_featureLocked : s.abortBurst.featureLocked = s.featureLocked := rfl
@[simp] theorem State.abortBurst_bank : s.abortBurst.bank = s.bank := rfl
@[simp] theorem State.abortBurst_tune : s.abortBurst.tune = s.tune := rfl
@[simp] theorem State.abortBurst_fault : s.abortBurst.fault = s.fault := rfl
@[simp] theorem State.abortBurst_ev : s.abortBurst.ev = s.ev := rfl
@[simp] theorem State.abortBurst_drvState : s.abortBurst.drvState = s.drvState := rfl
@[simp] theorem State.abortBurst_drvPipes : s.abortBurst.drvPipes = s.drvPipes := rfl
@[simp] theorem State.abortBurst_thread : s.abortBurst.thread = s.thread := rfl
@[simp] theorem State.abortBurst_irqThread : s.abortBurst.irqThread = s.irqThread := rfl
@[simp] theorem State.abortBurst_opResult : s.abortBurst.opResult = s.opResult := rfl
@[simp] theorem State.abortBurst_reply : s.abortBurst.reply = s.reply := rfl
@[simp] theorem State.abortBurst_emitted : s.abortBurst.emitted = s.emitted := rfl
@[simp] theorem State.abortBurst_draws : s.abortBurst.draws = s.draws := rfl
@[simp] theorem State.abortBurst_agenda : s.abortBurst.agenda = s.agenda := rfl

/-! ### `State.powerOnReset` -/
@[simp] theorem State.powerOnReset_cfg : s.powerOnReset.cfg = s.cfg := rfl
@[simp] theorem State.powerOnReset_regs : s.powerOnReset.regs = s.cfg.resetVals := rfl
@[simp] theorem State.powerOnReset_rxDr : s.powerOnReset.rxDr = false := rfl
@[simp] theorem State.powerOnReset_txDs : s.powerOnReset.txDs = false := rfl
@[simp] theorem State.powerOnReset_maxRt : s.powerOnReset.maxRt = false := rfl
@[simp] theorem State.powerOnReset_txf : s.powerOnReset.txf = [] := rfl
@[simp] theorem State.powerOnReset_rxf : s.powerOnReset.rxf = [] := rfl
@[simp] theorem State.powerOnReset_ce : s.powerOnReset.ce = s.ce := rfl
@[simp] theorem State.powerOnReset_seq : s.powerOnReset.seq = .idle := rfl
@[simp] theorem State.powerOnReset_retry : s.powerOnReset.retry = 0 := rfl
@[simp] theorem State.powerOnReset_txTrigger : s.powerOnReset.txTrigger = false := rfl
@[simp] theorem State.powerOnReset_pulseUsed : s.powerOnReset.pulseUsed = false := rfl
@[simp] theorem State.powerOnReset_settleUs : s.powerOnReset.settleUs = s.cfg.tPor := rfl
@[simp] theorem State.powerOnReset_ceHighUs : s.powerOnReset.ceHighUs = 0 := rfl
@[simp] theorem State.powerOnReset_nextId : s.powerOnReset.nextId = 0 := rfl
@[simp] theorem State.powerOnReset_lastRxId : s.powerOnReset.lastRxId = none := rfl
@[simp] theorem State.powerOnReset_featureLocked : s.powerOnReset.featureLocked = true := rfl
@[simp] theorem State.powerOnReset_bank : s.powerOnReset.bank = false := rfl
@[simp] theorem State.powerOnReset_tune : s.powerOnReset.tune = [] := rfl
@[simp] theorem State.powerOnReset_fault : s.powerOnReset.fault = s.fault := rfl
@[simp] theorem State.powerOnReset_ev : s.powerOnReset.ev = s.ev := rfl
@[simp] theorem State.powerOnReset_drvState : s.powerOnReset.drvState = s.drvState := rfl
@[simp] theorem State.powerOnReset_drvPipes : s.powerOnReset.drvPipes = s.drvPipes := rfl
@[simp] theorem State.powerOnReset_thread : s.powerOnReset.thread = s.thread := rfl
@[simp] theorem State.powerOnReset_irqThread : s.powerOnReset.irqThread = s.irqThread := rfl
@[simp] theorem State.powerOnReset_opResult : s.powerOnReset.opResult = s.opResult := rfl
@[simp] theorem State.powerOnReset_reply : s.powerOnReset.reply = s.reply := rfl
@[simp] theorem State.powerOnReset_emitted : s.powerOnReset.emitted = s.emitted := rfl
@[simp] theorem State.powerOnReset_draws : s.powerOnReset.draws = s.draws := rfl
@[simp] theorem State.powerOnReset_agenda : s.powerOnReset.agenda = s.agenda := rfl

/-! ### `State.clearEvents` -/
@[simp] theorem State.clearEvents_cfg (v : Byte) : (s.clearEvents v).cfg = s.cfg := rfl
@[simp] theorem State.clearEvents_regs (v : Byte) : (s.clearEvents v).regs = s.regs := rfl
@[simp] theorem State.clearEvents_rxDr (v : Byte) : (s.clearEvents v).rxDr = (s.rxDr && !v.getLsbD 6) := rfl
@[simp] theorem State.clearEvents_txDs (v : Byte) : (s.clearEvents v).txDs = (s.txDs && !v.getLsbD 5) := rfl
@[simp] theorem State.clearEvents_maxRt (v : Byte) : (s.clearEvents v).maxRt = (s.maxRt && !v.getLsbD 4) := rfl
@[simp] theorem State.clearEvents_txf (v : Byte) : (s.clearEvents v).txf = s.txf := rfl
@[simp] theorem State.clearEvents_rxf (v : Byte) : (s.clearEvents v).rxf = s.rxf := rfl
@[simp] theorem State.clearEvents_ce (v : Byte) : (s.clearEvents v).ce = s.ce := rfl
@[simp] theorem State.clearEvents_seq (v : Byte) : (s.clearEvents v).seq = s.seq := rfl
@[simp] theorem State.clearEvents_retry (v : Byte) : (s.clearEvents v).retry = s.retry := rfl
@[simp] theorem State.clearEvents_txTrigger (v : Byte) : (s.clearEvents v).txTrigger = s.txTrigger := rfl
@[simp] theorem State.clearEvents_pulseUsed (v : Byte) : (s.clearEvents v).pulseUsed = s.pulseUsed := rfl
@[simp] theorem State.clearEvents_settleUs (v : Byte) : (s.clearEvents v).settleUs = s.settleUs := rfl
@[simp] theorem State.clearEvents_ceHighUs (v : Byte) : (s.clearEvents v).ceHighUs = s.ceHighUs := rfl
@[simp] theorem State.clearEvents_nextId (v : Byte) : (s.clearEvents v).nextId = s.nextId := rfl
@[simp] theorem State.clearEvents_lastRxId (v : Byte) : (s.clearEvents v).lastRxId = s.lastRxId := rfl
@[simp] theorem State.clearEvents_featureLocked (v : Byte) : (s.clearEvents v).featureLocked = s.featureLocked := rfl
@[simp] theorem State.clearEvents_bank (v : Byte) : (s.clearEvents v).bank = s.bank := rfl
@[simp] theorem State.clearEvents_tune (v : Byte) : (s.clearEvents v).tune = s.tune := rfl
@[simp] theorem State.clearEvents_fault (v : Byte) : (s.clearEvents v).fault = s.fault := rfl
@[simp] theorem State.clearEvents_ev (v : Byte) : (s.clearEvents v).ev = s.ev := rfl
@[simp] theorem State.clearEvents_drvState (v : Byte) : (s.clearEvents v).drvState = s.drvState := rfl
@[simp] theorem State.clearEvents_drvPipes (v : Byte) : (s.clearEvents v).drvPipes = s.drvPipes := rfl
@[simp] theorem State.clearEvents_thread (v : Byte) : (s.clearEvents v).thread = s.thread := rfl
@[simp] theorem State.clearEvents_irqThread (v : Byte) : (s.clearEvents v).irqThread = s.irqThread := rfl
@[simp] theorem State.clearEvents_opResult (v : Byte) : (s.clearEvents v).opResult = s.opResult := rfl
@[simp] theorem State.clearEvents_reply (v : Byte) : (s.clearEvents v).reply = s.reply := rfl
@[simp] theorem State.clearEvents_emitted (v : Byte) : (s.clearEvents v).emitted = s.emitted := rfl
@[simp] theorem State.clearEvents_draws (v : Byte) : (s.clearEvents v).draws = s.draws := rfl
@[simp] theorem State.clearEvents_agenda (v : Byte) : (s.clearEvents v).agenda = s.agenda := rfl

/-! ### `State.powerUpEffect` -/
@[simp] theorem State.powerUpEffect_cfg : s.powerUpEffect.cfg = s.cfg := rfl
@[simp] theorem State.powerUpEffect_regs : s.powerUpEffect.regs = s.regs := rfl
@[simp] theorem State.powerUpEffect_rxDr : s.powerUpEffect.rxDr = s.rxDr := rfl
@[simp] theorem State.powerUpEffect_txDs : s.powerUpEffect.txDs = s.txDs := rfl
@[simp] theorem State.powerUpEffect_maxRt : s.powerUpEffect.maxRt = s.maxRt := rfl
@[simp] theorem State.powerUpEffect_txf : s.powerUpEffect.txf = s.txf := rfl
@[simp] theorem State.powerUpEffect_rxf : s.powerUpEffect.rxf = s.rxf := rfl
@[simp] theorem State.powerUpEffect_ce : s.powerUpEffect.ce = s.ce := rfl
@[simp] theorem State.powerUpEffect_seq : s.powerUpEffect.seq = s.seq := rfl
@[simp] theorem State.powerUpEffect_retry : s.powerUpEffect.retry = s.retry := rfl
@[simp] theorem State.powerUpEffect_txTrigger : s.powerUpEffect.txTrigger = s.txTrigger := rfl
@[simp] theorem State.powerUpEffect_pulseUsed : s.powerUpEffect.pulseUsed = s.pulseUsed := rfl
@[simp] theorem State.powerUpEffect_settleUs : s.powerUpEffect.settleUs = s.cfg.tPwrup := rfl
@[simp] theorem State.powerUpEffect_ceHighUs : s.powerUpEffect.ceHighUs = s.ceHighUs := rfl
@[simp] theorem State.powerUpEffect_nextId : s.powerUpEffect.nextId = s.nextId := rfl
@[simp] theorem State.powerUpEffect_lastRxId : s.powerUpEffect.lastRxId = s.lastRxId := rfl
@[simp] theorem State.powerUpEffect_featureLocked : s.powerUpEffect.featureLocked = s.featureLocked := rfl
@[simp] theorem State.powerUpEffect_bank : s.powerUpEffect.bank = s.bank := rfl
@[simp] theorem State.powerUpEffect_tune : s.powerUpEffect.tune = s.tune := rfl
@[simp] theorem State.powerUpEffect_fault : s.powerUpEffect.fault = s.fault := rfl
@[simp] theorem State.powerUpEffect_ev : s.powerUpEffect.ev = s.ev := rfl
@[simp] theorem State.powerUpEffect_drvState : s.powerUpEffect.drvState = s.drvState := rfl
@[simp] theorem State.powerUpEffect_drvPipes : s.powerUpEffect.drvPipes = s.drvPipes := rfl
@[simp] theorem State.powerUpEffect_thread : s.powerUpEffect.thread = s.thread := rfl
@[simp] theorem State.powerUpEffect_irqThread : s.powerUpEffect.irqThread = s.irqThread := rfl
@[simp] theorem State.powerUpEffect_opResult : s.powerUpEffect.opResult = s.opResult := rfl
@[simp] theorem State.powerUpEffect_reply : s.powerUpEffect.reply = s.reply := rfl
@[simp] theorem State.powerUpEffect_emitted : s.powerUpEffect.emitted = s.emitted := rfl
@[simp] theorem State.powerUpEffect_draws : s.powerUpEffect.draws = s.draws := rfl
@[simp] theorem State.powerUpEffect_agenda : s.powerUpEffect.agenda = s.agenda := rfl

/-! ### `State.powerDownEffect` -/
@[simp] theorem State.powerDownEffect_cfg : s.powerDownEffect.cfg = s.cfg := by
  unfold State.powerDownEffect; split <;> rfl
@[simp] theorem State.powerDownEffect_regs : s.powerDownEffect.regs = s.regs := by
  unfold State.powerDownEffect; split <;> rfl
@[simp] theorem State.powerDownEffect_rxDr : s.powerDownEffect.rxDr = s.rxDr := by
  unfold State.powerDownEffect; split <;> rfl
@[simp] theorem State.powerDownEffect_txDs : s.powerDownEffect.txDs = s.txDs := by
  unfold State.powerDownEffect; split <;> rfl
@[simp] theorem State.powerDownEffect_maxRt : s.powerDownEffect.maxRt = s.maxRt := by
  unfold State.powerDownEffect; split <;> rfl
@[simp] theorem State.powerDownEffect_txf : s.powerDownEffect.txf = s.txf := by
  unfold State.powerDownEffect; split <;> rfl
@[simp] theorem State.powerDownEffect_rxf : s.powerDownEffect.rxf = s.rxf := by
  unfold State.powerDownEffect; split <;> rfl
@[simp] theorem State.powerDownEffect_ce : s.powerDownEffect.ce = s.ce := by
  unfold State.powerDownEffect; split <;> rfl
@[simp] theorem State.powerDownEffect_seq : s.powerDownEffect.seq = .idle := by
  by_cases h : s.seq = .idle <;> simp [State.powerDownEffect, State.abortBurst, h]
@[simp] theorem State.powerDownEffect_retry : s.powerDownEffect.retry = if s.seq ≠ .idle then 0 else s.retry := by
  unfold State.powerDownEffect; split <;> rfl
@[simp] theorem State.powerDownEffect_txTrigger : s.powerDownEffect.txTrigger = false := by
  unfold State.powerDownEffect; split <;> rfl
@[simp] theorem State.powerDownEffect_pulseUsed : s.powerDownEffect.pulseUsed = s.pulseUsed := by
  unfold State.powerDownEffect; split <;> rfl
@[simp] theorem State.powerDownEffect_settleUs : s.powerDownEffect.settleUs = 0 := by
  unfold State.powerDownEffect; split <;> rfl
@[simp] theorem State.powerDownEffect_ceHighUs : s.powerDownEffect.ceHighUs = s.ceHighUs := by
  unfold State.powerDownEffect; split <;> rfl
@[simp] theorem State.powerDownEffect_nextId : s.powerDownEffect.nextId = s.nextId := by
  unfold State.powerDownEffect; split <;> rfl
@[simp] theorem State.powerDownEffect_lastRxId : s.powerDownEffect.lastRxId = s.lastRxId := by
  unfold State.powerDownEffect; split <;> rfl
@[simp] theorem State.powerDownEffect_featureLocked : s.powerDownEffect.featureLocked = s.featureLocked := by
  unfold State.powerDownEffect; split <;> rfl
@[simp] theorem State.powerDownEffect_bank : s.powerDownEffect.bank = s.bank := by
  unfold State.powerDownEffect; split <;> rfl
@[simp] theorem State.powerDownEffect_tune : s.powerDownEffect.tune = s.tune := by
  unfold State.powerDownEffect; split <;> rfl
@[simp] theorem State.powerDownEffect_fault : s.powerDownEffect.fault = s.fault := by
  unfold State.powerDownEffect; split <;> rfl
@[simp] theorem State.powerDownEffect_ev : s.powerDownEffect.ev = s.ev := by
  unfold State.powerDownEffect; split <;> rfl
@[simp] theorem State.powerDownEffect_drvState : s.powerDownEffect.drvState = s.drvState := by
  unfold State.powerDownEffect; split <;> rfl
@[simp] theorem State.powerDownEffect_drvPipes : s.powerDownEffect.drvPipes = s.drvPipes := by
  unfold State.powerDownEffect; split <;> rfl
@[simp] theorem State.powerDownEffect_thread : s.powerDownEffect.thread = s.thread := by
  unfold State.powerDownEffect; split <;> rfl
@[simp] theorem State.powerDownEffect_irqThread : s.powerDownEffect.irqThread = s.irqThread := by
  unfold State.powerDownEffect; split <;> rfl
@[simp] theorem State.powerDownEffect_opResult : s.powerDownEffect.opResult = s.opResult := by
  unfold State.powerDownEffect; split <;> rfl
@[simp] theorem State.powerDownEffect_reply : s.powerDownEffect.reply = s.reply := by
  unfold State.powerDownEffect; split <;> rfl
@[simp] theorem State.powerDownEffect_emitted : s.powerDownEffect.emitted = s.emitted := by
  unfold State.powerDownEffect; split <;> rfl
@[simp] theorem State.powerDownEffect_draws : s.powerDownEffect.draws = s.draws := by
  unfold State.powerDownEffect; split <;> rfl
@[simp] theorem State.powerDownEffect_agenda : s.powerDownEffect.agenda = s.agenda := by
  unfold State.powerDownEffect; split <;> rfl

/-! ### `State.storeConfig` -/
@[simp] theorem State.storeConfig_cfg (v : Byte) : (s.storeConfig v).cfg = s.cfg := rfl
@[simp] theorem State.storeConfig_regs (v : Byte) : (s.storeConfig v).regs = { s.regs with config := v } := rfl
@[simp] theorem State.storeConfig_rxDr (v : Byte) : (s.storeConfig v).rxDr = s.rxDr := rfl
@[simp] theorem State.storeConfig_txDs (v : Byte) : (s.storeConfig v).txDs = s.txDs := rfl
@[simp] theorem State.storeConfig_maxRt (v : Byte) : (s.storeConfig v).maxRt = s.maxRt := rfl
@[simp] theorem State.storeConfig_txf (v : Byte) : (s.storeConfig v).txf = s.txf := rfl
@[simp] theorem State.storeConfig_rxf (v : Byte) : (s.storeConfig v).rxf = s.rxf := rfl
@[simp] theorem State.storeConfig_ce (v : Byte) : (s.storeConfig v).ce = s.ce := rfl
@[simp] theorem State.storeConfig_seq (v : Byte) : (s.storeConfig v).seq = s.seq := rfl
@[simp] theorem State.storeConfig_retry (v : Byte) : (s.storeConfig v).retry = s.retry := rfl
@[simp] theorem State.storeConfig_txTrigger (v : Byte) : (s.storeConfig v).txTrigger = s.txTrigger := rfl
@[simp] theorem State.storeConfig_pulseUsed (v : Byte) : (s.storeConfig v).pulseUsed = s.pulseUsed := rfl
@[simp] theorem State.storeConfig_settleUs (v : Byte) : (s.storeConfig v).settleUs = s.settleUs := rfl
@[simp] theorem State.storeConfig_ceHighUs (v : Byte) : (s.storeConfig v).ceHighUs = s.ceHighUs := rfl
@[simp] theorem State.storeConfig_nextId (v : Byte) : (s.storeConfig v).nextId = s.nextId := rfl
@[simp] theorem State.storeConfig_lastRxId (v : Byte) : (s.storeConfig v).lastRxId = s.lastRxId := rfl
@[simp] theorem State.storeConfig_featureLocked (v : Byte) : (s.storeConfig v).featureLocked = s.featureLocked := rfl
@[simp] theorem State.storeConfig_bank (v : Byte) : (s.storeConfig v).bank = s.bank := rfl
@[simp] theorem State.storeConfig_tune (v : Byte) : (s.storeConfig v).tune = s.tune := rfl
@[simp] theorem State.storeConfig_fault (v : Byte) : (s.storeConfig v).fault = s.fault := rfl
@[simp] theorem State.storeConfig_ev (v : Byte) : (s.storeConfig v).ev = s.ev := rfl
@[simp] theorem State.storeConfig_drvState (v : Byte) : (s.storeConfig v).drvState = s.drvState := rfl
@[simp] theorem State.storeConfig_drvPipes (v : Byte) : (s.storeConfig v).drvPipes = s.drvPipes := rfl
@[simp] theorem State.storeConfig_thread (v : Byte) : (s.storeConfig v).thread = s.thread := rfl
@[simp] theorem State.storeConfig_irqThread (v : Byte) : (s.storeConfig v).irqThread = s.irqThread := rfl
@[simp] theorem State.storeConfig_opResult (v : Byte) : (s.storeConfig v).opResult = s.opResult := rfl
@[simp] theorem State.storeConfig_reply (v : Byte) : (s.storeConfig v).reply = s.reply := rfl
@[simp] theorem State.storeConfig_emitted (v : Byte) : (s.storeConfig v).emitted = s.emitted := rfl
@[simp] theorem State.storeConfig_draws (v : Byte) : (s.storeConfig v).draws = s.draws := rfl
@[simp] theorem State.storeConfig_agenda (v : Byte) : (s.storeConfig v).agenda = s.agenda := rfl

/-! ### `State.tuneWrite` -/
@[simp] theorem State.tuneWrite_cfg (a : RegAddr) (d : List Byte) : (s.tuneWrite a d).cfg = s.cfg := rfl
@[simp] theorem State.tuneWrite_regs (a : RegAddr) (d : List Byte) : (s.tuneWrite a d).regs = s.regs := rfl
@[simp] theorem State.tuneWrite_rxDr (a : RegAddr) (d : List Byte) : (s.tuneWrite a d).rxDr = s.rxDr := rfl
@[simp] theorem State.tuneWrite_txDs (a : RegAddr) (d : List Byte) : (s.tuneWrite a d).txDs = s.txDs := rfl
@[simp] theorem State.tuneWrite_maxRt (a : RegAddr) (d : List Byte) : (s.tuneWrite a d).maxRt = s.maxRt := rfl
@[simp] theorem State.tuneWrite_txf (a : RegAddr) (d : List Byte) : (s.tuneWrite a d).txf = s.txf := rfl
@[simp] theorem State.tuneWrite_rxf (a : RegAddr) (d : List Byte) : (s.tuneWrite a d).rxf = s.rxf := rfl
@[simp] theorem State.tuneWrite_ce (a : RegAddr) (d : List Byte) : (s.tuneWrite a d).ce = s.ce := rfl
@[simp] theorem State.tuneWrite_seq (a : RegAddr) (d : List Byte) : (s.tuneWrite a d).seq = s.seq := rfl
@[simp] theorem State.tuneWrite_retry (a : RegAddr) (d : List Byte) : (s.tuneWrite a d).retry = s.retry := rfl
@[simp] theorem State.tuneWrite_txTrigger (a : RegAddr) (d : List Byte) : (s.tuneWrite a d).txTrigger = s.txTrigger := rfl
@[simp] theorem State.tuneWrite_pulseUsed (a : RegAddr) (d : List Byte) : (s.tuneWrite a d).pulseUsed = s.pulseUsed := rfl
@[simp] theorem State.tuneWrite_settleUs (a : RegAddr) (d : List Byte) : (s.tuneWrite a d).settleUs = s.settleUs := rfl
@[simp] theorem State.tuneWrite_ceHighUs (a : RegAddr) (d : List Byte) : (s.tuneWrite a d).ceHighUs = s.ceHighUs := rfl
@[simp] theorem State.tuneWrite_nextId (a : RegAddr) (d : List Byte) : (s.tuneWrite a d).nextId = s.nextId := rfl
@[simp] theorem State.tuneWrite_lastRxId (a : RegAddr) (d : List Byte) : (s.tuneWrite a d).lastRxId = s.lastRxId := rfl
@[simp] theorem State.tuneWrite_featureLocked (a : RegAddr) (d : List Byte) : (s.tuneWrite a d).featureLocked = s.featureLocked := rfl
@[simp] theorem State.tuneWrite_bank (a : RegAddr) (d : List Byte) : (s.tuneWrite a d).bank = s.bank := rfl
@[simp] theorem State.tuneWrite_tune (a : RegAddr) (d : List Byte) : (s.tuneWrite a d).tune = tuneSet s.tune a.toNat d := rfl
@[simp] theorem State.tuneWrite_fault (a : RegAddr) (d : List Byte) : (s.tuneWrite a d).fault = s.fault := rfl
@[simp] theorem State.tuneWrite_ev (a : RegAddr) (d : List Byte) : (s.tuneWrite a d).ev = s.ev := rfl
@[simp] theorem State.tuneWrite_drvState (a : RegAddr) (d : List Byte) : (s.tuneWrite a d).drvState = s.drvState := rfl
@[simp] theorem State.tuneWrite_drvPipes (a : RegAddr) (d : List Byte) : (s.tuneWrite a d).drvPipes = s.drvPipes := rfl
@[simp] theorem State.tuneWrite_thread (a : RegAddr) (d : List Byte) : (s.tuneWrite a d).thread = s.thread := rfl
@[simp] theorem State.tuneWrite_irqThread (a : RegAddr) (d : List Byte) : (s.tuneWrite a d).irqThread = s.irqThread := rfl
@[simp] theorem State.tuneWrite_opResult (a : RegAddr) (d : List Byte) : (s.tuneWrite a d).opResult = s.opResult := rfl
@[simp] theorem State.tuneWrite_reply (a : RegAddr) (d : List Byte) : (s.tuneWrite a d).reply = s.reply := rfl
@[simp] theorem State.tuneWrite_emitted (a : RegAddr) (d : List Byte) : (s.tuneWrite a d).emitted = s.emitted := rfl
@[simp] theorem State.tuneWrite_draws (a : RegAddr) (d : List Byte) : (s.tuneWrite a d).draws = s.draws := rfl
@[simp] theorem State.tuneWrite_agenda (a : RegAddr) (d : List Byte) : (s.tuneWrite a d).agenda = s.agenda := rfl

/-! ### `State.flushTx` -/
@[simp] theorem State.flushTx_cfg : s.flushTx.cfg = s.cfg := by
  unfold State.flushTx; split <;> rfl
@[simp] theorem State.flushTx_regs : s.flushTx.regs = s.regs := by
  unfold State.flushTx; split <;> rfl
@[simp] theorem State.flushTx_rxDr : s.flushTx.rxDr = s.rxDr := by
  unfold State.flushTx; split <;> rfl
@[simp] theorem State.flushTx_txDs : s.flushTx.txDs = s.txDs := by
  unfold State.flushTx; split <;> rfl
@[simp] theorem State.flushTx_maxRt : s.flushTx.maxRt = s.maxRt := by
  unfold State.flushTx; split <;> rfl
@[simp] theorem State.flushTx_txf : s.flushTx.txf = [] := by
  unfold State.flushTx; split <;> rfl
@[simp] theorem State.flushTx_rxf : s.flushTx.rxf = s.rxf := by
  unfold State.flushTx; split <;> rfl
@[simp] theorem State.flushTx_ce : s.flushTx.ce = s.ce := by
  unfold State.flushTx; split <;> rfl
@[simp] theorem State.flushTx_seq : s.flushTx.seq = .idle := by
  by_cases h : s.seq = .idle <;> simp [State.flushTx, State.abortBurst, h]
@[simp] theorem State.flushTx_retry : s.flushTx.retry = if s.seq ≠ .idle then 0 else s.retry := by
  unfold State.flushTx; split <;> rfl
@[simp] theorem State.flushTx_txTrigger : s.flushTx.txTrigger = false := by
  unfold State.flushTx; split <;> rfl
@[simp] theorem State.flushTx_pulseUsed : s.flushTx.pulseUsed = s.pulseUsed := by
  unfold State.flushTx; split <;> rfl
@[simp] theorem State.flushTx_settleUs : s.flushTx.settleUs = s.settleUs := by
  unfold State.flushTx; split <;> rfl
@[simp] theorem State.flushTx_ceHighUs : s.flushTx.ceHighUs = s.ceHighUs := by
  unfold State.flushTx; split <;> rfl
@[simp] theorem State.flushTx_nextId : s.flushTx.nextId = s.nextId := by
  unfold State.flushTx; split <;> rfl
@[simp] theorem State.flushTx_lastRxId : s.flushTx.lastRxId = s.lastRxId := by
  unfold State.flushTx; split <;> rfl
@[simp] theorem State.flushTx_featureLocked : s.flushTx.featureLocked = s.featureLocked := by
  unfold State.flushTx; split <;> rfl
@[simp] theorem State.flushTx_bank : s.flushTx.bank = s.bank := by
  unfold State.flushTx; split <;> rfl
@[simp] theorem State.flushTx_tune : s.flushTx.tune = s.tune := by
  unfold State.flushTx; split <;> rfl
@[simp] theorem State.flushTx_fault : s.flushTx.fault = s.fault := by
  unfold State.flushTx; split <;> rfl
@[simp] theorem State.flushTx_ev : s.flushTx.ev = s.ev := by
  unfold State.flushTx; split <;> rfl
@[simp] theorem State.flushTx_drvState : s.flushTx.drvState = s.drvState := by
  unfold State.flushTx; split <;> rfl
@[simp] theorem State.flushTx_drvPipes : s.flushTx.drvPipes = s.drvPipes := by
  unfold State.flushTx; split <;> rfl
@[simp] theorem State.flushTx_thread : s.flushTx.thread = s.thread := by
  unfold State.flushTx; split <;> rfl
@[simp] theorem State.flushTx_irqThread : s.flushTx.irqThread = s.irqThread := by
  unfold State.flushTx; split <;> rfl
@[simp] theorem State.flushTx_opResult : s.flushTx.opResult = s.opResult := by
  unfold State.flushTx; split <;> rfl
@[simp] theorem State.flushTx_reply : s.flushTx.reply = s.reply := by
  unfold State.flushTx; split <;> rfl
@[simp] theorem State.flushTx_emitted : s.flushTx.emitted = s.emitted := by
  unfold State.flushTx; split <;> rfl
@[simp] theorem State.flushTx_draws : s.flushTx.draws = s.draws := by
  unfold State.flushTx; split <;> rfl
@[simp] theorem State.flushTx_agenda : s.flushTx.agenda = s.agenda := by
  unfold State.flushTx; split <;> rfl

/-! ### `State.startBurst` -/
@[simp] theorem State.startBurst_cfg : s.startBurst.cfg = s.cfg := rfl
@[simp] theorem State.startBurst_regs : s.startBurst.regs = s.regs := rfl
@[simp] theorem State.startBurst_rxDr : s.startBurst.rxDr = s.rxDr := rfl
@[simp] theorem State.startBurst_txDs : s.startBurst.txDs = s.txDs := rfl
@[simp] theorem State.startBurst_maxRt : s.startBurst.maxRt = s.maxRt := rfl
@[simp] theorem State.startBurst_txf : s.startBurst.txf = s.txf := rfl
@[simp] theorem State.startBurst_rxf : s.startBurst.rxf = s.rxf := rfl
@[simp] theorem State.startBurst_ce : s.startBurst.ce = s.ce := rfl
@[simp] theorem State.startBurst_seq : s.startBurst.seq = .txOnAir 0 := rfl
@[simp] theorem State.startBurst_retry : s.startBurst.retry = 0 := rfl
@[simp] theorem State.startBurst_txTrigger : s.startBurst.txTrigger = false := rfl
@[simp] theorem State.startBurst_pulseUsed : s.startBurst.pulseUsed = true := rfl
@[simp] theorem State.startBurst_settleUs : s.startBurst.settleUs = s.settleUs := rfl
@[simp] theorem State.startBurst_ceHighUs : s.startBurst.ceHighUs = s.ceHighUs := rfl
@[simp] theorem State.startBurst_nextId : s.startBurst.nextId = s.nextId := rfl
@[simp] theorem State.startBurst_lastRxId : s.startBurst.lastRxId = s.lastRxId := rfl
@[simp] theorem State.startBurst_featureLocked : s.startBurst.featureLocked = s.featureLocked := rfl
@[simp] theorem State.startBurst_bank : s.startBurst.bank = s.bank := rfl
@[simp] theorem State.startBurst_tune : s.startBurst.tune = s.tune := rfl
@[simp] theorem State.startBurst_fault : s.startBurst.fault = s.fault := rfl
@[simp] theorem State.startBurst_ev : s.startBurst.ev = s.ev := rfl
@[simp] theorem State.startBurst_drvState : s.startBurst.drvState = s.drvState := rfl
@[simp] theorem State.startBurst_drvPipes : s.startBurst.drvPipes = s.drvPipes := rfl
@[simp] theorem State.startBurst_thread : s.startBurst.thread = s.thread := rfl
@[simp] theorem State.startBurst_irqThread : s.startBurst.irqThread = s.irqThread := rfl
@[simp] theorem State.startBurst_opResult : s.startBurst.opResult = s.opResult := rfl
@[simp] theorem State.startBurst_reply : s.startBurst.reply = s.reply := rfl
@[simp] theorem State.startBurst_emitted : s.startBurst.emitted = s.emitted := rfl
@[simp] theorem State.startBurst_draws : s.startBurst.draws = s.draws := rfl
@[simp] theorem State.startBurst_agenda : s.startBurst.agenda = s.agenda := rfl

/-! ### `State.completeBurst` -/
@[simp] theorem State.completeBurst_cfg : s.completeBurst.cfg = s.cfg := rfl
@[simp] theorem State.completeBurst_regs : s.completeBurst.regs = s.regs := rfl
@[simp] theorem State.completeBurst_rxDr : s.completeBurst.rxDr = s.rxDr := rfl
@[simp] theorem State.completeBurst_txDs : s.completeBurst.txDs = true := rfl
@[simp] theorem State.completeBurst_maxRt : s.completeBurst.maxRt = s.maxRt := rfl
@[simp] theorem State.completeBurst_txf : s.completeBurst.txf = s.txf.eraseP TxEntry.isData := rfl
@[simp] theorem State.completeBurst_rxf : s.completeBurst.rxf = s.rxf := rfl
@[simp] theorem State.completeBurst_ce : s.completeBurst.ce = s.ce := rfl
@[simp] theorem State.completeBurst_seq : s.completeBurst.seq = .idle := rfl
@[simp] theorem State.completeBurst_retry : s.completeBurst.retry = 0 := rfl
@[simp] theorem State.completeBurst_txTrigger : s.completeBurst.txTrigger = s.txTrigger := rfl
@[simp] theorem State.completeBurst_pulseUsed : s.completeBurst.pulseUsed = s.pulseUsed := rfl
@[simp] theorem State.completeBurst_settleUs : s.completeBurst.settleUs = s.settleUs := rfl
@[simp] theorem State.completeBurst_ceHighUs : s.completeBurst.ceHighUs = s.ceHighUs := rfl
@[simp] theorem State.completeBurst_nextId : s.completeBurst.nextId = s.nextId := rfl
@[simp] theorem State.completeBurst_lastRxId : s.completeBurst.lastRxId = s.lastRxId := rfl
@[simp] theorem State.completeBurst_featureLocked : s.completeBurst.featureLocked = s.featureLocked := rfl
@[simp] theorem State.completeBurst_bank : s.completeBurst.bank = s.bank := rfl
@[simp] theorem State.completeBurst_tune : s.completeBurst.tune = s.tune := rfl
@[simp] theorem State.completeBurst_fault : s.completeBurst.fault = s.fault := rfl
@[simp] theorem State.completeBurst_ev : s.completeBurst.ev = s.ev := rfl
@[simp] theorem State.completeBurst_drvState : s.completeBurst.drvState = s.drvState := rfl
@[simp] theorem State.completeBurst_drvPipes : s.completeBurst.drvPipes = s.drvPipes := rfl
@[simp] theorem State.completeBurst_thread : s.completeBurst.thread = s.thread := rfl
@[simp] theorem State.completeBurst_irqThread : s.completeBurst.irqThread = s.irqThread := rfl
@[simp] theorem State.completeBurst_opResult : s.completeBurst.opResult = s.opResult := rfl
@[simp] theorem State.completeBurst_reply : s.completeBurst.reply = s.reply := rfl
@[simp] theorem State.completeBurst_emitted : s.completeBurst.emitted = s.emitted := rfl
@[simp] theorem State.completeBurst_draws : s.completeBurst.draws = s.draws := rfl
@[simp] theorem State.completeBurst_agenda : s.completeBurst.agenda = s.agenda := rfl

/-! ### `State.result` -/
@[simp] theorem State.result_cfg (r : OpResult) : (s.result r).cfg = s.cfg := rfl
@[simp] theorem State.result_regs (r : OpResult) : (s.result r).regs = s.regs := rfl
@[simp] theorem State.result_rxDr (r : OpResult) : (s.result r).rxDr = s.rxDr := rfl
@[simp] theorem State.result_txDs (r : OpResult) : (s.result r).txDs = s.txDs := rfl
@[simp] theorem State.result_maxRt (r : OpResult) : (s.result r).maxRt = s.maxRt := rfl
@[simp] theorem State.result_txf (r : OpResult) : (s.result r).txf = s.txf := rfl
@[simp] theorem State.result_rxf (r : OpResult) : (s.result r).rxf = s.rxf := rfl
@[simp] theorem State.result_ce (r : OpResult) : (s.result r).ce = s.ce := rfl
@[simp] theorem State.result_seq (r : OpResult) : (s.result r).seq = s.seq := rfl
@[simp] theorem State.result_retry (r : OpResult) : (s.result r).retry = s.retry := rfl
@[simp] theorem State.result_txTrigger (r : OpResult) : (s.result r).txTrigger = s.txTrigger := rfl
@[simp] theorem State.result_pulseUsed (r : OpResult) : (s.result r).pulseUsed = s.pulseUsed := rfl
@[simp] theorem State.result_settleUs (r : OpResult) : (s.result r).settleUs = s.settleUs := rfl
@[simp] theorem State.result_ceHighUs (r : OpResult) : (s.result r).ceHighUs = s.ceHighUs := rfl
@[simp] theorem State.result_nextId (r : OpResult) : (s.result r).nextId = s.nextId := rfl
@[simp] theorem State.result_lastRxId (r : OpResult) : (s.result r).lastRxId = s.lastRxId := rfl
@[simp] theorem State.result_featureLocked (r : OpResult) : (s.result r).featureLocked = s.featureLocked := rfl
@[simp] theorem State.result_bank (r : OpResult) : (s.result r).bank = s.bank := rfl
@[simp] theorem State.result_tune (r : OpResult) : (s.result r).tune = s.tune := rfl
@[simp] theorem State.result_fault (r : OpResult) : (s.result r).fault = s.fault := rfl
@[simp] theorem State.result_ev (r : OpResult) : (s.result r).ev = s.ev := rfl
@[simp] theorem State.result_drvState (r : OpResult) : (s.result r).drvState = s.drvState := rfl
@[simp] theorem State.result_drvPipes (r : OpResult) : (s.result r).drvPipes = s.drvPipes := rfl
@[simp] theorem State.result_thread (r : OpResult) : (s.result r).thread = s.thread := rfl
@[simp] theorem State.result_irqThread (r : OpResult) : (s.result r).irqThread = s.irqThread := rfl
@[simp] theorem State.result_opResult (r : OpResult) : (s.result r).opResult = some r := rfl
@[simp] theorem State.result_reply (r : OpResult) : (s.result r).reply = s.reply := rfl
@[simp] theorem State.result_emitted (r : OpResult) : (s.result r).emitted = s.emitted := rfl
@[simp] theorem State.result_draws (r : OpResult) : (s.result r).draws = s.draws := rfl
@[simp] theorem State.result_agenda (r : OpResult) : (s.result r).agenda = s.agenda := rfl

/-! ### `State.setFlags` -/
@[simp] theorem State.setFlags_cfg (b : Byte) : (s.setFlags b).cfg = s.cfg := rfl
@[simp] theorem State.setFlags_regs (b : Byte) : (s.setFlags b).regs = s.regs := rfl
@[simp] theorem State.setFlags_rxDr (b : Byte) : (s.setFlags b).rxDr = s.rxDr := rfl
@[simp] theorem State.setFlags_txDs (b : Byte) : (s.setFlags b).txDs = s.txDs := rfl
@[simp] theorem State.setFlags_maxRt (b : Byte) : (s.setFlags b).maxRt = s.maxRt := rfl
@[simp] theorem State.setFlags_txf (b : Byte) : (s.setFlags b).txf = s.txf := rfl
@[simp] theorem State.setFlags_rxf (b : Byte) : (s.setFlags b).rxf = s.rxf := rfl
@[simp] theorem State.setFlags_ce (b : Byte) : (s.setFlags b).ce = s.ce := rfl
@[simp] theorem State.setFlags_seq (b : Byte) : (s.setFlags b).seq = s.seq := rfl
@[simp] theorem State.setFlags_retry (b : Byte) : (s.setFlags b).retry = s.retry := rfl
@[simp] theorem State.setFlags_txTrigger (b : Byte) : (s.setFlags b).txTrigger = s.txTrigger := rfl
@[simp] theorem State.setFlags_pulseUsed (b : Byte) : (s.setFlags b).pulseUsed = s.pulseUsed := rfl
@[simp] theorem State.setFlags_settleUs (b : Byte) : (s.setFlags b).settleUs = s.settleUs := rfl
@[simp] theorem State.setFlags_ceHighUs (b : Byte) : (s.setFlags b).ceHighUs = s.ceHighUs := rfl
@[simp] theorem State.setFlags_nextId (b : Byte) : (s.setFlags b).nextId = s.nextId := rfl
@[simp] theorem State.setFlags_lastRxId (b : Byte) : (s.setFlags b).lastRxId = s.lastRxId := rfl
@[simp] theorem State.setFlags_featureLocked (b : Byte) : (s.setFlags b).featureLocked = s.featureLocked := rfl
@[simp] theorem State.setFlags_bank (b : Byte) : (s.setFlags b).bank = s.bank := rfl
@[simp] theorem State.setFlags_tune (b : Byte) : (s.setFlags b).tune = s.tune := rfl
@[simp] theorem State.setFlags_fault (b : Byte) : (s.setFlags b).fault = s.fault := rfl
@[simp] theorem State.setFlags_drvState (b : Byte) : (s.setFlags b).drvState = s.drvState := rfl
@[simp] theorem State.setFlags_drvPipes (b : Byte) : (s.setFlags b).drvPipes = s.drvPipes := rfl
@[simp] theorem State.setFlags_thread (b : Byte) : (s.setFlags b).thread = s.thread := rfl
@[simp] theorem State.setFlags_irqThread (b : Byte) : (s.setFlags b).irqThread = s.irqThread := rfl
@[simp] theorem State.setFlags_opResult (b : Byte) : (s.setFlags b).opResult = s.opResult := rfl
@[simp] theorem State.setFlags_reply (b : Byte) : (s.setFlags b).reply = s.reply := rfl
@[simp] theorem State.setFlags_emitted (b : Byte) : (s.setFlags b).emitted = s.emitted := rfl
@[simp] theorem State.setFlags_draws (b : Byte) : (s.setFlags b).draws = s.draws := rfl
@[simp] theorem State.setFlags_agenda (b : Byte) : (s.setFlags b).agenda = s.agenda := rfl

/-! ### `State.clearTxFlags` -/
@[simp] theorem State.clearTxFlags_cfg : s.clearTxFlags.cfg = s.cfg := rfl
@[simp] theorem State.clearTxFlags_regs : s.clearTxFlags.regs = s.regs := rfl
@[simp] theorem State.clearTxFlags_rxDr : s.clearTxFlags.rxDr = s.rxDr := rfl
@[simp] theorem State.clearTxFlags_txDs : s.clearTxFlags.txDs = s.txDs := rfl
@[simp] theorem State.clearTxFlags_maxRt : s.clearTxFlags.maxRt = s.maxRt := rfl
@[simp] theorem State.clearTxFlags_txf : s.clearTxFlags.txf = s.txf := rfl
@[simp] theorem State.clearTxFlags_rxf : s.clearTxFlags.rxf = s.rxf := rfl
@[simp] theorem State.clearTxFlags_ce : s.clearTxFlags.ce = s.ce := rfl
@[simp] theorem State.clearTxFlags_seq : s.clearTxFlags.seq = s.seq := rfl
@[simp] theorem State.clearTxFlags_retry : s.clearTxFlags.retry = s.retry := rfl
@[simp] theorem State.clearTxFlags_txTrigger : s.clearTxFlags.txTrigger = s.txTrigger := rfl
@[simp] theorem State.clearTxFlags_pulseUsed : s.clearTxFlags.pulseUsed = s.pulseUsed := rfl
@[simp] theorem State.clearTxFlags_settleUs : s.clearTxFlags.settleUs = s.settleUs := rfl
@[simp] theorem State.clearTxFlags_ceHighUs : s.clearTxFlags.ceHighUs = s.ceHighUs := rfl
@[simp] theorem State.clearTxFlags_nextId : s.clearTxFlags.nextId = s.nextId := rfl
@[simp] theorem State.clearTxFlags_lastRxId : s.clearTxFlags.lastRxId = s.lastRxId := rfl
@[simp] theorem State.clearTxFlags_featureLocked : s.clearTxFlags.featureLocked = s.featureLocked := rfl
@[simp] theorem State.clearTxFlags_bank : s.clearTxFlags.bank = s.bank := rfl
@[simp] theorem State.clearTxFlags_tune : s.clearTxFlags.tune = s.tune := rfl
@[simp] theorem State.clearTxFlags_fault : s.clearTxFlags.fault = s.fault := rfl
@[simp] theorem State.clearTxFlags_drvState : s.clearTxFlags.drvState = s.drvState := rfl
@[simp] theorem State.clearTxFlags_drvPipes : s.clearTxFlags.drvPipes = s.drvPipes := rfl
@[simp] theorem State.clearTxFlags_thread : s.clearTxFlags.thread = s.thread := rfl
@[simp] theorem State.clearTxFlags_irqThread : s.clearTxFlags.irqThread = s.irqThread := rfl
@[simp] theorem State.clearTxFlags_opResult : s.clearTxFlags.opResult = s.opResult := rfl
@[simp] theorem State.clearTxFlags_reply : s.clearTxFlags.reply = s.reply := rfl
@[simp] theorem State.clearTxFlags_emitted : s.clearTxFlags.emitted = s.emitted := rfl
@[simp] theorem State.clearTxFlags_draws : s.clearTxFlags.draws = s.draws := rfl
@[simp] theorem State.clearTxFlags_agenda : s.clearTxFlags.agenda = s.agenda := rfl

/-! ### `State.setFrames` -/
@[simp] theorem State.setFrames_cfg (fs : List DriverFrame) : (s.setFrames fs).cfg = s.cfg := by
  unfold State.setFrames; split <;> rfl
@[simp] theorem State.setFrames_regs (fs : List DriverFrame) : (s.setFrames fs).regs = s.regs := by
  unfold State.setFrames; split <;> rfl
@[simp] theorem State.setFrames_rxDr (fs : List DriverFrame) : (s.setFrames fs).rxDr = s.rxDr := by
  unfold State.setFrames; split <;> rfl
@[simp] theorem State.setFrames_txDs (fs : List DriverFrame) : (s.setFrames fs).txDs = s.txDs := by
  unfold State.setFrames; split <;> rfl
@[simp] theorem State.setFrames_maxRt (fs : List DriverFrame) : (s.setFrames fs).maxRt = s.maxRt := by
  unfold State.setFrames; split <;> rfl
@[simp] theorem State.setFrames_txf (fs : List DriverFrame) : (s.setFrames fs).txf = s.txf := by
  unfold State.setFrames; split <;> rfl
@[simp] theorem State.setFrames_rxf (fs : List DriverFrame) : (s.setFrames fs).rxf = s.rxf := by
  unfold State.setFrames; split <;> rfl
@[simp] theorem State.setFrames_ce (fs : List DriverFrame) : (s.setFrames fs).ce = s.ce := by
  unfold State.setFrames; split <;> rfl
@[simp] theorem State.setFrames_seq (fs : List DriverFrame) : (s.setFrames fs).seq = s.seq := by
  unfold State.setFrames; split <;> rfl
@[simp] theorem State.setFrames_retry (fs : List DriverFrame) : (s.setFrames fs).retry = s.retry := by
  unfold State.setFrames; split <;> rfl
@[simp] theorem State.setFrames_txTrigger (fs : List DriverFrame) : (s.setFrames fs).txTrigger = s.txTrigger := by
  unfold State.setFrames; split <;> rfl
@[simp] theorem State.setFrames_pulseUsed (fs : List DriverFrame) : (s.setFrames fs).pulseUsed = s.pulseUsed := by
  unfold State.setFrames; split <;> rfl
@[simp] theorem State.setFrames_settleUs (fs : List DriverFrame) : (s.setFrames fs).settleUs = s.settleUs := by
  unfold State.setFrames; split <;> rfl
@[simp] theorem State.setFrames_ceHighUs (fs : List DriverFrame) : (s.setFrames fs).ceHighUs = s.ceHighUs := by
  unfold State.setFrames; split <;> rfl
@[simp] theorem State.setFrames_nextId (fs : List DriverFrame) : (s.setFrames fs).nextId = s.nextId := by
  unfold State.setFrames; split <;> rfl
@[simp] theorem State.setFrames_lastRxId (fs : List DriverFrame) : (s.setFrames fs).lastRxId = s.lastRxId := by
  unfold State.setFrames; split <;> rfl
@[simp] theorem State.setFrames_featureLocked (fs : List DriverFrame) : (s.setFrames fs).featureLocked = s.featureLocked := by
  unfold State.setFrames; split <;> rfl
@[simp] theorem State.setFrames_bank (fs : List DriverFrame) : (s.setFrames fs).bank = s.bank := by
  unfold State.setFrames; split <;> rfl
@[simp] theorem State.setFrames_tune (fs : List DriverFrame) : (s.setFrames fs).tune = s.tune := by
  unfold State.setFrames; split <;> rfl
@[simp] theorem State.setFrames_fault (fs : List DriverFrame) : (s.setFrames fs).fault = s.fault := by
  unfold State.setFrames; split <;> rfl
@[simp] theorem State.setFrames_ev (fs : List DriverFrame) : (s.setFrames fs).ev = s.ev := by
  unfold State.setFrames; split <;> rfl
@[simp] theorem State.setFrames_drvState (fs : List DriverFrame) : (s.setFrames fs).drvState = s.drvState := by
  unfold State.setFrames; split <;> rfl
@[simp] theorem State.setFrames_drvPipes (fs : List DriverFrame) : (s.setFrames fs).drvPipes = s.drvPipes := by
  unfold State.setFrames; split <;> rfl
@[simp] theorem State.setFrames_thread (fs : List DriverFrame) : (s.setFrames fs).thread = if s.irqThread.isEmpty then fs else s.thread := by
  unfold State.setFrames; split <;> rfl
@[simp] theorem State.setFrames_irqThread (fs : List DriverFrame) : (s.setFrames fs).irqThread = if s.irqThread.isEmpty then s.irqThread else fs := by
  unfold State.setFrames; split <;> rfl
@[simp] theorem State.setFrames_opResult (fs : List DriverFrame) : (s.setFrames fs).opResult = s.opResult := by
  unfold State.setFrames; split <;> rfl
@[simp] theorem State.setFrames_reply (fs : List DriverFrame) : (s.setFrames fs).reply = s.reply := by
  unfold State.setFrames; split <;> rfl
@[simp] theorem State.setFrames_emitted (fs : List DriverFrame) : (s.setFrames fs).emitted = s.emitted := by
  unfold State.setFrames; split <;> rfl
@[simp] theorem State.setFrames_draws (fs : List DriverFrame) : (s.setFrames fs).draws = s.draws := by
  unfold State.setFrames; split <;> rfl
@[simp] theorem State.setFrames_agenda (fs : List DriverFrame) : (s.setFrames fs).agenda = s.agenda := by
  unfold State.setFrames; split <;> rfl

/-! ### `State.emitAck` -/
@[simp] theorem State.emitAck_cfg (p : Pipe) (b : Option (List Byte)) : (s.emitAck p b).cfg = s.cfg := rfl
@[simp] theorem State.emitAck_regs (p : Pipe) (b : Option (List Byte)) : (s.emitAck p b).regs = s.regs := rfl
@[simp] theorem State.emitAck_rxDr (p : Pipe) (b : Option (List Byte)) : (s.emitAck p b).rxDr = s.rxDr := rfl
@[simp] theorem State.emitAck_txDs (p : Pipe) (b : Option (List Byte)) : (s.emitAck p b).txDs = s.txDs := rfl
@[simp] theorem State.emitAck_maxRt (p : Pipe) (b : Option (List Byte)) : (s.emitAck p b).maxRt = s.maxRt := rfl
@[simp] theorem State.emitAck_txf (p : Pipe) (b : Option (List Byte)) : (s.emitAck p b).txf = s.txf := rfl
@[simp] theorem State.emitAck_rxf (p : Pipe) (b : Option (List Byte)) : (s.emitAck p b).rxf = s.rxf := rfl
@[simp] theorem State.emitAck_ce (p : Pipe) (b : Option (List Byte)) : (s.emitAck p b).ce = s.ce := rfl
@[simp] theorem State.emitAck_seq (p : Pipe) (b : Option (List Byte)) : (s.emitAck p b).seq = s.seq := rfl
@[simp] theorem State.emitAck_retry (p : Pipe) (b : Option (List Byte)) : (s.emitAck p b).retry = s.retry := rfl
@[simp] theorem State.emitAck_txTrigger (p : Pipe) (b : Option (List Byte)) : (s.emitAck p b).txTrigger = s.txTrigger := rfl
@[simp] theorem State.emitAck_pulseUsed (p : Pipe) (b : Option (List Byte)) : (s.emitAck p b).pulseUsed = s.pulseUsed := rfl
@[simp] theorem State.emitAck_settleUs (p : Pipe) (b : Option (List Byte)) : (s.emitAck p b).settleUs = s.settleUs := rfl
@[simp] theorem State.emitAck_ceHighUs (p : Pipe) (b : Option (List Byte)) : (s.emitAck p b).ceHighUs = s.ceHighUs := rfl
@[simp] theorem State.emitAck_nextId (p : Pipe) (b : Option (List Byte)) : (s.emitAck p b).nextId = s.nextId := rfl
@[simp] theorem State.emitAck_lastRxId (p : Pipe) (b : Option (List Byte)) : (s.emitAck p b).lastRxId = s.lastRxId := rfl
@[simp] theorem State.emitAck_featureLocked (p : Pipe) (b : Option (List Byte)) : (s.emitAck p b).featureLocked = s.featureLocked := rfl
@[simp] theorem State.emitAck_bank (p : Pipe) (b : Option (List Byte)) : (s.emitAck p b).bank = s.bank := rfl
@[simp] theorem State.emitAck_tune (p : Pipe) (b : Option (List Byte)) : (s.emitAck p b).tune = s.tune := rfl
@[simp] theorem State.emitAck_fault (p : Pipe) (b : Option (List Byte)) : (s.emitAck p b).fault = s.fault := rfl
@[simp] theorem State.emitAck_ev (p : Pipe) (b : Option (List Byte)) : (s.emitAck p b).ev = s.ev := rfl
@[simp] theorem State.emitAck_drvState (p : Pipe) (b : Option (List Byte)) : (s.emitAck p b).drvState = s.drvState := rfl
@[simp] theorem State.emitAck_drvPipes (p : Pipe) (b : Option (List Byte)) : (s.emitAck p b).drvPipes = s.drvPipes := rfl
@[simp] theorem State.emitAck_thread (p : Pipe) (b : Option (List Byte)) : (s.emitAck p b).thread = s.thread := rfl
@[simp] theorem State.emitAck_irqThread (p : Pipe) (b : Option (List Byte)) : (s.emitAck p b).irqThread = s.irqThread := rfl
@[simp] theorem State.emitAck_opResult (p : Pipe) (b : Option (List Byte)) : (s.emitAck p b).opResult = s.opResult := rfl
@[simp] theorem State.emitAck_reply (p : Pipe) (b : Option (List Byte)) : (s.emitAck p b).reply = s.reply := rfl
@[simp] theorem State.emitAck_emitted (p : Pipe) (b : Option (List Byte)) : (s.emitAck p b).emitted = s.emitted ++ [.ack { addr := s.effAddr p, payload := b }] := rfl
@[simp] theorem State.emitAck_draws (p : Pipe) (b : Option (List Byte)) : (s.emitAck p b).draws = s.draws := rfl
@[simp] theorem State.emitAck_agenda (p : Pipe) (b : Option (List Byte)) : (s.emitAck p b).agenda = s.agenda := rfl

/-! ### `State.storeFrame` -/
@[simp] theorem State.storeFrame_cfg (k : AirPacket) (p : Pipe) : (s.storeFrame k p).cfg = s.cfg := rfl
@[simp] theorem State.storeFrame_regs (k : AirPacket) (p : Pipe) : (s.storeFrame k p).regs = s.regs := rfl
@[simp] theorem State.storeFrame_rxDr (k : AirPacket) (p : Pipe) : (s.storeFrame k p).rxDr = true := rfl
@[simp] theorem State.storeFrame_txDs (k : AirPacket) (p : Pipe) : (s.storeFrame k p).txDs = s.txDs := rfl
@[simp] theorem State.storeFrame_maxRt (k : AirPacket) (p : Pipe) : (s.storeFrame k p).maxRt = s.maxRt := rfl
@[simp] theorem State.storeFrame_txf (k : AirPacket) (p : Pipe) : (s.storeFrame k p).txf = s.txf := rfl
@[simp] theorem State.storeFrame_rxf (k : AirPacket) (p : Pipe) : (s.storeFrame k p).rxf = s.rxf ++ [rxEntry p k.bytes] := rfl
@[simp] theorem State.storeFrame_ce (k : AirPacket) (p : Pipe) : (s.storeFrame k p).ce = s.ce := rfl
@[simp] theorem State.storeFrame_seq (k : AirPacket) (p : Pipe) : (s.storeFrame k p).seq = s.seq := rfl
@[simp] theorem State.storeFrame_retry (k : AirPacket) (p : Pipe) : (s.storeFrame k p).retry = s.retry := rfl
@[simp] theorem State.storeFrame_txTrigger (k : AirPacket) (p : Pipe) : (s.storeFrame k p).txTrigger = s.txTrigger := rfl
@[simp] theorem State.storeFrame_pulseUsed (k : AirPacket) (p : Pipe) : (s.storeFrame k p).pulseUsed = s.pulseUsed := rfl
@[simp] theorem State.storeFrame_settleUs (k : AirPacket) (p : Pipe) : (s.storeFrame k p).settleUs = s.settleUs := rfl
@[simp] theorem State.storeFrame_ceHighUs (k : AirPacket) (p : Pipe) : (s.storeFrame k p).ceHighUs = s.ceHighUs := rfl
@[simp] theorem State.storeFrame_nextId (k : AirPacket) (p : Pipe) : (s.storeFrame k p).nextId = s.nextId := rfl
@[simp] theorem State.storeFrame_lastRxId (k : AirPacket) (p : Pipe) : (s.storeFrame k p).lastRxId = some k.id := rfl
@[simp] theorem State.storeFrame_featureLocked (k : AirPacket) (p : Pipe) : (s.storeFrame k p).featureLocked = s.featureLocked := rfl
@[simp] theorem State.storeFrame_bank (k : AirPacket) (p : Pipe) : (s.storeFrame k p).bank = s.bank := rfl
@[simp] theorem State.storeFrame_tune (k : AirPacket) (p : Pipe) : (s.storeFrame k p).tune = s.tune := rfl
@[simp] theorem State.storeFrame_fault (k : AirPacket) (p : Pipe) : (s.storeFrame k p).fault = s.fault := rfl
@[simp] theorem State.storeFrame_ev (k : AirPacket) (p : Pipe) : (s.storeFrame k p).ev = s.ev := rfl
@[simp] theorem State.storeFrame_drvState (k : AirPacket) (p : Pipe) : (s.storeFrame k p).drvState = s.drvState := rfl
@[simp] theorem State.storeFrame_drvPipes (k : AirPacket) (p : Pipe) : (s.storeFrame k p).drvPipes = s.drvPipes := rfl
@[simp] theorem State.storeFrame_thread (k : AirPacket) (p : Pipe) : (s.storeFrame k p).thread = s.thread := rfl
@[simp] theorem State.storeFrame_irqThread (k : AirPacket) (p : Pipe) : (s.storeFrame k p).irqThread = s.irqThread := rfl
@[simp] theorem State.storeFrame_opResult (k : AirPacket) (p : Pipe) : (s.storeFrame k p).opResult = s.opResult := rfl
@[simp] theorem State.storeFrame_reply (k : AirPacket) (p : Pipe) : (s.storeFrame k p).reply = s.reply := rfl
@[simp] theorem State.storeFrame_emitted (k : AirPacket) (p : Pipe) : (s.storeFrame k p).emitted = s.emitted := rfl
@[simp] theorem State.storeFrame_draws (k : AirPacket) (p : Pipe) : (s.storeFrame k p).draws = s.draws := rfl
@[simp] theorem State.storeFrame_agenda (k : AirPacket) (p : Pipe) : (s.storeFrame k p).agenda = s.agenda := rfl

/-! ### `State.storePlain` -/
@[simp] theorem State.storePlain_cfg (r : RegName) (v : Byte) (d : List Byte) : (s.storePlain r v d).cfg = s.cfg := by
  unfold State.storePlain; split <;> rfl
@[simp] theorem State.storePlain_regs (r : RegName) (v : Byte) (d : List Byte) : (s.storePlain r v d).regs = if regWidth r = 5 then setRegBytes s.regs r d else setRegByte s.regs r (s.masked r v) := by
  unfold State.storePlain; split <;> rfl
@[simp] theorem State.storePlain_rxDr (r : RegName) (v : Byte) (d : List Byte) : (s.storePlain r v d).rxDr = s.rxDr := by
  unfold State.storePlain; split <;> rfl
@[simp] theorem State.storePlain_txDs (r : RegName) (v : Byte) (d : List Byte) : (s.storePlain r v d).txDs = s.txDs := by
  unfold State.storePlain; split <;> rfl
@[simp] theorem State.storePlain_maxRt (r : RegName) (v : Byte) (d : List Byte) : (s.storePlain r v d).maxRt = s.maxRt := by
  unfold State.storePlain; split <;> rfl
@[simp] theorem State.storePlain_txf (r : RegName) (v : Byte) (d : List Byte) : (s.storePlain r v d).txf = s.txf := by
  unfold State.storePlain; split <;> rfl
@[simp] theorem State.storePlain_rxf (r : RegName) (v : Byte) (d : List Byte) : (s.storePlain r v d).rxf = s.rxf := by
  unfold State.storePlain; split <;> rfl
@[simp] theorem State.storePlain_ce (r : RegName) (v : Byte) (d : List Byte) : (s.storePlain r v d).ce = s.ce := by
  unfold State.storePlain; split <;> rfl
@[simp] theorem State.storePlain_seq (r : RegName) (v : Byte) (d : List Byte) : (s.storePlain r v d).seq = s.seq := by
  unfold State.storePlain; split <;> rfl
@[simp] theorem State.storePlain_retry (r : RegName) (v : Byte) (d : List Byte) : (s.storePlain r v d).retry = s.retry := by
  unfold State.storePlain; split <;> rfl
@[simp] theorem State.storePlain_txTrigger (r : RegName) (v : Byte) (d : List Byte) : (s.storePlain r v d).txTrigger = s.txTrigger := by
  unfold State.storePlain; split <;> rfl
@[simp] theorem State.storePlain_pulseUsed (r : RegName) (v : Byte) (d : List Byte) : (s.storePlain r v d).pulseUsed = s.pulseUsed := by
  unfold State.storePlain; split <;> rfl
@[simp] theorem State.storePlain_settleUs (r : RegName) (v : Byte) (d : List Byte) : (s.storePlain r v d).settleUs = s.settleUs := by
  unfold State.storePlain; split <;> rfl
@[simp] theorem State.storePlain_ceHighUs (r : RegName) (v : Byte) (d : List Byte) : (s.storePlain r v d).ceHighUs = s.ceHighUs := by
  unfold State.storePlain; split <;> rfl
@[simp] theorem State.storePlain_nextId (r : RegName) (v : Byte) (d : List Byte) : (s.storePlain r v d).nextId = s.nextId := by
  unfold State.storePlain; split <;> rfl
@[simp] theorem State.storePlain_lastRxId (r : RegName) (v : Byte) (d : List Byte) : (s.storePlain r v d).lastRxId = s.lastRxId := by
  unfold State.storePlain; split <;> rfl
@[simp] theorem State.storePlain_featureLocked (r : RegName) (v : Byte) (d : List Byte) : (s.storePlain r v d).featureLocked = s.featureLocked := by
  unfold State.storePlain; split <;> rfl
@[simp] theorem State.storePlain_bank (r : RegName) (v : Byte) (d : List Byte) : (s.storePlain r v d).bank = s.bank := by
  unfold State.storePlain; split <;> rfl
@[simp] theorem State.storePlain_tune (r : RegName) (v : Byte) (d : List Byte) : (s.storePlain r v d).tune = s.tune := by
  unfold State.storePlain; split <;> rfl
@[simp] theorem State.storePlain_fault (r : RegName) (v : Byte) (d : List Byte) : (s.storePlain r v d).fault = s.fault := by
  unfold State.storePlain; split <;> rfl
@[simp] theorem State.storePlain_ev (r : RegName) (v : Byte) (d : List Byte) : (s.storePlain r v d).ev = s.ev := by
  unfold State.storePlain; split <;> rfl
@[simp] theorem State.storePlain_drvState (r : RegName) (v : Byte) (d : List Byte) : (s.storePlain r v d).drvState = s.drvState := by
  unfold State.storePlain; split <;> rfl
@[simp] theorem State.storePlain_drvPipes (r : RegName) (v : Byte) (d : List Byte) : (s.storePlain r v d).drvPipes = s.drvPipes := by
  unfold State.storePlain; split <;> rfl
@[simp] theorem State.storePlain_thread (r : RegName) (v : Byte) (d : List Byte) : (s.storePlain r v d).thread = s.thread := by
  unfold State.storePlain; split <;> rfl
@[simp] theorem State.storePlain_irqThread (r : RegName) (v : Byte) (d : List Byte) : (s.storePlain r v d).irqThread = s.irqThread := by
  unfold State.storePlain; split <;> rfl
@[simp] theorem State.storePlain_opResult (r : RegName) (v : Byte) (d : List Byte) : (s.storePlain r v d).opResult = s.opResult := by
  unfold State.storePlain; split <;> rfl
@[simp] theorem State.storePlain_reply (r : RegName) (v : Byte) (d : List Byte) : (s.storePlain r v d).reply = s.reply := by
  unfold State.storePlain; split <;> rfl
@[simp] theorem State.storePlain_emitted (r : RegName) (v : Byte) (d : List Byte) : (s.storePlain r v d).emitted = s.emitted := by
  unfold State.storePlain; split <;> rfl
@[simp] theorem State.storePlain_draws (r : RegName) (v : Byte) (d : List Byte) : (s.storePlain r v d).draws = s.draws := by
  unfold State.storePlain; split <;> rfl
@[simp] theorem State.storePlain_agenda (r : RegName) (v : Byte) (d : List Byte) : (s.storePlain r v d).agenda = s.agenda := by
  unfold State.storePlain; split <;> rfl

/-! ### Views that an update leaves alone -/
@[simp] theorem State.sampled_field (f : Field) : s.sampled.field f = s.field f := rfl
@[simp] theorem State.sampled_bit (f : Field) : s.sampled.bit f = s.bit f := rfl
@[simp] theorem State.replyData_field (d : List Byte) (f : Field) : (s.replyData d).field f = s.field f := rfl
@[simp] theorem State.replyData_bit (d : List Byte) (f : Field) : (s.replyData d).bit f = s.bit f := rfl
@[simp] theorem State.drew_field (n : Nat) (f : Field) : (s.drew n).field f = s.field f := rfl
@[simp] theorem State.drew_bit (n : Nat) (f : Field) : (s.drew n).bit f = s.bit f := rfl
@[simp] theorem State.replyDrawn_field (n : Nat) (f : Field) : (s.replyDrawn n).field f = s.field f := rfl
@[simp] theorem State.replyDrawn_bit (n : Nat) (f : Field) : (s.replyDrawn n).bit f = s.bit f := rfl
@[simp] theorem State.pushTx_field (k : EntryKind) (b : List Byte) (q : Bool) (f : Field) : (s.pushTx k b q).field f = s.field f := rfl
@[simp] theorem State.pushTx_bit (k : EntryKind) (b : List Byte) (q : Bool) (f : Field) : (s.pushTx k b q).bit f = s.bit f := rfl
@[simp] theorem State.pushRx_field (e : RxEntry) (f : Field) : (s.pushRx e).field f = s.field f := rfl
@[simp] theorem State.pushRx_bit (e : RxEntry) (f : Field) : (s.pushRx e).bit f = s.bit f := rfl
@[simp] theorem State.emit_field (e : Emission) (f : Field) : (s.emit e).field f = s.field f := rfl
@[simp] theorem State.emit_bit (e : Emission) (f : Field) : (s.emit e).bit f = s.bit f := rfl
@[simp] theorem State.removeCur_field (f : Field) : s.removeCur.field f = s.field f := rfl
@[simp] theorem State.removeCur_bit (f : Field) : s.removeCur.bit f = s.bit f := rfl
@[simp] theorem State.abortBurst_field (f : Field) : s.abortBurst.field f = s.field f := rfl
@[simp] theorem State.abortBurst_bit (f : Field) : s.abortBurst.bit f = s.bit f := rfl
@[simp] theorem State.clearEvents_field (v : Byte) (f : Field) : (s.clearEvents v).field f = s.field f := rfl
@[simp] theorem State.clearEvents_bit (v : Byte) (f : Field) : (s.clearEvents v).bit f = s.bit f := rfl
@[simp] theorem State.powerUpEffect_field (f : Field) : s.powerUpEffect.field f = s.field f := rfl
@[simp] theorem State.powerUpEffect_bit (f : Field) : s.powerUpEffect.bit f = s.bit f := rfl
@[simp] theorem State.powerDownEffect_field (f : Field) : s.powerDownEffect.field f = s.field f := by
  unfold State.powerDownEffect; split <;> rfl
@[simp] theorem State.powerDownEffect_bit (f : Field) : s.powerDownEffect.bit f = s.bit f := by
  unfold State.powerDownEffect; split <;> rfl
@[simp] theorem State.tuneWrite_field (a : RegAddr) (d : List Byte) (f : Field) : (s.tuneWrite a d).field f = s.field f := rfl
@[simp] theorem State.tuneWrite_bit (a : RegAddr) (d : List Byte) (f : Field) : (s.tuneWrite a d).bit f = s.bit f := rfl
@[simp] theorem State.flushTx_field (f : Field) : s.flushTx.field f = s.field f := by
  unfold State.flushTx; split <;> rfl
@[simp] theorem State.flushTx_bit (f : Field) : s.flushTx.bit f = s.bit f := by
  unfold State.flushTx; split <;> rfl
@[simp] theorem State.startBurst_field (f : Field) : s.startBurst.field f = s.field f := rfl
@[simp] theorem State.startBurst_bit (f : Field) : s.startBurst.bit f = s.bit f := rfl
@[simp] theorem State.completeBurst_field (f : Field) : s.completeBurst.field f = s.field f := rfl
@[simp] theorem State.completeBurst_bit (f : Field) : s.completeBurst.bit f = s.bit f := rfl
@[simp] theorem State.result_field (r : OpResult) (f : Field) : (s.result r).field f = s.field f := rfl
@[simp] theorem State.result_bit (r : OpResult) (f : Field) : (s.result r).bit f = s.bit f := rfl
@[simp] theorem State.setFlags_field (b : Byte) (f : Field) : (s.setFlags b).field f = s.field f := rfl
@[simp] theorem State.setFlags_bit (b : Byte) (f : Field) : (s.setFlags b).bit f = s.bit f := rfl
@[simp] theorem State.clearTxFlags_field (f : Field) : s.clearTxFlags.field f = s.field f := rfl
@[simp] theorem State.clearTxFlags_bit (f : Field) : s.clearTxFlags.bit f = s.bit f := rfl
@[simp] theorem State.setFrames_field (fs : List DriverFrame) (f : Field) : (s.setFrames fs).field f = s.field f := by
  unfold State.setFrames; split <;> rfl
@[simp] theorem State.setFrames_bit (fs : List DriverFrame) (f : Field) : (s.setFrames fs).bit f = s.bit f := by
  unfold State.setFrames; split <;> rfl
@[simp] theorem State.emitAck_field (p : Pipe) (b : Option (List Byte)) (f : Field) : (s.emitAck p b).field f = s.field f := rfl
@[simp] theorem State.emitAck_bit (p : Pipe) (b : Option (List Byte)) (f : Field) : (s.emitAck p b).bit f = s.bit f := rfl
@[simp] theorem State.storeFrame_field (k : AirPacket) (p : Pipe) (f : Field) : (s.storeFrame k p).field f = s.field f := rfl
@[simp] theorem State.storeFrame_bit (k : AirPacket) (p : Pipe) (f : Field) : (s.storeFrame k p).bit f = s.bit f := rfl

end Sys2Proof.Machine
end

