-- ==== Sys2Proof/Laws/Ops.lean ====
section
/-! SUPPORT. One lemma for each shared operation, saying everything it can do. -/
namespace Sys2Proof.Machine

/-! ### Faults and the common checks -/

@[simp] theorem raise_eq (r : Fault) : raise r = .fault r := rfl

theorem unlessFaulted_eq {s : State} {k : State → Outcome} (h : s.fault = none) : unlessFaulted s k = k s := by
  simp [unlessFaulted, h]

theorem unlessFaulted_faulted {s : State} {k : State → Outcome} {r : Fault} (h : s.fault = some r) :
    unlessFaulted s k = .fault r := by
  simp [unlessFaulted, h]

/-- Everything `unlessFaulted` can do. -/
theorem unlessFaulted_cases (s : State) (k : State → Outcome) :
    (s.fault = none ∧ unlessFaulted s k = k s) ∨ ∃ r, s.fault = some r ∧ unlessFaulted s k = .fault r := by
  cases h : s.fault with
  | none => exact .inl ⟨rfl, unlessFaulted_eq h⟩
  | some r => exact .inr ⟨r, rfl, unlessFaulted_faulted h⟩

theorem unlessFaulted_next {s t : State} {k : State → Outcome} (h : unlessFaulted s k = .next t) :
    s.fault = none ∧ k s = .next t := by
  rcases unlessFaulted_cases s k with ⟨hf, he⟩ | ⟨r, -, he⟩
  · exact ⟨hf, he ▸ h⟩
  · rw [he] at h; cases h

theorem busAccess_ready {a : Access} {s : State} {k : State → Outcome} (h : s.Ready) :
    busAccess a s k = k s.sampled := by
  simp [busAccess, unlessFaulted_eq h.unfaulted, h.settled]

theorem busAccess_settling {a : Access} {s : State} {k : State → Outcome} (h : s.fault = none)
    (hs : 0 < s.settleUs) : busAccess a s k = .fault (.accessDuringSettling a) := by
  simp [busAccess, unlessFaulted_eq h, hs]

theorem busAccess_next {a : Access} {s t : State} {k : State → Outcome} (h : busAccess a s k = .next t) :
    s.Ready ∧ k s.sampled = .next t := by
  obtain ⟨hf, h⟩ := unlessFaulted_next h
  by_cases hs : s.settleUs > 0
  · simp [hs] at h
  · rw [if_neg hs] at h
    exact ⟨⟨hf, by omega⟩, h⟩

theorem busCommand_ready {c : BusCmd} {n : Nat} {s : State} {k : State → Outcome} (h : s.Ready) :
    busCommand c n true s k = k s.sampled := by
  simp [busCommand, busAccess_ready h]

theorem busCommand_badCount {c : BusCmd} {n : Nat} {s : State} {k : State → Outcome} (h : s.Ready) :
    busCommand c n false s k = .fault (.badTransactionLength c n) := by
  simp [busCommand, busAccess_ready h]

theorem busCommand_next {c : BusCmd} {n : Nat} {ok : Bool} {s t : State} {k : State → Outcome}
    (h : busCommand c n ok s k = .next t) : s.Ready ∧ ok = true ∧ k s.sampled = .next t := by
  obtain ⟨hr, h⟩ := busAccess_next h
  cases ok with
  | true => exact ⟨hr, rfl, h⟩
  | false => simp at h

/-! ### The sampled state: only the reply differs -/

@[simp] theorem State.sampled_status (s : State) : s.sampled.status = s.status := rfl
@[simp] theorem State.sampled_fifoStatus (s : State) : s.sampled.fifoStatus = s.fifoStatus := rfl
@[simp] theorem State.sampled_txFull (s : State) : s.sampled.txFull = s.txFull := rfl
@[simp] theorem State.sampled_mode (s : State) : s.sampled.mode = s.mode := rfl
@[simp] theorem State.sampled_isActive (s : State) : s.sampled.isActive = s.isActive := rfl
@[simp] theorem State.sampled_irqLine (s : State) : s.sampled.irqLine = s.irqLine := rfl
@[simp] theorem State.sampled_inTuneBank (s : State) (a : RegAddr) : s.sampled.inTuneBank a = s.inTuneBank a := rfl
@[simp] theorem State.sampled_masked (s : State) (r : RegName) (v : Byte) : s.sampled.masked r v = s.masked r v := rfl
@[simp] theorem State.sampled_drawnBytes (s : State) (n : Nat) : s.sampled.drawnBytes n = s.drawnBytes n := rfl

/-! ### The status byte -/

/-- The parts of the status byte (spec/10_state.md R24). -/
theorem status_parts (bank dr ds rt : Bool) (pipe : BitVec 3) (full : Bool) :
    let v := BitVec.ofBool bank ++ BitVec.ofBool dr ++ BitVec.ofBool ds ++ BitVec.ofBool rt ++ pipe
      ++ BitVec.ofBool full
    v.getLsbD 7 = bank ∧ v.getLsbD 6 = dr ∧ v.getLsbD 5 = ds ∧ v.getLsbD 4 = rt ∧ v.extractLsb' 1 3 = pipe ∧
      v.getLsbD 0 = full := by
  revert bank dr ds rt pipe full
  decide

@[simp] theorem State.status_bank (s : State) : s.status.getLsbD 7 = s.bankBit := (status_parts ..).1
@[simp] theorem State.status_rxDr (s : State) : s.status.getLsbD 6 = s.rxDr := (status_parts ..).2.1
@[simp] theorem State.status_txDs (s : State) : s.status.getLsbD 5 = s.txDs := (status_parts ..).2.2.1
@[simp] theorem State.status_maxRt (s : State) : s.status.getLsbD 4 = s.maxRt := (status_parts ..).2.2.2.1
@[simp] theorem State.status_pipe (s : State) : s.status.extractLsb' 1 3 = s.rxPNo := (status_parts ..).2.2.2.2.1
@[simp] theorem State.status_full (s : State) : s.status.getLsbD 0 = s.txFull := (status_parts ..).2.2.2.2.2

/-! ### Free values -/

theorem State.drew_zero (s : State) : s.drew 0 = s := rfl

@[simp] theorem State.drawnBytes_length (s : State) (n : Nat) : (s.drawnBytes n).length = n := by
  simp [State.drawnBytes]

@[simp] theorem State.drawnBytes_zero (s : State) : s.drawnBytes 0 = [] := rfl

/-! ### The tuning bank -/

theorem tuneGet_nil_of_lt {t : List (Nat × List Byte)} {a : Nat} (h : ∀ e ∈ t, a < e.1) : tuneGet t a = [] := by
  induction t with
  | nil => rfl
  | cons e rest ih =>
    obtain ⟨b, d⟩ := e
    have hb : a < b := h (b, d) (by simp)
    simp only [tuneGet, if_neg (by omega : ¬ a = b)]
    exact ih fun e he => h e (by simp [he])

/-- A read after a write to the same register gives the bytes written. -/
theorem tuneGet_set_same {t : List (Nat × List Byte)} (a : Nat) (d : List Byte) (hw : tuneWf t) :
    tuneGet (tuneSet t a d) a = d := by
  induction t with
  | nil => by_cases hd : d.isEmpty <;> simp_all [tuneSet, tuneGet]
  | cons e rest ih =>
    obtain ⟨b, x⟩ := e
    obtain ⟨hp, hn⟩ := hw
    have hlt : ∀ e ∈ rest, b < e.1 := by
      intro e he
      exact (List.pairwise_cons.1 hp).1 e he
    have hr : tuneWf rest := ⟨(List.pairwise_cons.1 hp).2, fun e he => hn e (by simp [he])⟩
    simp only [tuneSet]
    split
    · rename_i hab
      by_cases hd : d.isEmpty
      · have : tuneGet ((b, x) :: rest) a = [] :=
          tuneGet_nil_of_lt (by
            intro e he
            rcases List.mem_cons.1 he with rfl | he
            · exact hab
            · exact Nat.lt_trans hab (hlt e he))
        simp_all
      · simp [hd, tuneGet]
    · split
      · rename_i hab
        by_cases hd : d.isEmpty
        · have : tuneGet rest a = [] := tuneGet_nil_of_lt (by intro e he; exact hab ▸ hlt e he)
          simp_all
        · simp [hd, tuneGet]
      · rename_i hab
        simp only [tuneGet, if_neg hab]
        exact ih hr

/-- A write leaves every other register alone. -/
theorem tuneGet_set_other {t : List (Nat × List Byte)} {a b : Nat} (d : List Byte) (h : b ≠ a) :
    tuneGet (tuneSet t a d) b = tuneGet t b := by
  induction t with
  | nil => by_cases hd : d.isEmpty <;> simp [tuneSet, tuneGet, hd, h]
  | cons e rest ih =>
    obtain ⟨c, x⟩ := e
    simp only [tuneSet]
    split
    · by_cases hd : d.isEmpty <;> simp [hd, tuneGet, h]
    · split
      · rename_i hac
        subst hac
        by_cases hd : d.isEmpty <;> simp [hd, tuneGet, h]
      · simp only [tuneGet, ih]

theorem tuneSet_mem {t : List (Nat × List Byte)} {a : Nat} {d : List Byte} {e : Nat × List Byte}
    (h : e ∈ tuneSet t a d) : e ∈ t ∨ (e = (a, d) ∧ d ≠ []) := by
  induction t with
  | nil => by_cases hd : d.isEmpty <;> simp_all [tuneSet]
  | cons f rest ih =>
    obtain ⟨b, x⟩ := f
    simp only [tuneSet] at h
    split at h
    · by_cases hd : d.isEmpty
      · rw [if_pos hd] at h; exact .inl h
      · rw [if_neg hd] at h
        rcases List.mem_cons.1 h with h | h
        · exact .inr ⟨h, by simpa using hd⟩
        · exact .inl h
    · split at h
      · by_cases hd : d.isEmpty
        · rw [if_pos hd] at h; exact .inl (by simp [h])
        · rw [if_neg hd] at h
          rcases List.mem_cons.1 h with h | h
          · exact .inr ⟨h, by simpa using hd⟩
          · exact .inl (by simp [h])
      · rcases List.mem_cons.1 h with h | h
        · exact .inl (by simp [h])
        · rcases ih h with h | h
          · exact .inl (by simp [h])
          · exact .inr h

/-- Every write keeps the canonical form. -/
theorem tuneSet_wf {t : List (Nat × List Byte)} (a : Nat) (d : List Byte) (hw : tuneWf t) :
    tuneWf (tuneSet t a d) := by
  refine ⟨?_, fun e he => ?_⟩
  · induction t with
    | nil => by_cases hd : d.isEmpty <;> simp [tuneSet, hd]
    | cons e rest ih =>
      obtain ⟨b, x⟩ := e
      obtain ⟨hp, hn⟩ := hw
      obtain ⟨hlt, hr⟩ := List.pairwise_cons.1 hp
      have hnr : ∀ e ∈ rest, e.2 ≠ [] := fun e he => hn e (by simp [he])
      simp only [tuneSet]
      split
      · rename_i hab
        by_cases hd : d.isEmpty
        · rw [if_pos hd]; exact hp
        · rw [if_neg hd]
          refine List.pairwise_cons.2 ⟨fun e he => ?_, hp⟩
          rcases List.mem_cons.1 he with rfl | he
          · exact hab
          · exact Nat.lt_trans hab (hlt e he)
      · split
        · rename_i hab
          by_cases hd : d.isEmpty
          · rw [if_pos hd]; exact hr
          · rw [if_neg hd]
            exact List.pairwise_cons.2 ⟨fun e he => hab ▸ hlt e he, hr⟩
        · rename_i h1 h2
          refine List.pairwise_cons.2 ⟨fun e he => ?_, ih ⟨hr, hnr⟩⟩
          rcases tuneSet_mem he with he | ⟨rfl, -⟩
          · exact hlt e he
          · show b < a; omega
  · rcases tuneSet_mem he with he | ⟨rfl, hd⟩
    · exact hw.2 e he
    · exact hd

theorem tuneWf_nil : tuneWf [] := ⟨List.Pairwise.nil, by simp⟩

/-! ### Stored registers -/

@[simp] theorem addrBytes_length (a : Addr5) : (addrBytes a).length = 5 := rfl

/-- `MemWrite` of at most five bytes replaces the first bytes and keeps the rest (spec/20_memory.md R67). -/
theorem addrBytes_addrWrite (a : Addr5) (d : List Byte) (h : d.length ≤ 5) :
    addrBytes (addrWrite a d) = d ++ (addrBytes a).drop d.length := by
  match d, h with
  | [], _ => rfl
  | [_], _ => rfl
  | [_, _], _ => rfl
  | [_, _, _], _ => rfl
  | [_, _, _, _], _ => rfl
  | [_, _, _, _, _], _ => rfl
  | _ :: _ :: _ :: _ :: _ :: _ :: _, h => simp only [List.length_cons] at h; omega

theorem regByte_setRegByte_same (x : Regs) {r : RegName} (v : Byte) (h : r ∈ storedByteRegs) :
    regByte (setRegByte x r v) r = v := by
  unfold setRegByte
  split <;> first | rfl | exact absurd h (by simp_all [storedByteRegs])

/-- A store leaves every other register name's byte alone. -/
theorem regByte_setRegByte_ne (x : Regs) {r q : RegName} (v : Byte) (h : q ≠ r) :
    regByte (setRegByte x r v) q = regByte x q := by
  unfold setRegByte
  split <;> unfold regByte <;> split <;> first | rfl | exact absurd rfl h

@[simp] theorem regAddr5_setRegByte (x : Regs) (r q : RegName) (v : Byte) :
    regAddr5 (setRegByte x r v) q = regAddr5 x q := by
  unfold setRegByte
  split <;> rfl

/-- The store of one byte leaves the bytes of every other register alone. -/
theorem regBytes_setRegByte_other (x : Regs) {r q : RegName} (v : Byte) (h : q ≠ r) :
    regBytes (setRegByte x r v) q = regBytes x q := by
  simp [regBytes, regByte_setRegByte_ne x v h]

/-- The five-byte registers (spec/10_state.md R31). -/
theorem regWidth_five {r : RegName} (h : regWidth r = 5) : r = .rxAddr 0 ∨ r = .rxAddr 1 ∨ r = .txAddr := by
  cases r <;> simp [regWidth] at h ⊢
  rename_i p
  match p, h with
  | 0, _ => exact .inl rfl
  | 1, _ => exact .inr rfl

@[simp] theorem regByte_setRegBytes (x : Regs) (r q : RegName) (d : List Byte) :
    regByte (setRegBytes x r d) q = regByte x q := by
  unfold setRegBytes
  split <;> rfl

/-- The store of a five-byte register leaves the bytes of every other register alone. -/
theorem regBytes_setRegBytes_other (x : Regs) {r q : RegName} (d : List Byte) (h : q ≠ r) :
    regBytes (setRegBytes x r d) q = regBytes x q := by
  have five : regAddr5 (setRegBytes x r d) q = regAddr5 x q := by
    unfold setRegBytes
    split <;> unfold regAddr5 <;> split <;> first | rfl | exact absurd rfl h
  simp [regBytes, five]

theorem masked_masked (m : RegMap) (r : RegName) (v : Byte) :
    v &&& implemented m r &&& implemented m r = v &&& implemented m r := by
  rw [BitVec.and_assoc, BitVec.and_self]

/-! ### Queues -/

theorem State.cur_mem {s : State} {e : TxEntry} (h : s.cur = some e) : e ∈ s.txf ∧ e.isData = true :=
  ⟨List.mem_of_find?_eq_some h, List.find?_some h⟩

theorem State.cur_isSome (s : State) : s.cur.isSome = s.txf.any TxEntry.isData := by
  rw [Bool.eq_iff_iff, List.any_eq_true, State.cur, List.find?_isSome]

/-- The first entry of a kind, and the queue without it. -/
theorem find_eraseP_append {α : Type} (p : α → Bool) {before after : List α} {e : α}
    (hb : ∀ f ∈ before, p f = false) (he : p e = true) :
    (before ++ e :: after).find? p = some e ∧ (before ++ e :: after).eraseP p = before ++ after := by
  induction before with
  | nil => simp [he]
  | cons x rest ih =>
    have hx := hb x (by simp)
    obtain ⟨h1, h2⟩ := ih fun f hf => hb f (by simp [hf])
    simp [hx, h1, h2]

theorem mem_of_mem_eraseP {α : Type} {p : α → Bool} {l : List α} {e : α} (h : e ∈ l.eraseP p) : e ∈ l :=
  List.mem_of_mem_eraseP h

/-! ### The receive side -/

/-- The pipe of a frame is the lowest enabled pipe with its address (43 R190). -/
theorem pipeOf_lowest {s : State} {k : AirPacket} {p : Pipe} (hp : s.bit (.erx p) = true)
    (ha : k.addr = s.effAddr p) (hlow : ∀ q : Pipe, q < p → s.bit (.erx q) = true → k.addr ≠ s.effAddr q) :
    s.pipeOf k = some p := by
  have hm : ∀ q : Pipe, q < p → s.pipeMatches k q = false := fun q hq => by
    simpa [State.pipeMatches] using hlow q hq
  have hpm : s.pipeMatches k p = true := by simp [State.pipeMatches, hp, ha]
  unfold State.pipeOf
  match p, hm, hpm with
  | 0, hm, hpm => simp [List.find?, hpm]
  | 1, hm, hpm => simp [List.find?, hpm, hm 0 (by decide)]
  | 2, hm, hpm => simp [List.find?, hpm, hm 0 (by decide), hm 1 (by decide)]
  | 3, hm, hpm => simp [List.find?, hpm, hm 0 (by decide), hm 1 (by decide), hm 2 (by decide)]
  | 4, hm, hpm => simp [List.find?, hpm, hm 0 (by decide), hm 1 (by decide), hm 2 (by decide), hm 3 (by decide)]
  | 5, hm, hpm =>
    simp [List.find?, hpm, hm 0 (by decide), hm 1 (by decide), hm 2 (by decide), hm 3 (by decide), hm 4 (by decide)]

/-- A frame is admitted on a dynamic pipe, or when its length is the pipe's static one (43 R191). -/
theorem admitted_iff (s : State) (k : AirPacket) (p : Pipe) :
    s.admitted k p = true ↔
      (s.featureLocked = false ∧ s.bit .enDpl = true ∧ s.bit (.dpl p) = true) ∨
        k.bytes.length = s.field (.rxPwLen p) := by
  simp [State.admitted, State.dynamicPipe, and_assoc]

/-! ### Host programs -/

/-- What a change of every pipe's record leaves of pipe `p`'s. -/
@[simp] theorem PipeTable.get_program (t : PipeTable) (f : Pipe → PipeRecord → PipeRecord) (p : Pipe) :
    (t.program f).get p = f p (t.get p) := by
  match p with
  | 0 => rfl
  | 1 => rfl
  | 2 => rfl
  | 3 => rfl
  | 4 => rfl
  | 5 => rfl

/-- The validation of `init` (44 R218). -/
theorem InitRecord.valid_iff (r : InitRecord) :
    r.valid = true ↔ (r.ackPayload = true → r.dynamicPayload = true) ∧ 3 ≤ r.addrWidth ∧ r.addrWidth ≤ 5 ∧
      r.retransmitCount ≤ 15 ∧ r.channel ≤ 127 ∧ r.ownAddr.length = r.addrWidth := by
  cases ha : r.ackPayload <;> cases hd : r.dynamicPayload <;> simp [InitRecord.valid, ha, hd, and_assoc]

@[simp] theorem putBit_length (on : Bool) (p : BitPos) (d : List Byte) : (putBit on p d).length = d.length := by
  simp [putBit]

@[simp] theorem calSent_length (t : CalTable) (i : Fin 14) : (calSent t i).length = t.entries[i].bytes.length := by
  unfold calSent
  split <;> simp

@[simp] theorem calToggled_length (t : CalTable) (on : Bool) :
    (calToggled t on).length = t.entries[t.toggle].bytes.length := by simp [calToggled]

/-- `loadCalibration` makes sixteen writes (44 R224). -/
theorem calibrationSteps_length (t : CalTable) : (calibrationSteps t).length = 16 := by
  simp [calibrationSteps]

/-- Each of the sixteen writes goes to a register of an entry, with as many bytes as the entry has (44 R224). -/
theorem calibrationSteps_mem {t : CalTable} {i : Instr} (h : i ∈ calibrationSteps t) :
    ∃ e ∈ t.entries.toList, ∃ d : List Byte, i = .wreg e.addr d ∧ d.length = e.bytes.length := by
  have mem : ∀ k : Fin 14, t.entries[k] ∈ t.entries.toList := fun k => by simp
  simp only [calibrationSteps, List.mem_append, List.mem_ofFn, List.mem_cons, List.not_mem_nil, or_false] at h
  rcases h with ⟨k, rfl⟩ | rfl | rfl
  · exact ⟨_, mem k, _, rfl, by simp⟩
  · exact ⟨_, mem t.toggle, _, rfl, by simp⟩
  · exact ⟨_, mem t.toggle, _, rfl, by simp⟩

/-- Everything a host step of a program can do. -/
theorem hostStep_next {i : Instr} {s u : State} {k : State → State} (h : hostStep i s k = .next u) :
    ∃ t, exec i s = .next t ∧ u = k t := by
  unfold hostStep at h
  split at h
  · rename_i t ht
    injection h with h
    exact ⟨t, ht, h.symm⟩
  · cases h
  · cases h

theorem hostStep_eq {i : Instr} {s t : State} {k : State → State} (h : exec i s = .next t) :
    hostStep i s k = .next (k t) := by
  simp [hostStep, h]

end Sys2Proof.Machine
end

