-- ==== Sys2Proof/Laws/Exec.lean ====
section
/-! SUPPORT. For each instruction, everything its meaning can do when it answers a next state. -/
namespace Sys2Proof.Machine

/-! ### Register commands -/

/-- A read changes the reply and the count of free values, nothing else. -/
def ReadOnly (s t : State) : Prop := ∃ d n, t = (s.sampled.replyData d).drew n

theorem State.tuneRead_readOnly (s : State) (a : RegAddr) (n : Nat) : ReadOnly s (s.sampled.tuneRead a n) := by
  unfold State.tuneRead
  split
  · exact ⟨_, 0, (State.drew_zero _).symm⟩
  · exact ⟨_, n, rfl⟩

theorem State.readView_readOnly (s : State) (r : RegName) (n : Nat) : ReadOnly s (s.sampled.readView r n) := by
  unfold State.readView
  split
  · exact ⟨_, 0, (State.drew_zero _).symm⟩
  · exact ⟨_, 0, (State.drew_zero _).symm⟩
  · exact ⟨_, n, rfl⟩
  · exact ⟨_, n, rfl⟩
  · exact ⟨_, 0, (State.drew_zero _).symm⟩
  · exact ⟨_, 0, (State.drew_zero _).symm⟩
  · exact ⟨_, 0, (State.drew_zero _).symm⟩

theorem execRreg_next {a : RegAddr} {n : Nat} {s t : State} (h : execRreg a n s = .next t) :
    s.Ready ∧ ReadOnly s t := by
  obtain ⟨hr, h⟩ := busAccess_next h
  refine ⟨hr, ?_⟩
  split at h
  · injection h with h; exact h ▸ s.tuneRead_readOnly a n
  · split at h
    · cases h
    · rename_i r _
      split at h
      · cases h
      · injection h with h; exact h ▸ s.readView_readOnly r n

/-- Everything a configuration write can do. -/
theorem writePlain_next {r : RegName} {a : RegAddr} {v : Byte} {d : List Byte} {s t : State}
    (h : writePlain r a v d s = .next t) :
    s.isActive = false ∧ illegalValue s.cfg.regMap r (s.masked r v) = false ∧ t = s.storePlain r v d := by
  unfold writePlain at h
  split at h
  · cases h
  · split at h
    · cases h
    · injection h with h
      exact ⟨by simp_all, by simp_all, h.symm⟩

/-- Everything a write of `CONFIG` can do. -/
theorem writeConfig_next {v : Byte} {s t : State} (h : writeConfig v s = .next t) :
    ¬ (bitOf s.cfg.regMap .primRx (s.masked .config v) ≠ bitOf s.cfg.regMap .primRx s.regs.config ∧
        (s.ce ∨ s.seq ≠ .idle ∨ s.txTrigger)) ∧
    ((bitOf s.cfg.regMap .pwrUp s.regs.config = false ∧ bitOf s.cfg.regMap .pwrUp (s.masked .config v) = true ∧
        s.ce = false ∧ t = s.powerUpEffect.storeConfig (s.masked .config v)) ∨
     (bitOf s.cfg.regMap .pwrUp s.regs.config = true ∧ bitOf s.cfg.regMap .pwrUp (s.masked .config v) = false ∧
        t = s.powerDownEffect.storeConfig (s.masked .config v)) ∨
     (bitOf s.cfg.regMap .pwrUp s.regs.config = bitOf s.cfg.regMap .pwrUp (s.masked .config v) ∧
        t = s.storeConfig (s.masked .config v))) := by
  simp only [writeConfig] at h
  split at h
  · cases h
  · rename_i hm
    refine ⟨hm, ?_⟩
    cases ho : bitOf s.cfg.regMap .pwrUp s.regs.config <;>
      cases hn : bitOf s.cfg.regMap .pwrUp (s.masked .config v) <;>
      cases hc : s.ce <;> simp_all

/-- Everything a write of a named register can do. -/
theorem writeReg_next {r : RegName} {a : RegAddr} {v : Byte} {d : List Byte} {s t : State}
    (h : writeReg r a v d s = .next t) :
    (r = .status ∧ t = s.clearEvents v) ∨ (r = .config ∧ writeConfig v s = .next t) ∨ t = s ∨
      (r ≠ .config ∧ r ≠ .status ∧ s.isActive = false ∧
        illegalValue s.cfg.regMap r (s.masked r v) = false ∧ t = s.storePlain r v d) := by
  unfold writeReg at h
  split at h
  · injection h with h; exact .inl ⟨rfl, h.symm⟩
  · exact .inr (.inl ⟨rfl, h⟩)
  · injection h with h; exact .inr (.inr (.inl h.symm))
  · injection h with h; exact .inr (.inr (.inl h.symm))
  · injection h with h; exact .inr (.inr (.inl h.symm))
  · split at h
    · injection h with h; exact .inr (.inr (.inl h.symm))
    · exact .inr (.inr (.inr ⟨by decide, by decide, writePlain_next h⟩))
  · split at h
    · injection h with h; exact .inr (.inr (.inl h.symm))
    · exact .inr (.inr (.inr ⟨by decide, by decide, writePlain_next h⟩))
  · rename_i h1 h2 _ _ _ _ _
    exact .inr (.inr (.inr ⟨h2, h1, writePlain_next h⟩))

/-- Everything `WREG` can do. -/
theorem execWreg_next {a : RegAddr} {d : List Byte} {s t : State} (h : execWreg a d s = .next t) :
    s.Ready ∧
    ((s.inTuneBank a = true ∧ t = s.sampled.tuneWrite a d) ∨
     (s.inTuneBank a = false ∧
      ∃ r, regAt s.cfg.regMap a = some r ∧ d.length ≤ regWidth r ∧
        ((d = [] ∧ t = s.sampled) ∨ ∃ v rest, d = v :: rest ∧ writeReg r a v d s.sampled = .next t))) := by
  obtain ⟨hr, h⟩ := busAccess_next h
  refine ⟨hr, ?_⟩
  split at h
  · rename_i hb
    injection h with h
    exact .inl ⟨hb, h.symm⟩
  · rename_i hb
    refine .inr ⟨by simpa using hb, ?_⟩
    split at h
    · cases h
    · rename_i r hreg
      split at h
      · cases h
      · rename_i hlen
        refine ⟨r, hreg, by omega, ?_⟩
        split at h
        · injection h with h; exact .inl ⟨rfl, h.symm⟩
        · rename_i v rest _
          exact .inr ⟨v, rest, rfl, h⟩

/-! ### FIFO and special commands -/

theorem execRrxp_next {n : Nat} {s t : State} (h : execRrxp n s = .next t) :
    s.Ready ∧ n ≤ maxPayload ∧ t = s.sampled.readPayload n := by
  obtain ⟨hr, hn, h⟩ := busCommand_next h
  injection h with h
  exact ⟨hr, by simpa using hn, h.symm⟩

theorem execRplw_next {n : Nat} {s t : State} (h : execRplw n s = .next t) :
    s.Ready ∧ n = 1 ∧ t = s.sampled.readWidth := by
  obtain ⟨hr, hn, h⟩ := busCommand_next h
  injection h with h
  exact ⟨hr, by simpa using hn, h.symm⟩

theorem execFlrx_next {n : Nat} {s t : State} (h : execFlrx n s = .next t) :
    s.Ready ∧ n = 0 ∧ t = { s.sampled with rxf := [] } := by
  obtain ⟨hr, hn, h⟩ := busCommand_next h
  injection h with h
  exact ⟨hr, by simpa using hn, h.symm⟩

theorem writePayload_next {c : BusCmd} {k : EntryKind} {q : Bool} {d : List Byte} {s t : State}
    (h : writePayload c k q d s = .next t) :
    s.Ready ∧ d.length ≤ maxPayload ∧ s.txFull = false ∧ t = s.sampled.pushTx k d q := by
  obtain ⟨hr, hn, h⟩ := busCommand_next h
  split at h
  · cases h
  · rename_i hf
    injection h with h
    exact ⟨hr, by simpa using hn, by simpa using hf, h.symm⟩

theorem execFltx_next {n : Nat} {s t : State} (h : execFltx n s = .next t) :
    s.Ready ∧ n = 0 ∧ t = s.sampled.flushTx := by
  obtain ⟨hr, hn, h⟩ := busCommand_next h
  injection h with h
  exact ⟨hr, by simpa using hn, h.symm⟩

/-- Everything `ACT` can do past its count check. -/
theorem activate_next {m : Byte} {s t : State} (h : activate m s = .next t) :
    s.isActive = false ∧
    ((m = s.cfg.magicFeature ∧ t = { s with featureLocked := !s.featureLocked }) ∨
     (m = s.cfg.magicBank ∧ m ≠ s.cfg.magicFeature ∧ s.cfg.profile = .dualBankLegacy ∧
       t = { s with bank := !s.bank })) := by
  unfold activate at h
  split at h
  · cases h
  · rename_i ha
    refine ⟨by simpa using ha, ?_⟩
    split at h
    · rename_i hm
      injection h with h
      exact .inl ⟨hm, h.symm⟩
    · rename_i hf
      split at h
      · rename_i hm
        injection h with h
        exact .inr ⟨hm.1, hf, hm.2, h.symm⟩
      · cases h

theorem execAct_next {d : List Byte} {s t : State} (h : execAct d s = .next t) :
    s.Ready ∧ d.length = 1 ∧ activate (d.headD 0x00) s.sampled = .next t := by
  obtain ⟨hr, hn, h⟩ := busCommand_next h
  exact ⟨hr, by simpa using hn, h⟩

theorem execNop_next {n : Nat} {s t : State} (h : execNop n s = .next t) :
    s.Ready ∧ n = 0 ∧ t = s.sampled := by
  obtain ⟨hr, hn, h⟩ := busCommand_next h
  injection h with h
  exact ⟨hr, by simpa using hn, h.symm⟩

/-! ### Host events -/

theorem execCeh_next {s t : State} (h : execCeh s = .next t) :
    s.fault = none ∧
    ((s.ce = true ∧ t = s) ∨
     (s.ce = false ∧ s.bit .pwrUp = true ∧ s.settleUs = 0 ∧
       t = { s with ce := true, ceHighUs := 0, pulseUsed := false })) := by
  obtain ⟨hf, h⟩ := unlessFaulted_next h
  refine ⟨hf, ?_⟩
  split at h
  · rename_i hc
    injection h with h
    exact .inl ⟨hc, h.symm⟩
  · rename_i hc
    split at h
    · cases h
    · rename_i hp
      split at h
      · cases h
      · rename_i hs
        injection h with h
        exact .inr ⟨by simpa using hc, by simpa using hp, by omega, h.symm⟩

theorem execCel_next {s t : State} (h : execCel s = .next t) :
    s.fault = none ∧
    ((s.ce = false ∧ t = s) ∨
     (s.ce = true ∧ s.endsPulse = true ∧ s.cfg.tCePulse ≤ s.ceHighUs ∧ t = { s with txTrigger := true, ce := false }) ∨
     (s.ce = true ∧ s.endsPulse = false ∧ t = { s with ce := false })) := by
  obtain ⟨hf, h⟩ := unlessFaulted_next h
  refine ⟨hf, ?_⟩
  split at h
  · rename_i hc
    injection h with h
    exact .inl ⟨by simpa using hc, h.symm⟩
  · rename_i hc
    split at h
    · rename_i he
      split at h
      · cases h
      · rename_i hs
        injection h with h
        exact .inr (.inl ⟨by simpa using hc, he, by omega, h.symm⟩)
    · rename_i he
      injection h with h
      exact .inr (.inr ⟨by simpa using hc, by simpa using he, h.symm⟩)

theorem execDelay_next {us : Nat} {s t : State} (h : execDelay us s = .next t) :
    s.fault = none ∧
    t = { s with
      settleUs := s.settleUs - us
      ceHighUs := if s.ce then s.ceHighUs + us else s.ceHighUs } := by
  obtain ⟨hf, h⟩ := unlessFaulted_next h
  injection h with h
  exact ⟨hf, h.symm⟩

theorem execPor_next {s t : State} (h : execPor s = .next t) : s.fault = none ∧ t = s.powerOnReset := by
  obtain ⟨hf, h⟩ := unlessFaulted_next h
  injection h with h
  exact ⟨hf, h.symm⟩

end Sys2Proof.Machine
end

