-- ==== Sys2Proof/Laws/Step.lean ====
section
/-! SUPPORT. Everything a step can do, said once over the chip: the host-side fields aside, a step is one
instruction, one sequencer step, one answer of Air, or nothing. -/
namespace Sys2Proof.Machine

/-- The two states agree on every field of the chip, the parameters and the fault record; the host side, the reply
and the model's own fields may differ. -/
structure SameChip (s t : State) : Prop where
  cfg           : t.cfg = s.cfg
  regs          : t.regs = s.regs
  rxDr          : t.rxDr = s.rxDr
  txDs          : t.txDs = s.txDs
  maxRt         : t.maxRt = s.maxRt
  txf           : t.txf = s.txf
  rxf           : t.rxf = s.rxf
  ce            : t.ce = s.ce
  seq           : t.seq = s.seq
  retry         : t.retry = s.retry
  txTrigger     : t.txTrigger = s.txTrigger
  pulseUsed     : t.pulseUsed = s.pulseUsed
  settleUs      : t.settleUs = s.settleUs
  ceHighUs      : t.ceHighUs = s.ceHighUs
  nextId        : t.nextId = s.nextId
  lastRxId      : t.lastRxId = s.lastRxId
  featureLocked : t.featureLocked = s.featureLocked
  bank          : t.bank = s.bank
  tune          : t.tune = s.tune
  fault         : t.fault = s.fault
  emitted       : t.emitted = s.emitted

theorem SameChip.refl (s : State) : SameChip s s := by constructor <;> rfl

theorem SameChip.symm {s t : State} (h : SameChip s t) : SameChip t s := by
  constructor <;> simp [h.cfg, h.regs, h.rxDr, h.txDs, h.maxRt, h.txf, h.rxf, h.ce, h.seq, h.retry, h.txTrigger,
    h.pulseUsed, h.settleUs, h.ceHighUs, h.nextId, h.lastRxId, h.featureLocked, h.bank, h.tune, h.fault, h.emitted]

theorem SameChip.trans {s t u : State} (h : SameChip s t) (g : SameChip t u) : SameChip s u := by
  constructor <;> simp [h.cfg, h.regs, h.rxDr, h.txDs, h.maxRt, h.txf, h.rxf, h.ce, h.seq, h.retry, h.txTrigger,
    h.pulseUsed, h.settleUs, h.ceHighUs, h.nextId, h.lastRxId, h.featureLocked, h.bank, h.tune, h.fault, h.emitted,
    g.cfg, g.regs, g.rxDr, g.txDs, g.maxRt, g.txf, g.rxf, g.ce, g.seq, g.retry, g.txTrigger, g.pulseUsed,
    g.settleUs, g.ceHighUs, g.nextId, g.lastRxId, g.featureLocked, g.bank, g.tune, g.fault, g.emitted]

theorem SameChip.field {s t : State} (h : SameChip s t) (f : Field) : t.field f = s.field f := by
  simp [State.field, h.cfg, h.regs]

theorem SameChip.bit {s t : State} (h : SameChip s t) (f : Field) : t.bit f = s.bit f := by
  simp [State.bit, h.field]

theorem SameChip.cur {s t : State} (h : SameChip s t) : t.cur = s.cur := by simp [State.cur, h.txf]

theorem SameChip.mode {s t : State} (h : SameChip s t) : t.mode = s.mode := by
  simp [State.mode, h.bit, h.seq, h.ce]

/-- The updates of the host side leave the chip alone. -/
theorem sameChip_setFrames (s : State) (fs : List DriverFrame) : SameChip s (s.setFrames fs) := by
  constructor <;> simp

theorem sameChip_result (s : State) (r : OpResult) : SameChip s (s.result r) := by constructor <;> rfl

theorem sameChip_setFlags (s : State) (b : Byte) : SameChip s (s.setFlags b) := by constructor <;> rfl

theorem sameChip_clearTxFlags (s : State) : SameChip s s.clearTxFlags := by constructor <;> rfl

theorem sameChip_drvState (s : State) (d : RadioState) : SameChip s { s with drvState := d } := by
  constructor <;> rfl

/-- What one step does to the chip: one instruction, one sequencer step, one answer or offer of Air, or nothing. -/
inductive ChipStep (s t : State) : Prop where
  | instr (i : Instr) (h : exec i s = .next t)
  | sequencer (h : t = s.sequencerStep)
  | ack (p : Option (List Byte)) (h : t = s.ackStep p)
  | timeout (h : t = s.timeoutStep)
  | offer (k : AirPacket) (h : t = s.offerStep k)
  | framing (p : Pipe) (h : t = s.framingStep p)
  | nothing (h : t = s)

/-- A step of the chip between states that agree with the given ones on the chip. -/
def ChipStepUpTo (s t : State) : Prop := ∃ u v, SameChip s u ∧ ChipStep u v ∧ SameChip v t

theorem chipStepUpTo_same {s t : State} (h : SameChip s t) : ChipStepUpTo s t :=
  ⟨s, s, .refl s, .nothing rfl, h⟩

theorem hostStep_chip {i : Instr} {s t : State} {k : State → State} (hk : ∀ u, SameChip u (k u))
    (h : hostStep i s k = .next t) : ChipStepUpTo s t := by
  obtain ⟨u, hu, rfl⟩ := hostStep_next h
  exact ⟨s, u, .refl s, .instr i hu, hk u⟩

theorem sameChip_waitOn (s : State) (f : DriverFrame) (rest : List DriverFrame) : SameChip s (s.waitOn f rest) := by
  unfold State.waitOn
  split
  · exact sameChip_setFrames _ _
  · exact .refl s

theorem sameChip_waitStep (s : State) (rest : List DriverFrame) : SameChip s (s.waitStep rest) := by
  unfold State.waitStep
  split
  · exact .trans (by constructor <;> rfl) (sameChip_setFrames _ _)
  · split
    · exact .trans (by constructor <;> rfl) (sameChip_setFrames _ _)
    · exact sameChip_waitOn _ _ _

theorem sameChip_probeStep (s : State) (rest : List DriverFrame) : SameChip s (s.probeStep rest) := by
  unfold State.probeStep
  split
  · exact .trans (sameChip_result _ _) (sameChip_setFrames _ _)
  · split <;> exact sameChip_setFrames _ _

theorem finish_chip {op : ModeOp} {rest : List DriverFrame} {s t : State} (h : op.finish rest s = .next t) :
    ChipStepUpTo s t := by
  cases op with
  | powerUp => exact hostStep_chip (fun u => .trans (sameChip_drvState u _) (sameChip_setFrames _ _)) h
  | enterReceive => exact hostStep_chip (fun u => .trans (sameChip_drvState u _) (sameChip_setFrames _ _)) h
  | enterTransmit =>
    injection h with h
    exact chipStepUpTo_same (h ▸ .trans (sameChip_drvState s _) (sameChip_setFrames _ _))
  | powerDown =>
    injection h with h
    exact chipStepUpTo_same (h ▸ .trans (sameChip_drvState s _) (sameChip_setFrames _ _))

/-- Everything one step of a driver operation can do to the chip. -/
theorem runFrame_chip {f : DriverFrame} {rest : List DriverFrame} {s t : State}
    (h : runFrame f rest s = .next t) : ChipStepUpTo s t := by
  have frames : ∀ fs (u : State), SameChip u (u.setFrames fs) := fun fs u => sameChip_setFrames u fs
  have done : ∀ r fs (u : State), SameChip u ((u.result r).setFrames fs) :=
    fun r fs u => .trans (sameChip_result u r) (sameChip_setFrames _ _)
  cases f with
  | pumpRead => exact hostStep_chip (fun u => by split <;> exact frames _ u) h
  | pumpClear b => exact hostStep_chip (fun u => .trans (sameChip_setFlags u b) (frames _ _)) h
  | pumpFlush => exact hostStep_chip (frames _) h
  | txStart b q =>
    simp only [runFrame] at h
    split at h
    · cases h
    · split at h <;> (injection h with h; exact chipStepUpTo_same (h ▸ frames _ s))
  | txProbe b q =>
    obtain ⟨u, hu, rfl⟩ := hostStep_next h
    refine ⟨s.clearTxFlags, u, sameChip_clearTxFlags s, .instr _ hu, ?_⟩
    split
    · exact done _ _ u
    · exact frames _ u
  | txWrite b q => exact hostStep_chip (fun u => .trans (sameChip_drvState u _) (frames _ _)) h
  | txRaise => exact hostStep_chip (frames _) h
  | txHold => exact hostStep_chip (frames _) h
  | txLower => exact hostStep_chip (frames _) h
  | txWait =>
    injection h with h
    exact chipStepUpTo_same (h ▸ sameChip_waitStep s rest)
  | txStuck =>
    injection h with h
    exact chipStepUpTo_same (h ▸ sameChip_waitOn s .txStuck rest)
  | rxStart =>
    injection h with h
    exact chipStepUpTo_same (h ▸ frames _ s)
  | rxCheck =>
    simp only [runFrame] at h
    split at h
    · injection h with h
      exact chipStepUpTo_same (h ▸ .trans (by constructor <;> rfl) (frames _ _))
    · injection h with h
      exact chipStepUpTo_same (h ▸ done _ _ s)
  | rxProbe => exact hostStep_chip (fun u => sameChip_probeStep u rest) h
  | rxWidth p => exact hostStep_chip (fun u => by split <;> exact frames _ u) h
  | rxDiscard => exact hostStep_chip (done _ _) h
  | rxRead p n => exact hostStep_chip (fun u => frames _ u) h
  | rxMore p b =>
    refine hostStep_chip (fun u => ?_) h
    split
    · exact done _ _ u
    · exact frames _ u
  | modeStart op =>
    simp only [runFrame] at h
    split at h
    · cases h
    · split at h <;> (injection h with h; exact chipStepUpTo_same (h ▸ frames _ s))
  | modeLower op => exact hostStep_chip (frames _) h
  | modeRead op => exact hostStep_chip (fun u => frames _ u) h
  | modeWrite op c => exact hostStep_chip (frames _) h
  | modeFinish op => exact finish_chip h
  | initStart r =>
    simp only [runFrame] at h
    split at h
    · injection h with h
      exact chipStepUpTo_same (h ▸ done _ _ s)
    · split at h
      · cases h
      · injection h with h
        exact chipStepUpTo_same (h ▸ .trans (by constructor <;> rfl) (frames _ _))
  | initFeature r => exact hostStep_chip (fun u => frames _ u) h
  | initRfSetup r => exact hostStep_chip (fun u => frames _ u) h
  | initRfCheck r =>
    refine hostStep_chip (fun u => ?_) h
    split
    · exact frames _ u
    · exact done _ _ u
  | initClear r =>
    injection h with h
    exact chipStepUpTo_same (h ▸ frames _ s)
  | initBank r =>
    injection h with h
    exact chipStepUpTo_same (h ▸ frames _ s)
  | initPower r =>
    injection h with h
    exact chipStepUpTo_same (h ▸ frames _ s)
  | initDone =>
    injection h with h
    exact chipStepUpTo_same (h ▸ .trans (sameChip_drvState s .standby) (done _ _ _))
  | ackPayload p b =>
    simp only [runFrame] at h
    split at h
    · cases h
    · split at h
      · cases h
      · exact hostStep_chip (frames _) h
  | switchBank b =>
    simp only [runFrame] at h
    split at h
    · injection h with h
      exact chipStepUpTo_same (h ▸ frames _ s)
    · exact hostStep_chip (fun u => by split <;> exact frames _ u) h
  | calibrate =>
    injection h with h
    exact chipStepUpTo_same (h ▸ frames _ s)
  | script is =>
    cases is with
    | nil =>
      injection h with h
      exact chipStepUpTo_same (h ▸ frames _ s)
    | cons i is => exact hostStep_chip (frames _) h
  | finish r =>
    injection h with h
    exact chipStepUpTo_same (h ▸ done _ _ s)

theorem driverStep_chip {s t : State} (h : driverStep s = .next t) : ChipStepUpTo s t := by
  unfold driverStep at h
  split at h
  · injection h with h
    exact chipStepUpTo_same (h ▸ .refl s)
  · exact runFrame_chip h

theorem hostFrame_chip {f : HostFrame} {s t : State} (h : hostFrame f s = .next t) : ChipStepUpTo s t := by
  unfold hostFrame at h
  split at h
  · rename_i i _
    exact ⟨s, t, .refl s, .instr i h, .refl t⟩
  · rename_i e _
    cases e with
    | reservedCommand b =>
      simp only [undecoded] at h
      cases (busAccess_next h).2
    | noCommandByte =>
      simp only [undecoded] at h
      injection (unlessFaulted_next h).2 with h
      exact chipStepUpTo_same (h ▸ .refl s)

/-- Everything one turn can do to the chip. -/
theorem runTurn_chip {a : Turn} {s t : State} (h : runTurn a s = .next t) : ChipStepUpTo s t := by
  have here : ∀ {u}, ChipStep s u → ChipStepUpTo s u := fun {u} hu => ⟨s, u, .refl s, hu, .refl u⟩
  cases a with
  | host f => exact hostFrame_chip h
  | call c =>
    simp only [runTurn, callStep] at h
    split at h
    · injection h with h
      exact chipStepUpTo_same (h ▸ by constructor <;> rfl)
    · cases h
  | driver => exact driverStep_chip h
  | irq =>
    injection h with h
    refine chipStepUpTo_same (h ▸ ?_)
    unfold State.irqStep
    split
    · constructor <;> rfl
    · exact .refl s
  | abandon =>
    injection h with h
    refine chipStepUpTo_same (h ▸ ?_)
    unfold State.abandonStep
    split
    · split
      · constructor <;> rfl
      · exact .refl s
    · exact .refl s
  | sequencer => injection h with h; exact here (.sequencer h.symm)
  | ack p => injection h with h; exact here (.ack p h.symm)
  | timeout => injection h with h; exact here (.timeout h.symm)
  | offer k => injection h with h; exact here (.offer k h.symm)
  | framing p => injection h with h; exact here (.framing p h.symm)

/-- Everything a step can do to the chip. -/
theorem step_chip {s t : State} (h : step s = .next t) : s.fault = none ∧ ChipStepUpTo s t := by
  simp only [step, nextTurn] at h
  obtain ⟨hf, h⟩ := unlessFaulted_next h
  refine ⟨hf, ?_⟩
  split at h
  · unfold idleStep at h
    split at h
    · injection h with h
      exact ⟨s, t, .refl s, .sequencer h.symm, .refl t⟩
    · exact driverStep_chip h
  · split at h
    · exact driverStep_chip h
    · obtain ⟨u, v, hu, huv, hv⟩ := runTurn_chip h
      exact ⟨u, v, .trans (by constructor <;> rfl) hu, huv, hv⟩

/-! ### The host side -/

/-- No instruction touches the parameters or the host programs. -/
theorem exec_host {i : Instr} {s t : State} (h : exec i s = .next t) : t.cfg = s.cfg ∧ t.thread = s.thread ∧ t.irqThread = s.irqThread ∧ t.drvState = s.drvState := by
  cases i with
  | rreg => obtain ⟨_, d, n, rfl⟩ := execRreg_next h; simp
  | wreg a d =>
    obtain ⟨_, h⟩ := execWreg_next h
    rcases h with ⟨_, rfl⟩ | ⟨_, r, _, _, h⟩
    · simp
    · rcases h with ⟨_, rfl⟩ | ⟨v', rest, _, h⟩
      · simp
      · rcases writeReg_next h with ⟨_, rfl⟩ | ⟨_, h⟩ | rfl | ⟨hc, _, ha, hill, rfl⟩
        · simp
        · obtain ⟨hmm, h⟩ := writeConfig_next h
          rcases h with ⟨ho, hn', hc, rfl⟩ | ⟨ho, hn', rfl⟩ | ⟨he, rfl⟩ <;> simp
        · simp
        · simp
  | act =>
    obtain ⟨_, _, h⟩ := execAct_next h
    rcases (activate_next h).2 with ⟨_, rfl⟩ | ⟨_, _, _, rfl⟩ <;> simp
  | rplw => obtain ⟨_, _, rfl⟩ := execRplw_next h; unfold State.readWidth; split <;> simp
  | rrxp => obtain ⟨_, _, rfl⟩ := execRrxp_next h; unfold State.readPayload; split <;> simp
  | wtxp => obtain ⟨_, _, _, rfl⟩ := writePayload_next h; simp
  | wackp => obtain ⟨_, _, _, rfl⟩ := writePayload_next h; simp
  | wtxpna => obtain ⟨_, _, _, rfl⟩ := writePayload_next h; simp
  | fltx => obtain ⟨_, _, rfl⟩ := execFltx_next h; simp
  | flrx => obtain ⟨_, _, rfl⟩ := execFlrx_next h; simp
  | nop => obtain ⟨_, _, rfl⟩ := execNop_next h; simp
  | cel => obtain ⟨_, h⟩ := execCel_next h; rcases h with ⟨_, rfl⟩ | ⟨_, _, _, rfl⟩ | ⟨_, _, rfl⟩ <;> simp
  | ceh => obtain ⟨_, h⟩ := execCeh_next h; rcases h with ⟨_, rfl⟩ | ⟨_, _, _, rfl⟩ <;> simp
  | delay => obtain ⟨_, rfl⟩ := execDelay_next h; simp
  | por => obtain ⟨_, rfl⟩ := execPor_next h; simp

/-- What one step of the frame `f` does to the host side: it puts frames `fs` in its place on the program that runs,
keeps the parameters, leaves ActiveTransmit as the driver's record only with a frame of `transmit` to end it, and as a
frame of the pump leaves only frames of the pump. -/
def HostEffect (f : DriverFrame) (rest : List DriverFrame) (s t : State) : Prop :=
  ∃ (fs : List DriverFrame) (u : State), t.cfg = s.cfg ∧ u.thread = s.thread ∧ u.irqThread = s.irqThread ∧
    t.thread = (u.setFrames (fs ++ rest)).thread ∧ t.irqThread = (u.setFrames (fs ++ rest)).irqThread ∧
    (t.drvState = .activeTransmit →
      (∃ g ∈ fs, g.InTransmit) ∨ (s.drvState = .activeTransmit ∧ ¬ f.InTransmit)) ∧
    (f.OfPump → t.drvState = s.drvState ∧ ∀ g ∈ fs, g.OfPump)

theorem HostEffect.mk {f : DriverFrame} {rest : List DriverFrame} {s u : State} (fs : List DriverFrame)
    (hc : u.cfg = s.cfg) (ht : u.thread = s.thread) (hi : u.irqThread = s.irqThread)
    (hd : u.drvState = .activeTransmit →
      (∃ g ∈ fs, g.InTransmit) ∨ (s.drvState = .activeTransmit ∧ ¬ f.InTransmit))
    (hp : f.OfPump → u.drvState = s.drvState ∧ ∀ g ∈ fs, g.OfPump) :
    HostEffect f rest s (u.setFrames (fs ++ rest)) :=
  ⟨fs, u, by simpa using hc, ht, hi, rfl, rfl, by simpa using hd, by simpa using hp⟩

/-- A frame outside `transmit` and the pump that keeps the driver's record. -/
theorem HostEffect.plain {f : DriverFrame} {rest : List DriverFrame} {s : State} (fs : List DriverFrame) (u : State)
    (hc : u.cfg = s.cfg) (ht : u.thread = s.thread) (hi : u.irqThread = s.irqThread) (hd : u.drvState = s.drvState)
    (hn : ¬ f.InTransmit := by simp [DriverFrame.InTransmit]) (hp : ¬ f.OfPump := by simp [DriverFrame.OfPump]) :
    HostEffect f rest s (u.setFrames (fs ++ rest)) :=
  .mk fs hc ht hi (fun h => .inr ⟨hd ▸ h, hn⟩) (fun h => absurd h hp)

/-- A frame that leaves a frame `g` of `transmit`. -/
theorem HostEffect.transmit {f : DriverFrame} {rest : List DriverFrame} {s : State} (g : DriverFrame) (u : State)
    (hc : u.cfg = s.cfg) (ht : u.thread = s.thread) (hi : u.irqThread = s.irqThread) (hg : g.InTransmit)
    (hp : ¬ f.OfPump := by simp [DriverFrame.OfPump]) : HostEffect f rest s (u.setFrames (g :: rest)) :=
  .mk [g] hc ht hi (fun _ => .inl ⟨g, by simp, hg⟩) (fun h => absurd h hp)

/-- A frame that ends with another record than ActiveTransmit. -/
theorem HostEffect.record {f : DriverFrame} {rest : List DriverFrame} {s : State} (fs : List DriverFrame) (u : State)
    (hc : u.cfg = s.cfg) (ht : u.thread = s.thread) (hi : u.irqThread = s.irqThread)
    (hd : u.drvState ≠ .activeTransmit) (hp : ¬ f.OfPump := by simp [DriverFrame.OfPump]) :
    HostEffect f rest s (u.setFrames (fs ++ rest)) :=
  .mk fs hc ht hi (fun h => absurd h hd) (fun h => absurd h hp)

theorem hostStep_host {i : Instr} {f : DriverFrame} {rest : List DriverFrame} {s s' t : State} {k : State → State}
    (h : hostStep i s' k = .next t)
    (e : s'.cfg = s.cfg ∧ s'.thread = s.thread ∧ s'.irqThread = s.irqThread ∧ s'.drvState = s.drvState)
    (hk : ∀ u : State, u.cfg = s.cfg → u.thread = s.thread → u.irqThread = s.irqThread → u.drvState = s.drvState →
      HostEffect f rest s (k u)) : HostEffect f rest s t := by
  obtain ⟨u, hu, rfl⟩ := hostStep_next h
  obtain ⟨a, b, c, d⟩ := exec_host hu
  exact hk u (a.trans e.1) (b.trans e.2.1) (c.trans e.2.2.1) (d.trans e.2.2.2)

/-- A wait that goes on. -/
theorem waitOn_host {f : DriverFrame} {rest : List DriverFrame} {s : State} (hfr : s.frames = f :: rest)
    (hf : f.InTransmit) (hp : ¬ f.OfPump) : HostEffect f rest s (s.waitOn f rest) := by
  unfold State.waitOn
  split
  · exact HostEffect.mk [_, f] rfl rfl rfl (fun _ => .inl ⟨f, by simp, hf⟩) (fun x => absurd x hp)
  · refine ⟨[f], s, rfl, rfl, rfl, ?_, ?_, fun _ => .inl ⟨f, by simp, hf⟩, fun x => absurd x hp⟩ <;>
      unfold State.frames at hfr <;> unfold State.setFrames <;> split at hfr <;> simp [*]

/-- Everything one step of a driver operation can do to the host side. -/
theorem runFrame_host {f : DriverFrame} {rest : List DriverFrame} {s t : State} (hfr : s.frames = f :: rest)
    (h : runFrame f rest s = .next t) : HostEffect f rest s t := by
  have same : s.cfg = s.cfg ∧ s.thread = s.thread ∧ s.irqThread = s.irqThread ∧ s.drvState = s.drvState :=
    ⟨rfl, rfl, rfl, rfl⟩
  cases f with
  | pumpRead =>
    refine hostStep_host h same fun u a b c d => ?_
    split
    · exact HostEffect.mk [] a b c (fun h => .inr ⟨d ▸ h, by simp [DriverFrame.InTransmit]⟩) (fun _ => ⟨d, by simp⟩)
    · exact HostEffect.mk [_] a b c (fun h => .inr ⟨d ▸ h, by simp [DriverFrame.InTransmit]⟩) (fun _ => ⟨d, by simp [DriverFrame.OfPump]⟩)
  | pumpClear b =>
    refine hostStep_host h same fun u a b c d => ?_
    split
    · exact HostEffect.mk (u := u.setFlags _) [_] a b c (fun h => .inr ⟨d ▸ h, by simp [DriverFrame.InTransmit]⟩) (fun _ => ⟨d, by simp [DriverFrame.OfPump]⟩)
    · exact HostEffect.mk (u := u.setFlags _) [] a b c (fun h => .inr ⟨d ▸ h, by simp [DriverFrame.InTransmit]⟩) (fun _ => ⟨d, by simp⟩)
  | pumpFlush =>
    refine hostStep_host h same fun u a b c d => ?_
    exact HostEffect.mk [] a b c (fun h => .inr ⟨d ▸ h, by simp [DriverFrame.InTransmit]⟩) (fun _ => ⟨d, by simp⟩)
  | txStart b q =>
    simp only [runFrame] at h
    split at h
    · cases h
    · split at h <;> injection h with h <;> subst h
      · exact HostEffect.plain [_, _] s rfl rfl rfl rfl
      · exact HostEffect.plain [_] s rfl rfl rfl rfl
  | txProbe b q =>
    refine hostStep_host h ⟨rfl, rfl, rfl, rfl⟩ fun u a b c d => ?_
    split
    · exact HostEffect.plain [] (u.result _) a b c d
    · exact HostEffect.plain [_] u a b c d
  | txWrite b q =>
    refine hostStep_host h same fun u a b c d => ?_
    exact HostEffect.transmit .txRaise { u with drvState := .activeTransmit } a b c (by simp [DriverFrame.InTransmit])
  | txRaise => exact hostStep_host h same fun u a b c d => HostEffect.transmit _ u a b c (by simp [DriverFrame.InTransmit])
  | txHold => exact hostStep_host h same fun u a b c d => HostEffect.transmit _ u a b c (by simp [DriverFrame.InTransmit])
  | txLower =>
    refine hostStep_host h same fun u a b c d => HostEffect.transmit _ u a b c ?_
    unfold State.waitFrame
    split <;> simp [DriverFrame.InTransmit]
  | txWait =>
    injection h with h; subst h
    unfold State.waitStep
    split
    · exact HostEffect.record [] (State.result { s with drvState := .standby, ev := _ } _) rfl rfl rfl (by simp)
    · split
      · exact HostEffect.record [] (State.result { s with drvState := .standby, ev := _ } _) rfl rfl rfl (by simp)
      · exact waitOn_host hfr (by simp [DriverFrame.InTransmit]) (by simp [DriverFrame.OfPump])
  | txStuck =>
    injection h with h; subst h
    exact waitOn_host hfr (by simp [DriverFrame.InTransmit]) (by simp [DriverFrame.OfPump])
  | rxStart => injection h with h; subst h; exact HostEffect.plain [_, _] s rfl rfl rfl rfl
  | rxCheck =>
    simp only [runFrame] at h
    split at h <;> injection h with h <;> subst h
    · exact HostEffect.plain [_] { s with ev := _ } rfl rfl rfl rfl
    · exact HostEffect.plain [] (s.result _) rfl rfl rfl rfl
  | rxProbe =>
    refine hostStep_host h same fun u a b c d => ?_
    unfold State.probeStep
    split
    · exact HostEffect.plain [] (u.result _) a b c d
    · split
      · exact HostEffect.plain [_] u a b c d
      · exact HostEffect.plain [_] u a b c d
  | rxWidth p =>
    refine hostStep_host h same fun u a b c d => ?_
    split <;> exact HostEffect.plain [_] u a b c d
  | rxDiscard => exact hostStep_host h same fun u a b c d => HostEffect.plain [] (u.result _) a b c d
  | rxRead p n => exact hostStep_host h same fun u a b c d => HostEffect.plain [_] u a b c d
  | rxMore p b =>
    refine hostStep_host h same fun u a b c d => ?_
    split
    · exact HostEffect.plain [] (u.result _) a b c d
    · exact HostEffect.plain [_] u a b c d
  | modeStart op =>
    simp only [runFrame] at h
    split at h
    · cases h
    · split at h <;> injection h with h <;> subst h
      · exact HostEffect.plain [] s rfl rfl rfl rfl
      · exact HostEffect.plain [_] s rfl rfl rfl rfl
  | modeLower op => exact hostStep_host h same fun u a b c d => HostEffect.plain [_] u a b c d
  | modeRead op => exact hostStep_host h same fun u a b c d => HostEffect.plain [_] u a b c d
  | modeWrite op x => exact hostStep_host h same fun u a b c d => HostEffect.plain [_] u a b c d
  | modeFinish op =>
    simp only [runFrame] at h
    cases op with
    | powerUp => exact hostStep_host h same fun u a b c d => HostEffect.record [] { u with drvState := .standby } a b c (by simp)
    | enterReceive => exact hostStep_host h same fun u a b c d => HostEffect.record [] { u with drvState := .activeReceive } a b c (by simp)
    | enterTransmit => injection h with h; subst h; exact HostEffect.record [] { s with drvState := .standby } rfl rfl rfl (by simp)
    | powerDown => injection h with h; subst h; exact HostEffect.record [] { s with drvState := .powerDown } rfl rfl rfl (by simp)
  | initStart r =>
    simp only [runFrame] at h
    split at h
    · injection h with h; subst h
      exact HostEffect.plain [] (s.result _) rfl rfl rfl rfl
    · split at h
      · cases h
      · injection h with h; subst h
        exact HostEffect.plain [_, _] { s with ev := _, drvPipes := _ } rfl rfl rfl rfl
  | initFeature r => exact hostStep_host h same fun u a b c d => HostEffect.plain [_, _] u a b c d
  | initRfSetup r => exact hostStep_host h same fun u a b c d => HostEffect.plain [_, _] u a b c d
  | initRfCheck r =>
    refine hostStep_host h same fun u a b c d => ?_
    split
    · exact HostEffect.plain [_] u a b c d
    · exact HostEffect.plain [] (u.result _) a b c d
  | initClear r => injection h with h; subst h; exact HostEffect.plain [_, _] s rfl rfl rfl rfl
  | initBank r =>
    injection h with h; subst h
    split
    · exact HostEffect.plain [_] s rfl rfl rfl rfl
    · exact HostEffect.plain [_, _, _, _] s rfl rfl rfl rfl
  | initPower r => injection h with h; subst h; exact HostEffect.plain [_, _] s rfl rfl rfl rfl
  | initDone => injection h with h; subst h; exact HostEffect.record [] (State.result { s with drvState := .standby } _) rfl rfl rfl (by simp)
  | ackPayload p b =>
    simp only [runFrame] at h
    split at h
    · cases h
    · split at h
      · cases h
      · exact hostStep_host h same fun u a b c d => HostEffect.plain [] u a b c d
  | switchBank b =>
    simp only [runFrame] at h
    split at h
    · injection h with h; subst h; exact HostEffect.plain [] s rfl rfl rfl rfl
    · refine hostStep_host h same fun u a b c d => ?_
      split
      · exact HostEffect.plain [] u a b c d
      · exact HostEffect.plain [_] u a b c d
  | calibrate => injection h with h; subst h; exact HostEffect.plain [_] s rfl rfl rfl rfl
  | script is =>
    cases is with
    | nil => injection h with h; subst h; exact HostEffect.plain [] s rfl rfl rfl rfl
    | cons i is => exact hostStep_host h same fun u a b c d => HostEffect.plain [_] u a b c d
  | finish r => injection h with h; subst h; exact HostEffect.plain [] (s.result _) rfl rfl rfl rfl

@[simp] theorem DriverFrame.isWait_iff (f : DriverFrame) : f.isWait = true ↔ f = .txWait ∨ f = .txStuck := by
  simp [DriverFrame.isWait]

/-- The points of R241 (60 R241). -/
theorem State.interruptible_iff (s : State) :
    s.interruptible = true ↔ s.thread = [] ∨ ∃ f rest, s.thread = f :: rest ∧ (f = .txWait ∨ f = .txStuck) := by
  unfold State.interruptible
  split <;> simp [*]

/-- A host frame is the normal context's but for `POR` (30_encoding.md R93). -/
@[simp] theorem isNormalContext_host (f : HostFrame) : (Turn.host f).isNormalContext = true ↔ f ≠ .por := by
  cases f <;> simp [Turn.isNormalContext]

/-- With no interrupt-context pump running, every turn is taken as it comes. -/
theorem holdsBack_of_idle {s : State} (h : s.irqThread = []) (a : Turn) : s.holdsBack a = false := by
  simp [State.holdsBack, h]

/-- A `POR` never waits (70 R255). -/
theorem holdsBack_por (s : State) : s.holdsBack (.host .por) = false := by simp [State.holdsBack, Turn.isNormalContext]

/-- While the interrupt-context pump runs, a turn of the normal context waits. -/
theorem holdsBack_of_running {s : State} {a : Turn} (h : s.irqThread ≠ []) (ha : a.isNormalContext = true) :
    s.holdsBack a = true := by
  simp [State.holdsBack, h, ha]

end Sys2Proof.Machine
end

