-- ==== Sys2Proof/Laws/PerInstr.lean ====
section
/-! SUPPORT. Statements for all instructions, one lemma a constructor. -/
namespace Sys2Proof.Laws.Opcode
open Sys2Proof Sys2Proof.Machine

/-- The frame of an instruction is its own row's: the command byte selects that row of spec/30_encoding.md R87 and
no other, and a host event of R93 has no command byte. -/
def Statement (i : Instr) : Prop :=
  match encode i with
  | .bus b _ => commandOf b = busCmdOf i ∧ (busCmdOf i).isSome
  | .pin level => busCmdOf i = none ∧ i = if level then .ceh else .cel
  | .delay us => i = .delay us
  | .por => i = .por

theorem readBytes : ∀ a : RegAddr, commandOf (0b000#3 ++ a) = some .rreg := by decide

theorem writeBytes : ∀ a : RegAddr, commandOf (0b001#3 ++ a) = some .wreg := by decide

theorem pipeBytes : ∀ p : Pipe, commandOf (0b10101#5 ++ BitVec.ofNat 3 p.val) = some .wackp := by decide

theorem rreg (a : RegAddr) (n : Nat) : Statement (.rreg a n) := ⟨readBytes a, rfl⟩

theorem wreg (a : RegAddr) (data : List Byte) : Statement (.wreg a data) := ⟨writeBytes a, rfl⟩

theorem act (data : List Byte) : Statement (.act data) := ⟨rfl, rfl⟩

theorem rplw (n : Nat) : Statement (.rplw n) := ⟨rfl, rfl⟩

theorem rrxp (n : Nat) : Statement (.rrxp n) := ⟨rfl, rfl⟩

theorem wtxp (data : List Byte) : Statement (.wtxp data) := ⟨rfl, rfl⟩

theorem wackp (p : Pipe) (data : List Byte) : Statement (.wackp p data) := ⟨pipeBytes p, rfl⟩

theorem wtxpna (data : List Byte) : Statement (.wtxpna data) := ⟨rfl, rfl⟩

theorem fltx (n : Nat) : Statement (.fltx n) := ⟨rfl, rfl⟩

theorem flrx (n : Nat) : Statement (.flrx n) := ⟨rfl, rfl⟩

theorem nop (n : Nat) : Statement (.nop n) := ⟨rfl, rfl⟩

theorem cel : Statement .cel := ⟨rfl, rfl⟩

theorem ceh : Statement .ceh := ⟨rfl, rfl⟩

theorem delay (us : Nat) : Statement (.delay us) := rfl

theorem por : Statement .por := rfl

end Sys2Proof.Laws.Opcode
end

