-- ==== Sys2Proof/WellFormed.lean ====
section
/-! DEFINITION. Which instructions have data counts in the ranges of spec/30_encoding.md R85. `RREG` and `WREG`
have no bound that the instruction alone decides: the width depends on the register map, and in bank 1 there is
none (40_register_commands.md R103, R118). -/
namespace Sys2Proof

/-- The data count of an instruction lies in its range of R85 (`WACKP`'s pipe does by its type). -/
def Instr.WellFormed : Instr → Bool
  | .rreg _ _ => true
  | .wreg _ _ => true
  | .act data => data.length == 1
  | .rplw n => n == 1
  | .rrxp n => n ≤ 32
  | .wtxp data => data.length ≤ 32
  | .wackp _ data => data.length ≤ 32
  | .wtxpna data => data.length ≤ 32
  | .fltx n => n == 0
  | .flrx n => n == 0
  | .nop n => n == 0
  | .cel => true
  | .ceh => true
  | .delay _ => true
  | .por => true

end Sys2Proof
end

