-- ==== Sys2Proof/Tests/Slice0.lean ====
section
/-! SUPPORT. The model's own tests: ill-formed terms, words written out from spec/30_encoding.md, one step at a time
of spec/95_test_vectors.md, and for each obligation with hypotheses a state and operands that meet them. -/
namespace Sys2Proof.Tests
open Sys2Proof Sys2Proof.Machine

/-! ### Small states -/

/-- Parameters with numbers for the three times, which have no value in the spec. -/
def params : Params :=
  { defaultParams with
    tPwrup := 5, tPor := 7, tCePulse := 3
    calTable :=
      { entries := Vector.ofFn fun i => { addr := BitVec.ofNat 5 (8 + i.val), bytes := [0x01, 0x02] }
        toggle := 13, bitA := { byte := 0, bit := 4 }, bitB := { byte := 1, bit := 1 }, setFirst := true } }

/-- After `POR` and `DELAY(T_POR)`: PowerDown, settled. -/
def off : State := { State.reset with cfg := params, settleUs := 0 }

/-- The state with `CONFIG` holding `v`. -/
def withConfig (v : Byte) (s : State) : State := { s with regs := { s.regs with config := v } }

/-- Standby, transmit direction, the pin low. -/
def standby : State := withConfig 0x0A off

/-- ActiveReceive. -/
def listening : State := { withConfig 0x0B off with ce := true }

/-- Settling after a power-up. -/
def settling : State := { standby with settleUs := 1 }

/-- A data packet and an acknowledgment payload. -/
def packet (n : Nat) : TxEntry := { kind := .data, bytes := [0x01], ackReq := true, id := n }
def payload (p : Pipe) : TxEntry := { kind := .ackPayload p, bytes := [0x99], ackReq := false, id := 0 }

/-- One packet queued. -/
def queued : State := { standby with txf := [packet 0], nextId := 1 }

/-- A burst in progress, and its acknowledgment awaited. -/
def onAir : State := { queued with seq := .txOnAir 0 }
def awaiting : State := { queued with seq := .awaitAck 0 }

/-- The TX FIFO full. -/
def txFilled : State := { standby with txf := [packet 0, packet 1, packet 2], nextId := 3 }

/-- RX entries. -/
def entry1 : RxEntry := { pipe := 1, bytes := [0xAA, 0xBB, 0xCC], wid := 3 }
def entry0 : RxEntry := { pipe := 0, bytes := [], wid := 0 }

/-- Two packets received. -/
def received : State := { standby with rxf := [entry1, entry0], rxDr := true }

/-- A record `init` accepts. -/
def record : InitRecord :=
  { addrWidth := 5, ownAddr := List.replicate 5 0x01, pipe1Address := List.replicate 5 0x02, pipesInUse := [0],
    autoAck := true, dynamicPayload := false, ackPayload := false, staticLength := 4, retransmitCount := 15,
    retransmitDelay := 0, channel := 2, rate := .mbps1, pwrBits := 3, crcMode := .oneByte }

/-- DualBankLegacy, bank 0 and bank 1. -/
def dual : State := { standby with cfg := { params with profile := .dualBankLegacy } }
def bank1 : State := { dual with bank := true, tune := [(0x05, [0x11, 0x22])] }

/-- ActiveReceive with pipe 1 of static width 4, and with the payload features on. -/
def listening4 : State := { listening with regs := { listening.regs with rxPw1 := 4 } }
def listeningDyn : State :=
  { listening with
    regs := { listening.regs with feature := 0x06, dynpd := 0x02 }, featureLocked := false }

/-- An offered frame to pipe 1. -/
def frame (bytes : List Byte) : AirPacket :=
  { addr := [0xC2, 0xC2, 0xC2, 0xC2, 0xC2], bytes := bytes, noAck := false, id := { sender := 1, serial := 0 } }

/-- The outcome is a next state with the property. -/
def onNext (o : Outcome) (p : State → Bool) : Bool :=
  match o with
  | .next t => p t
  | .fault _ => false
  | .refused _ => false

/-- The outcome is this fault. -/
def faults (o : Outcome) (r : Fault) : Bool :=
  match o with
  | .next _ => false
  | .fault q => q == r
  | .refused _ => false

/-! ### Ill-formed terms (30_encoding.md R85) -/

theorem test_wf_act_none : Instr.WellFormed (.act []) = false := by decide
theorem test_wf_rplw_two : Instr.WellFormed (.rplw 2) = false := by decide
theorem test_wf_rrxp_33 : Instr.WellFormed (.rrxp 33) = false := by decide
theorem test_wf_wtxp_33 : Instr.WellFormed (.wtxp (List.replicate 33 0)) = false := by decide
theorem test_wf_wackp_33 : Instr.WellFormed (.wackp 0 (List.replicate 33 0)) = false := by decide
theorem test_wf_wtxpna_33 : Instr.WellFormed (.wtxpna (List.replicate 33 0)) = false := by decide
theorem test_wf_fltx_one : Instr.WellFormed (.fltx 1) = false := by decide
theorem test_wf_flrx_one : Instr.WellFormed (.flrx 1) = false := by decide
theorem test_wf_nop_one : Instr.WellFormed (.nop 1) = false := by decide

/-! ### Decoding: words written out from R87, R89, R93 (95_test_vectors.md 2.1) -/

theorem test_decode_rreg : decodeTableWord 8 0b00010111 = some (.rreg 0x17 1) := by decide
theorem test_decode_wreg : decodeTableWord 8 0b00100111 = some (.wreg 0x07 [0x00]) := by decide
theorem test_decode_wreg_two_bytes : decodeTableWord 16 0x0A20 = some (.wreg 0x00 [0x0A]) := by decide
theorem test_decode_act : decodeTableWord 16 0x7350 = some (.act [0x73]) := by decide
theorem test_decode_rplw : decodeTableWord 8 0b01100000 = some (.rplw 1) := by decide
theorem test_decode_rrxp : decodeTableWord 8 0b01100001 = some (.rrxp 1) := by decide
theorem test_decode_wtxp : decodeTableWord 8 0b10100000 = some (.wtxp [0x00]) := by decide
theorem test_decode_wackp : decodeTableWord 8 0b10101101 = some (.wackp 5 [0x00]) := by decide
theorem test_decode_wackp_6 : decodeTableWord 8 0b10101110 = none := by decide
theorem test_decode_wtxpna : decodeTableWord 8 0b10110000 = some (.wtxpna [0x00]) := by decide
theorem test_decode_fltx : decodeTableWord 8 0b11100001 = some (.fltx 0) := by decide
theorem test_decode_flrx : decodeTableWord 8 0b11100010 = some (.flrx 0) := by decide
theorem test_decode_nop : decodeTableWord 8 0b11111111 = some (.nop 0) := by decide
theorem test_decode_reserved : decodeTableWord 8 0x4F = none ∧ decodeTableWord 8 0xE3 = none := by decide
theorem test_decode_events :
    [0, 1, 2, 3].map (decodeTableWord 2) = [some .cel, some .ceh, some (.delay 0), some .por] := by decide

/-- The instruction of a table word is the first that runs after reset. -/
theorem test_fetch_nop : onNext (step (State.reset.withFetchWord 8 0xFF)) (fun t => t.reply.status == 0x0E) := by
  decide
theorem test_fetch_ceh : faults (step (State.reset.withFetchWord 2 1)) .ceInPowerDown := by decide

/-! ### One step at a time (95_test_vectors.md 2.2 to 2.6) -/

theorem test_status_rows :
    (off.status, received.status, txFilled.status, bank1.status) = (0x0E, 0x42, 0x0F, 0x8E) := by decide
theorem test_fifo_status_rows :
    (off.fifoStatus, queued.fifoStatus, txFilled.fifoStatus, received.fifoStatus) = (0x11, 0x01, 0x21, 0x10) := by
  decide
theorem test_rreg_config :
    onNext (exec (.rreg 0x00 1) off) (fun t => t.reply == { status := 0x0E, data := [0x08] }) := by decide
theorem test_rreg_five :
    onNext (exec (.rreg 0x0B 3) off) (fun t => t.reply.data == [0xC2, 0xC2, 0xC2]) := by decide
theorem test_wreg_masks : onNext (exec (.wreg 0x06 [0xFF]) off) (fun t => t.regs.rfSetup == 0xBE) := by decide
theorem test_wreg_illegal : faults (exec (.wreg 0x03 [0xFC]) off) (.illegalRegisterValue 0x03 0xFC) := by decide
theorem test_act_unlocks : onNext (exec (.act [0x73]) off) (fun t => !t.featureLocked) := by decide
theorem test_act_bank_standard : faults (exec (.act [0x53]) off) (.badActivateMagic 0x53) := by decide
theorem test_rplw : onNext (exec (.rplw 1) received) (fun t => t.reply.data == [0x03]) := by decide
theorem test_rrxp_pops :
    onNext (exec (.rrxp 2) received)
      (fun t => t.reply == { status := 0x42, data := [0xAA, 0xBB] } && t.rxf == [entry0]) := by decide
theorem test_wtxp_full : faults (exec (.wtxp [0x02]) txFilled) .txFifoOverflow := by decide
theorem test_wtxp :
    onNext (exec (.wtxp [0x01]) standby) (fun t => t.txf == [packet 0] && t.nextId == 1) := by decide
theorem test_wackp :
    onNext (exec (.wackp 1 [0x99]) standby) (fun t => t.txf == [payload 1]) := by decide
theorem test_wtxpna_empty :
    onNext (exec (.wtxpna []) standby) (fun t => t.txf.map (fun e => e.ackReq) == [false]) := by decide
theorem test_fltx_aborts :
    onNext (exec (.fltx 0) onAir) (fun t => t.seq == .idle && t.txf == [] && !t.maxRt && t.mode == .standby) := by
  decide
theorem test_flrx : onNext (exec (.flrx 0) received) (fun t => t.status == 0x4E && t.rxDr) := by decide
theorem test_nop : onNext (exec (.nop 0) txFilled) (fun t => t.reply.status == 0x0F) := by decide
theorem test_ceh_receive :
    onNext (exec .ceh (withConfig 0x0B off)) (fun t => t.mode == .activeReceive) := by decide
theorem test_cel_short :
    faults (exec .cel { queued with ce := true, ceHighUs := 2 }) (.shortCePulse 2) := by decide
theorem test_cel_latches :
    onNext (exec .cel { queued with ce := true, ceHighUs := 3 })
      (fun t => t.txTrigger && !t.ce && t.mode == .standby) := by decide
theorem test_delay : onNext (exec (.delay 3) { settling with settleUs := 5 }) (fun t => t.settleUs == 2) := by decide
theorem test_por :
    onNext (exec .por onAir) (fun t => t.settleUs == 7 && t.regs.config == 0x08 && t.txf == [] && t.seq == .idle) := by
  decide
theorem test_retry_last : { awaiting with seq := .awaitAck 3, retry := 3 }.timeoutStep.status = 0x1E := by decide
/-- 44 R209, R210: an abandoned wait leaves the driver's record in Standby and no result. -/
theorem test_abandon :
    onNext (runTurn .abandon { awaiting with thread := [.txWait], drvState := .activeTransmit })
      (fun t => t.drvState == .standby && t.opResult == none && t.thread == [] && t.seq == .awaitAck 0) := by decide
/-- 44 R224: sixteen writes, the first nine entries reversed, two bits of one of the fourteen set and cleared. -/
theorem test_calibration :
    (calibrationSteps params.calTable).drop 8 =
      [.wreg 0x10 [0x02, 0x01], .wreg 0x11 [0x01, 0x02], .wreg 0x12 [0x01, 0x02], .wreg 0x13 [0x01, 0x02],
       .wreg 0x14 [0x01, 0x02], .wreg 0x15 [0x01, 0x02], .wreg 0x15 [0x11, 0x02], .wreg 0x15 [0x01, 0x00]] := by decide
/-- 70 R270, under the parameter that follows it: the pulse found max-retries set, so nothing ends the wait. -/
theorem test_stale_max_rt :
    onNext (runTurn .driver { queued with
        cfg := { params with staleMaxRt := .waitsForEver }, maxRt := true, thread := [.txLower] })
      (fun t => t.thread == [.txStuck]) := by decide
/-- 44 R212, 10 R33: of a static length of 0x48 the register keeps 8; a pipe not in use is not dynamic any more. -/
theorem test_init_pipes :
    onNext (runTurn .driver { off with
        thread := [.initStart { record with staticLength := 0x48, pipesInUse := [1] }]
        drvPipes := off.drvPipes.program fun _ _ => { dynamic := true, staticLen := 4 } })
      (fun t => t.drvPipes.get 1 == { dynamic := false, staticLen := 8 }
        && t.drvPipes.get 0 == { dynamic := false, staticLen := 4 }) := by decide
theorem test_accept :
    (listening4.offerStep (frame [1, 2, 3, 4])).status = 0x42 := by decide
theorem test_ack_payload :
    ({ listeningDyn with txf := [payload 1] }.offerStep (frame [])).status = 0x62 := by decide

/-! ### The invariant is met by more than the reset state -/

theorem params_legal : LegalParams params where
  names := by decide
  magic := by decide
  emptyCode := by decide
  awBits := by decide
  arcBits := by decide
  calTable := by constructor <;> decide
  resetRegs := ⟨by decide, by decide, by decide⟩
  resetOff := by decide

/-- The burst of `onAir`, whatever turns are listed. -/
theorem onAir_burst (turns : List Turn) : { onAir with agenda := turns }.InBurst 0 :=
  have b : onAir.InBurst 0 := by constructor <;> decide
  ⟨b.powered, b.transmit, b.settled, b.noMaxRt, b.hasCur, b.noTrigger, b.retries, b.budget⟩

theorem onAir_inv : onAir.Inv where
  params := params_legal
  registers := ⟨by decide, by decide, by decide⟩
  txDepth := by decide
  rxDepth := by decide
  txEntries := by decide
  rxEntries := by intro e he; cases he
  txIds := by decide
  txFresh := by decide
  phase := onAir_burst []
  trigger := by decide
  oneBank := by decide
  tuneOk := tuneWf_nil

theorem listening_inv : listening.Inv where
  params := params_legal
  registers := ⟨by decide, by decide, by decide⟩
  txDepth := by decide
  rxDepth := by decide
  txEntries := by decide
  rxEntries := by intro e he; cases he
  txIds := by decide
  txFresh := by decide
  phase := rfl
  trigger := by decide
  oneBank := by decide
  tuneOk := tuneWf_nil

/-! ### Witnesses: for each obligation, states and operands that meet its hypotheses, clause by clause, at the ends
of their ranges -/

theorem off_ready : off.Ready := ⟨rfl, rfl⟩

theorem standby_ready : standby.Ready := ⟨rfl, rfl⟩

theorem bank1_ready : bank1.Ready := ⟨rfl, rfl⟩

theorem bank1_tuneWf : tuneWf bank1.tune := ⟨by decide, by decide⟩

theorem witness_ReservedBytesFault :
    off.Ready ∧ reservedByte 0x40 = true ∧ reservedByte 0xAE = true ∧ reservedByte 0xFE = true :=
  ⟨off_ready, by decide⟩

theorem witness_OpcodeRowsDisjoint :
    opcodeRows.reverse.Perm opcodeRows ∧ (⟨.wackp, 0xA8, 0xF8⟩ : OpcodeRow) ∈ opcodeRows.reverse ∧
      (⟨.wackp, 0xA8, 0xF8⟩ : OpcodeRow).selects 0xAF = true :=
  ⟨List.reverse_perm _, by decide⟩

theorem witness_StepRunsDecoded :
    let s := { off with agenda := [.host (.bus 0xFF [])] }
    let busy := { s with irqThread := [.pumpRead] }
    let dropped := { busy with agenda := [.host .por] }
    dropped.fault = none ∧ dropped.agenda = .host .por :: [] ∧ decode .por = .ok .por ∧ dropped.irqThread ≠ [] ∧
      s.fault = none ∧ s.agenda = .host (.bus 0xFF []) :: [] ∧ decode (.bus 0xFF []) = .ok (.nop 0) ∧ s.irqThread = [] ∧
      busy.fault = none ∧ busy.agenda = .host (.bus 0xFF []) :: [] ∧ busy.irqThread ≠ [] ∧
      HostFrame.bus 0xFF [] ≠ .por := by decide

theorem witness_FaultIsFinal :
    { off with fault := some .modeBypass }.fault = some .modeBypass ∧ off.fault = none := ⟨rfl, rfl⟩

theorem witness_SettlingAdmission :
    settling.fault = none ∧ 0 < settling.settleUs ∧ busCmdOf (.nop 0) = some .nop ∧ reservedByte 0x40 = true ∧
      settling.ce = false ∧ settling.bit .pwrUp = true := by decide

theorem witness_RregStoredRegister :
    off.Ready ∧ off.bankBit = false ∧ regAt off.cfg.regMap 0x0A = some (.rxAddr 0) ∧
      RegName.rxAddr 0 ∉ [RegName.status, .fifoStatus, .observeTx, .rpd, .feature, .dynpd] ∧
      5 ≤ regWidth (.rxAddr 0) ∧ ¬ 6 ≤ regWidth (.rxAddr 0) := ⟨off_ready, by decide⟩

theorem witness_RregViews :
    off.Ready ∧ bank1.Ready ∧ off.cfg.regMap = defaultRegMap ∧ regAt bank1.cfg.regMap 0x07 = some .status ∧
      off.bankBit = false ∧ regAt off.cfg.regMap 0x17 = some .fifoStatus ∧ regAt off.cfg.regMap 0x08 = some .observeTx ∧
      regAt off.cfg.regMap 0x09 = some .rpd ∧ regAt off.cfg.regMap 0x1D = some .feature ∧
      regAt off.cfg.regMap 0x1C = some .dynpd :=
  ⟨off_ready, bank1_ready, rfl, by decide⟩

theorem witness_HolesFault :
    off.Ready ∧ off.bankBit = false ∧
      (0x18 : RegAddr) ∈ [(0x18 : RegAddr), 0x19, 0x1A, 0x1B, 0x1E, 0x1F] ∧
      (0x1F : RegAddr) ∈ [(0x18 : RegAddr), 0x19, 0x1A, 0x1B, 0x1E, 0x1F] := ⟨off_ready, by decide⟩

theorem witness_NopProbes :
    off.Ready ∧ off.inTuneBank 0x1D = false ∧ regAt off.cfg.regMap 0x1D = some .feature ∧
      bank1.Ready ∧ bank1.inTuneBank 0x07 = false ∧ regAt bank1.cfg.regMap 0x07 = some .status :=
  ⟨off_ready, by decide, by decide, bank1_ready, by decide⟩

theorem witness_DataCountsFault :
    off.Ready ∧ off.inTuneBank 0x0A = false ∧ regAt off.cfg.regMap 0x0A = some (.rxAddr 0) ∧
      regWidth (.rxAddr 0) < 6 ∧ regWidth (.rxAddr 0) < (List.replicate 6 (0 : Byte)).length ∧ 32 < 33 ∧
      32 < (List.replicate 33 (0 : Byte)).length ∧ 0 ≠ 1 ∧ ([] : List Byte).length ≠ 1 ∧ 1 ≠ 0 :=
  ⟨off_ready, by decide⟩

theorem witness_TuningBankAccess :
    LegalParams params ∧ bank1.Ready ∧ bank1.bankBit = true ∧ regAt bank1.cfg.regMap 0x05 ≠ some .status ∧ tuneWf bank1.tune ∧
      2 ≤ (tuneGet bank1.tune 0x05).length ∧ ¬ 3 ≤ (tuneGet bank1.tune 0x05).length :=
  ⟨params_legal, bank1_ready, by decide, by decide, bank1_tuneWf, by decide⟩

theorem witness_WregStatusClears :
    off.Ready ∧ regAt off.cfg.regMap 0x07 = some .status ∧ bank1.Ready ∧
      regAt bank1.cfg.regMap 0x07 = some .status := ⟨off_ready, by decide, bank1_ready, by decide⟩

/-- The direction turns with the pin high, in a burst, with a latched trigger; and turns or stays without. -/
theorem witness_WregConfigDirection :
    let new (s : State) (v : Byte) := v &&& implemented s.cfg.regMap .config
    let turns (s : State) (v : Byte) := bitOf s.cfg.regMap .primRx (new s v) ≠ s.bit .primRx
    let busy (s : State) := s.ce = true ∨ s.seq ≠ .idle ∨ s.txTrigger = true
    let keeps (s : State) (v : Byte) := bitOf s.cfg.regMap .pwrUp (new s v) = s.bit .pwrUp
    listening.Ready ∧ listening.bankBit = false ∧ regAt listening.cfg.regMap 0x00 = some .config ∧
      turns listening 0x0A ∧ busy listening ∧ turns onAir 0x0B ∧ busy onAir ∧
      turns { queued with txTrigger := true } 0x0B ∧ busy { queued with txTrigger := true } ∧
      ¬ (turns listening 0x7B ∧ busy listening) ∧ keeps listening 0x7B ∧
      ¬ (turns standby 0x0B ∧ busy standby) ∧ keeps standby 0x0B := ⟨⟨rfl, rfl⟩, by decide⟩

theorem witness_WregConfigPowerUp :
    let new (s : State) (v : Byte) := v &&& implemented s.cfg.regMap .config
    let turns (s : State) (v : Byte) := bitOf s.cfg.regMap .primRx (new s v) ≠ s.bit .primRx
    let busy (s : State) := s.ce = true ∨ s.seq ≠ .idle ∨ s.txTrigger = true
    let high : State := { off with ce := true }
    off.Ready ∧ high.Ready ∧ off.bankBit = false ∧ regAt off.cfg.regMap 0x00 = some .config ∧
      off.bit .pwrUp = false ∧ bitOf off.cfg.regMap .pwrUp (new off 0x0B) = true ∧
      ¬ (turns off 0x0B ∧ busy off) ∧ off.ce = false ∧ 0 < off.cfg.tPwrup ∧
      bitOf high.cfg.regMap .pwrUp (new high 0x0A) = true ∧ ¬ (turns high 0x0A ∧ busy high) ∧ high.ce = true :=
  ⟨off_ready, ⟨rfl, rfl⟩, by decide⟩

theorem witness_WregConfigPowerDown :
    let new (s : State) (v : Byte) := v &&& implemented s.cfg.regMap .config
    let turns (s : State) (v : Byte) := bitOf s.cfg.regMap .primRx (new s v) ≠ s.bit .primRx
    let busy (s : State) := s.ce = true ∨ s.seq ≠ .idle ∨ s.txTrigger = true
    onAir.Ready ∧ onAir.bankBit = false ∧ regAt onAir.cfg.regMap 0x00 = some .config ∧ onAir.bit .pwrUp = true ∧
      bitOf onAir.cfg.regMap .pwrUp (new onAir 0x08) = false ∧ ¬ (turns onAir 0x08 ∧ busy onAir) :=
  ⟨⟨rfl, rfl⟩, by decide⟩

theorem witness_WregPlainByte :
    off.Ready ∧ off.bankBit = false ∧ regAt off.cfg.regMap 0x11 = some (.rxPw 0) ∧
      RegName.rxPw 0 ∈ plainByteRegs ∧ off.isActive = false ∧
      illegalValue off.cfg.regMap (.rxPw 0) (0x20 &&& implemented off.cfg.regMap (.rxPw 0)) = false ∧
      regAt off.cfg.regMap 0x03 = some .setupAw ∧ RegName.setupAw ∈ plainByteRegs ∧
      illegalValue off.cfg.regMap .setupAw (0x01 &&& implemented off.cfg.regMap .setupAw) = false :=
  ⟨off_ready, by decide⟩

theorem witness_WregFiveBytes :
    off.Ready ∧ off.bankBit = false ∧ regAt off.cfg.regMap 0x10 = some .txAddr ∧ regWidth .txAddr = 5 ∧
      off.isActive = false ∧ [(0x01 : Byte)] ≠ [] ∧ [(0x01 : Byte)].length ≤ 5 ∧
      (List.replicate 5 (0x01 : Byte)).length ≤ 5 := ⟨off_ready, by decide⟩

theorem witness_WregFeatureLock :
    let unlocked : State := { off with featureLocked := false }
    off.Ready ∧ unlocked.Ready ∧ listeningDyn.Ready ∧ off.bankBit = false ∧
      regAt off.cfg.regMap 0x1D = some .feature ∧ regAt off.cfg.regMap 0x1C = some .dynpd ∧
      RegName.dynpd ∈ [RegName.feature, .dynpd] ∧ off.featureLocked = true ∧ unlocked.featureLocked = false ∧
      unlocked.isActive = false ∧ listeningDyn.featureLocked = false ∧ listeningDyn.isActive = true :=
  ⟨off_ready, ⟨rfl, rfl⟩, ⟨rfl, rfl⟩, by decide⟩

theorem witness_IllegalValuesFault :
    off.Ready ∧ off.bankBit = false ∧ off.isActive = false ∧ regAt off.cfg.regMap 0x03 = some .setupAw ∧
      fieldOf off.cfg.regMap .aw (0xFC &&& implemented off.cfg.regMap .setupAw) = 0 ∧
      regAt off.cfg.regMap 0x16 = some (.rxPw 5) ∧
      32 < fieldOf off.cfg.regMap (.rxPwLen 5) (0x21 &&& implemented off.cfg.regMap (.rxPw 5)) :=
  ⟨off_ready, by decide⟩

theorem witness_ActiveConfigWritesFault :
    listeningDyn.Ready ∧ listeningDyn.bankBit = false ∧ regAt listeningDyn.cfg.regMap 0x1D = some .feature ∧
      regAt listeningDyn.cfg.regMap 0x05 = some .rfCh ∧ listeningDyn.isActive = true ∧ [(0x10 : Byte)] ≠ [] ∧
      [(0x10 : Byte)].length ≤ regWidth .rfCh ∧
      RegName.rfCh ∉ [RegName.status, .config, .fifoStatus, .observeTx, .rpd] ∧
      RegName.feature ∉ [RegName.status, .config, .fifoStatus, .observeTx, .rpd] ∧
      listeningDyn.featureLocked = false := ⟨⟨rfl, rfl⟩, by decide⟩

theorem witness_WregReadOnlyIgnored :
    off.Ready ∧ off.bankBit = false ∧ regAt off.cfg.regMap 0x17 = some .fifoStatus ∧
      RegName.fifoStatus ∈ [RegName.fifoStatus, .observeTx, .rpd] := ⟨off_ready, by decide⟩

theorem witness_RrxpReadsAndPops :
    received.Ready ∧ 32 ≤ 32 ∧ received.rxf = entry1 :: [entry0] ∧ off.Ready ∧ off.rxf = [] :=
  ⟨⟨rfl, rfl⟩, by decide, rfl, off_ready, rfl⟩

theorem witness_RplwReadsWidth :
    received.Ready ∧ received.rxf = entry1 :: [entry0] ∧ off.Ready ∧ off.rxf = [] :=
  ⟨⟨rfl, rfl⟩, rfl, off_ready, rfl⟩

theorem witness_FlrxEmpties : received.Ready := ⟨rfl, rfl⟩

theorem witness_PayloadWritesAppend :
    txFilled.Ready ∧ txFilled.txf.length = 3 ∧ queued.Ready ∧ queued.txf.length ≠ 3 ∧
      (List.replicate 32 (0 : Byte)).length ≤ 32 := ⟨⟨rfl, rfl⟩, by decide, ⟨rfl, rfl⟩, by decide⟩

theorem witness_AckPayloadWriteAppends :
    txFilled.Ready ∧ txFilled.txf.length = 3 ∧ off.Ready ∧ off.txf.length ≠ 3 ∧ ([] : List Byte).length ≤ 32 :=
  ⟨⟨rfl, rfl⟩, by decide, off_ready, by decide⟩

theorem witness_FltxFlushes : onAir.Ready ∧ txFilled.Ready := ⟨⟨rfl, rfl⟩, ⟨rfl, rfl⟩⟩

theorem witness_ActToggles :
    listening.Ready ∧ dual.Ready ∧ off.Ready ∧ params.magicBank ≠ params.magicFeature ∧
      dual.cfg.magicBank ≠ dual.cfg.magicFeature ∧ listening.isActive = true ∧ dual.isActive = false ∧
      off.isActive = false ∧ dual.cfg.profile = .dualBankLegacy ∧ (0x53 : Byte) = dual.cfg.magicBank ∧
      (0x53 : Byte) ≠ off.cfg.magicFeature ∧
      ¬ ((0x53 : Byte) = off.cfg.magicBank ∧ off.cfg.profile = .dualBankLegacy) :=
  ⟨⟨rfl, rfl⟩, ⟨rfl, rfl⟩, off_ready, by decide⟩

theorem witness_CehRaisesPin :
    listening.fault = none ∧ listening.ce = true ∧ off.ce = false ∧ off.bit .pwrUp = false ∧ settling.ce = false ∧
      settling.bit .pwrUp = true ∧ 0 < settling.settleUs ∧ standby.ce = false ∧ standby.bit .pwrUp = true ∧
      standby.settleUs = 0 ∧ (withConfig 0x0B off).bit .primRx = true ∧ (withConfig 0x0B off).seq = .idle := by
  decide

theorem witness_CelLowersPin :
    let pulse (s : State) := s.bit .pwrUp = true ∧ s.bit .primRx = false ∧ s.settleUs = 0 ∧ s.seq = .idle ∧
      s.pulseUsed = false ∧ s.maxRt = false ∧ ∃ e ∈ s.txf, e.kind = .data
    let high : State := { queued with ce := true, ceHighUs := 2 }
    let long : State := { high with ceHighUs := 3 }
    high.fault = none ∧ standby.ce = false ∧ high.ce = true ∧ pulse high ∧ high.ceHighUs < high.cfg.tCePulse ∧
      pulse long ∧ long.cfg.tCePulse ≤ long.ceHighUs ∧ listening.ce = true ∧ ¬ pulse listening := by decide

theorem witness_DelayCounts :
    settling.fault = none ∧ ∃ t, exec (.delay 1) settling = .next t := ⟨rfl, _, rfl⟩

theorem witness_PorResets : onAir.fault = none := rfl

theorem witness_StatusLayout : received.rxf = entry1 :: [entry0] ∧ off.rxf = [] := ⟨rfl, rfl⟩

/-- Both ends of the address width, both byte orders, and a state that meets the invariant. -/
theorem witness_EffectiveAddresses :
    let narrow : State := { off with regs := { off.regs with setupAw := 0x01 } }
    let msb : State := { off with cfg := { params with addrLsbFirst := false } }
    onAir.Inv ∧ narrow.field .aw = 1 ∧ { off with regs := { off.regs with setupAw := 0x02 } }.field .aw = 2 ∧ off.field .aw = 3 ∧
      2 ≤ (2 : Pipe).val ∧ 2 ≤ (5 : Pipe).val ∧ off.cfg.addrLsbFirst = true ∧ msb.cfg.addrLsbFirst = false ∧
      4 < onAir.aw ∧ 4 ≠ 0 :=
  ⟨onAir_inv, by decide⟩

theorem witness_WriteBackReleasesLine :
    received.Ready ∧ regAt received.cfg.regMap 0x07 = some .status ∧ off.rxDr = false ∧ off.txDs = false ∧
      off.maxRt = false := ⟨⟨rfl, rfl⟩, by decide⟩

theorem witness_ReadsFrame :
    (∃ t, exec (.nop 0) off = .next t) ∧ (∃ t, exec (.rrxp 0) received = .next t) ∧
      busCmdOf (.nop 0) = some .nop ∧ busCmdOf (.rrxp 0) = some .rrxp := ⟨⟨_, rfl⟩, ⟨_, rfl⟩, rfl, rfl⟩

theorem witness_RegistersFrame :
    (∃ t, exec (.fltx 0) off = .next t) ∧ busCmdOf (.fltx 0) ≠ some .wreg ∧ Instr.fltx 0 ≠ .por ∧
      (∃ t, exec (.wreg 0x05 [0x4C]) off = .next t) ∧ off.inTuneBank 0x05 = false ∧
      regAt off.cfg.regMap 0x05 ≠ some .config ∧ (∃ t, exec (.wreg 0x05 [0x4C]) bank1 = .next t) ∧
      bank1.inTuneBank 0x05 = true :=
  ⟨⟨_, rfl⟩, by decide, by decide, ⟨_, rfl⟩, by decide, by decide, ⟨_, rfl⟩, by decide⟩

theorem witness_ChipStateFrame :
    (∃ t, exec .ceh standby = .next t) ∧ (∃ t, exec (.wreg 0x05 [0x4C]) off = .next t) ∧
      ∃ t, exec .por onAir = .next t := ⟨⟨_, rfl⟩, ⟨_, rfl⟩, ⟨_, rfl⟩⟩

theorem witness_StartBurstEnabled :
    let enabled (s : State) := s.bit .pwrUp = true ∧ s.settleUs = 0 ∧ s.bit .primRx = false ∧ s.seq = .idle ∧
      s.maxRt = false ∧ (∃ e ∈ s.txf, e.kind = .data) ∧
      (s.txTrigger = true ∨ (s.ce = true ∧ s.cfg.tCePulse ≤ s.ceHighUs))
    enabled { queued with ce := true, ceHighUs := 3 } ∧ enabled { queued with txTrigger := true } ∧
      ¬ enabled { queued with ce := true, ceHighUs := 2 } ∧ queued.seq = .idle ∧
      ¬ enabled { queued with txTrigger := true, maxRt := true } := by decide

theorem witness_EndAttemptSends :
    onAir.seq = .txOnAir 0 ∧ onAir.bit .pwrUp = true ∧ onAir.settleUs = 0 ∧
      { onAir with txf := [payload 1, packet 1] }.txf = [payload 1] ++ packet 1 :: [] ∧
      (∀ f ∈ [payload 1], f.kind ≠ .data) ∧ (packet 1).kind = .data := by decide

theorem witness_AckArrivedCompletes :
    let on : State := { awaiting with
      regs := { awaiting.regs with feature := 0x06 }, featureLocked := false }
    let deaf : State := { awaiting with regs := { awaiting.regs with enRxaddr := 0x02 } }
    let heard (s : State) := s.effAddr 0 = s.txAddrBytes ∧ s.bit (.erx 0) = true
    let payOn (s : State) := s.featureLocked = false ∧ s.bit .enAckPay = true ∧ s.bit .enDpl = true
    (∀ n, onAir.seq ≠ .awaitAck n) ∧ awaiting.seq = .awaitAck 0 ∧ awaiting.bit .pwrUp = true ∧ awaiting.settleUs = 0 ∧
      awaiting.txf = [] ++ packet 0 :: [] ∧ (packet 0).kind = .data ∧
      (List.replicate 32 (0 : Byte)).length ≤ 32 ∧ heard awaiting ∧ heard on ∧ payOn on ∧ on.rxf.length ≠ 3 ∧
      ¬ payOn awaiting ∧ ¬ heard deaf := ⟨nofun, by decide⟩

theorem witness_TimeoutRetries :
    (∀ n, queued.seq ≠ .awaitAck n) ∧ awaiting.seq = .awaitAck 0 ∧ awaiting.bit .pwrUp = true ∧
      awaiting.settleUs = 0 ∧ 0 < awaiting.field .arc ∧
      { awaiting with seq := .awaitAck 3 }.seq = .awaitAck 3 ∧ ¬ 3 < awaiting.field .arc := ⟨nofun, by decide⟩

theorem witness_UnwantedFramesIgnored :
    (standby.mode ≠ .activeReceive ∨ standby.settleUs ≠ 0) ∧
      (∀ p : Pipe, listening.bit (.erx p) = true →
        { frame [] with addr := [0x00] }.addr ≠ listening.effAddr p) ∧
      listening4.bit (.erx 1) = true ∧ (frame [1]).addr = listening4.effAddr 1 ∧
      (∀ q : Pipe, q < 1 → listening4.bit (.erx q) = true → (frame [1]).addr ≠ listening4.effAddr q) ∧
      ¬ (listening4.featureLocked = false ∧ listening4.bit .enDpl = true ∧ listening4.bit (.dpl 1) = true) ∧
      (frame [1]).bytes.length ≠ listening4.field (.rxPwLen 1) := by decide

theorem witness_AcceptStores :
    let on : State := { listeningDyn with txf := [payload 1] }
    let k := frame (List.replicate 32 0)
    let payOn (s : State) := s.featureLocked = false ∧ s.bit .enAckPay = true ∧ s.bit .enDpl = true
    on.mode = .activeReceive ∧ on.settleUs = 0 ∧ k.bytes.length ≤ 32 ∧ on.bit (.erx 1) = true ∧
      k.addr = on.effAddr 1 ∧ (∀ q : Pipe, q < 1 → on.bit (.erx q) = true → k.addr ≠ on.effAddr q) ∧
      (on.featureLocked = false ∧ on.bit .enDpl = true ∧ on.bit (.dpl 1) = true) ∧
      (frame [1, 2, 3, 4]).bytes.length = listening4.field (.rxPwLen 1) ∧ on.lastRxId ≠ some k.id ∧
      on.rxf.length ≠ 3 ∧ payOn on ∧
      (on.bit (.enaa 1) = true ∧ k.noAck = false) ∧ on.txf = [] ++ payload 1 :: [] ∧
      (payload 1).kind = .ackPayload 1 ∧ (∀ e ∈ listeningDyn.txf, e.kind ≠ .ackPayload 1) ∧
      ¬ (on.bit (.enaa 1) = true ∧ { k with noAck := true }.noAck = false) := by decide

theorem witness_DuplicateAndFullDrop :
    let k := frame [1, 2, 3, 4]
    let again : State := { listening4 with lastRxId := some k.id }
    let filled : State := { listening4 with rxf := [entry0, entry1, entry0] }
    again.mode = .activeReceive ∧ again.settleUs = 0 ∧ k.bytes.length ≤ 32 ∧ again.bit (.erx 1) = true ∧
      k.addr = again.effAddr 1 ∧ (∀ q : Pipe, q < 1 → again.bit (.erx q) = true → k.addr ≠ again.effAddr q) ∧
      k.bytes.length = again.field (.rxPwLen 1) ∧ again.lastRxId = some k.id ∧ filled.mode = .activeReceive ∧
      filled.settleUs = 0 ∧ filled.bit (.erx 1) = true ∧ k.addr = filled.effAddr 1 ∧
      (∀ q : Pipe, q < 1 → filled.bit (.erx q) = true → k.addr ≠ filled.effAddr q) ∧
      k.bytes.length = filled.field (.rxPwLen 1) ∧
      filled.lastRxId ≠ some k.id ∧ filled.rxf.length = 3 := by decide

theorem witness_FramingErrorEntry :
    let enabled (s : State) (p : Pipe) :=
      s.cfg.allowBadWidth = true ∧ s.mode = .activeReceive ∧ s.settleUs = 0 ∧ s.rxf.length ≠ 3 ∧
        s.bit (.erx p) = true ∧ s.featureLocked = false ∧ s.bit .enDpl = true ∧ s.bit (.dpl p) = true
    enabled listeningDyn 1 ∧ ¬ enabled listeningDyn 0 ∧
      ¬ enabled { listeningDyn with rxf := [entry0, entry1, entry0] } 1 := by decide

theorem witness_StepKeepsInv : onAir.Inv ∧ ∃ t, step onAir = .next t := ⟨onAir_inv, _, rfl⟩

theorem witness_StepKeepsParams : ∃ t, step { off with agenda := [.host .por] } = .next t := ⟨_, rfl⟩

theorem witness_StandbyNeverBypassed :
    onAir.Inv ∧ (∃ t, step onAir = .next t) ∧ onAir.mode = .activeTransmit ∧ listening.Inv ∧
      (∃ t, step listening = .next t) ∧ listening.mode = .activeReceive :=
  ⟨onAir_inv, ⟨_, rfl⟩, by decide, listening_inv, ⟨_, rfl⟩, by decide⟩

theorem witness_EventBitsOwners :
    (∃ t, exec (.wreg 0x07 [0x40]) received = .next t ∧ t.rxDr ≠ received.rxDr) ∧
      (∃ t, exec .por received = .next t ∧ t.rxDr ≠ received.rxDr) ∧
      awaiting.timeoutStep ∈
        [awaiting.sequencerStep, awaiting.ackStep none, awaiting.timeoutStep, awaiting.offerStep (frame []),
         awaiting.framingStep 0] ∧ { awaiting with txDs := true }.txDs = true :=
  ⟨⟨_, rfl, by decide⟩, ⟨_, rfl, by decide⟩, by simp, rfl⟩

theorem witness_BurstEnds :
    onAir.Inv ∧ onAir.seq = .txOnAir 0 ∧ (List.replicate 4 Answer.timeout).length = onAir.field .arc + 1 ∧
      [Answer.timeout, .timeout, .timeout, .ack none].length = onAir.field .arc + 1 :=
  ⟨onAir_inv, by decide⟩

/-- A burst is flushed, is cut by a power-down, and ends with an acknowledgment. -/
theorem witness_LeavingTransmit :
    let flushed : State := { onAir with agenda := [.host (.bus 0xE1 [])] }
    let cut : State := { onAir with agenda := [.host (.bus 0x20 [0x08])] }
    flushed.Inv ∧ cut.Inv ∧ onAir.mode = .activeTransmit ∧
      onNext (step flushed) (fun t => t.mode != .activeTransmit) = true ∧
      onNext (step cut) (fun t => t.mode != .activeTransmit) = true ∧
      onNext (step { awaiting with agenda := [.ack none] }) (fun t => t.mode != .activeTransmit) = true :=
  have h := onAir_inv
  ⟨⟨h.params, h.registers, h.txDepth, h.rxDepth, h.txEntries, h.rxEntries, h.txIds, h.txFresh, onAir_burst _,
      h.trigger, h.oneBank, h.tuneOk⟩,
   ⟨h.params, h.registers, h.txDepth, h.rxDepth, h.txEntries, h.rxEntries, h.txIds, h.txFresh, onAir_burst _,
      h.trigger, h.oneBank, h.tuneOk⟩, by decide⟩

/-- Both callers, with a byte of 0, a stalled packet, and another event. -/
theorem witness_PumpHandlesEvents :
    let stalled : State := { queued with maxRt := true, thread := [.pumpRead] }
    let quiet : State := { standby with rxf := [entry0], thread := [.pumpRead] }
    let called : State := { received with thread := [.txWait], irqThread := [.pumpRead] }
    stalled.Ready ∧ quiet.Ready ∧ called.Ready ∧ LegalParams stalled.cfg ∧ stalled.irqThread = [] ∧
      stalled.program false = .pumpRead :: [] ∧ stalled.status ≠ 0x00 ∧ stalled.maxRt = true ∧ quiet.status = 0x00 ∧
      called.program true = .pumpRead :: [] ∧ called.status ≠ 0x00 ∧ called.maxRt = false :=
  ⟨⟨rfl, rfl⟩, ⟨rfl, rfl⟩, ⟨rfl, rfl⟩, params_legal, by decide⟩

theorem witness_OperationGuards :
    let misused : State := { off with thread := [.txStart [] true] }
    let full : State := { txFilled with thread := [.txProbe [0x01] true] }
    full.Ready ∧ full.irqThread = [] ∧ full.thread = .txProbe [0x01] true :: [] ∧ full.txf.length = 3 ∧
      misused.irqThread = [] ∧ misused.drvState = .powerDown ∧ misused.thread = .txStart [] true :: [] ∧
      { misused with thread := [.modeStart .enterReceive] }.thread = .modeStart .enterReceive :: [] ∧
      { misused with thread := [.modeStart .enterTransmit] }.thread = .modeStart .enterTransmit :: [] ∧
      { misused with thread := [.ackPayload 0 []] }.thread = .ackPayload 0 [] :: [] ∧ misused.thread ≠ [] :=
  ⟨⟨rfl, rfl⟩, by decide⟩

/-- Each way to break R218 one step outside its range, and a record that breaks none. -/
theorem witness_OperationGuards_init :
    let bad (r : InitRecord) := r.ackPayload = true ∧ r.dynamicPayload = false ∨ r.addrWidth < 3 ∨ 5 < r.addrWidth ∨
      15 < r.retransmitCount ∨ 127 < r.channel ∨ r.ownAddr.length ≠ r.addrWidth
    let called : State := { off with thread := [.initStart record] }
    called.irqThread = [] ∧ called.thread = .initStart record :: [] ∧ ¬ bad record ∧
      bad { record with ackPayload := true } ∧ bad { record with addrWidth := 2 } ∧
      bad { record with addrWidth := 6 } ∧ bad { record with retransmitCount := 16 } ∧
      bad { record with channel := 128 } ∧ bad { record with ownAddr := [] } ∧ called.ce = false ∧
      called.mode = .powerDown ∧ standby.ce = false ∧ standby.mode = .standby := by decide

theorem witness_OperationGuards_wait :
    let idle : State := { off with thread := [.txWait] }
    let done : State := { idle with ev := { off.ev with transmitAcknowledged := true } }
    let stalled : State := { idle with ev := { off.ev with maxRetriesReached := true } }
    idle.irqThread = [] ∧ idle.thread = .txWait :: [] ∧ done.ev.transmitAcknowledged = true ∧
      stalled.ev.transmitAcknowledged = false ∧ stalled.ev.maxRetriesReached = true ∧
      idle.ev.transmitAcknowledged = false ∧ idle.ev.maxRetriesReached = false ∧
      { idle with thread := [.txStuck] }.thread = .txStuck :: [] := by decide

theorem witness_OperationGuards_pulse :
    let pulsed : State := { queued with thread := [.txLower] }
    pulsed.irqThread = [] ∧ pulsed.thread = .txLower :: [] ∧ ∃ t, driverStep pulsed = .next t := ⟨rfl, rfl, _, rfl⟩

/-- The interrupt may come in the wait of `transmit` and between operations, not in polled mode, nor in an
operation; a call waits for the pump. -/
theorem witness_HostContexts :
    let may (s : State) := s.cfg.pumpCaller = .interrupt ∧ s.irqLine = false ∧ s.irqThread = [] ∧
      (s.thread = [] ∨ s.thread = [.txWait] ∨ s.thread = [.txStuck])
    let irq : State := { received with cfg := { params with pumpCaller := .interrupt }, thread := [.txWait] }
    let pumping : State := { irq with irqThread := [.pumpRead], agenda := [.call .receive] }
    let dropped : State := { pumping with agenda := [.host .por] }
    may irq ∧ may { irq with thread := [] } ∧ may { irq with thread := [.txStuck] } ∧ ¬ may received ∧ ¬ may { irq with thread := [.rxStart] } ∧
      pumping.fault = none ∧ pumping.irqThread ≠ [] ∧ pumping.agenda = .call .receive :: [] ∧
      dropped.fault = none ∧ dropped.agenda = .host .por :: [] ∧ irq.thread = .txWait :: [] ∧ pumping.HostOk ∧ ∃ t, step pumping = .next t :=
  ⟨by decide, by decide, by decide, by decide, by decide, rfl, by decide, rfl, rfl, rfl, rfl,
    ⟨nofun, by simp [DriverFrame.OfPump], fun _ => ⟨rfl, .inr ⟨_, [], rfl, .inl rfl⟩⟩⟩, _, rfl⟩

theorem witness_DeliveryTakesFlight :
    let w : Pair :=
      { a := onAir, b := listeningDyn, attemptsA := 1, attemptsB := 0
        acks := [{ receiver := .a, attempt := 1, frame := { addr := onAir.txAddrBytes, payload := none } }]
        packets := [{ sender := .a, attempt := 1, frame := frame [] }] }
    (pairStep (.deliver 0) w).any (fun v => v.packets.isEmpty && v.acks.length == 2) = true ∧
      (pairStep (.turn .a .sequencer) w).any (fun v => v.packets.map (·.attempt) == [1, 2] && v.attemptsA == 2) = true ∧
      (pairStep (.answer 0) w).any (fun v => v.acks.isEmpty) = true ∧
      (pairStep (.lose 0) w).any (fun v => v.packets.isEmpty && v.acks == w.acks) = true ∧
      (pairStep (.loseAck 0) w).any (fun v => v.acks.isEmpty && v.packets == w.packets) = true := by decide

end Sys2Proof.Tests
end

section
/-! PROOFS of the statements about the state: the status byte (spec/10_state.md R24) and the effective addresses
(R16, R26, R32). -/
namespace Sys2Proof.Machine

/-! ### The status byte -/

/-- The bank bit in one expression: bank 1 shows on DualBankLegacy only. -/
theorem State.bankBit_eq (s : State) : s.bankBit = (s.cfg.profile == .dualBankLegacy && s.bank) := by
  unfold State.bankBit
  cases s.cfg.profile <;> rfl

theorem State.rxPNo_of_nil {s : State} (h : s.rxf = []) : s.rxPNo = s.cfg.pipeEmptyCode := by
  simp [State.rxPNo, h]

/-- No pipe number is lost in the three bits of the status byte. -/
theorem State.rxPNo_toNat_of_cons {s : State} {e : RxEntry} {rest : List RxEntry} (h : s.rxf = e :: rest) :
    s.rxPNo.toNat = e.pipe.val := by
  have hlt : e.pipe.val < 2 ^ 3 := by omega
  simp only [State.rxPNo, h, BitVec.toNat_ofNat, Nat.mod_eq_of_lt hlt]

/-- Settles O35: each part of the byte by its own law, the bank and the pipe code by their cases. -/
theorem statusLayout : Obligations.StatusLayout := by
  intro s
  refine ⟨?bank, s.status_rxDr, s.status_txDs, s.status_maxRt, ?head, ?empty, s.status_full⟩
  case bank => rw [State.status_bank, State.bankBit_eq]
  case head => exact fun e rest h => by rw [State.status_pipe, State.rxPNo_toNat_of_cons h]
  case empty => exact fun h => by rw [State.status_pipe, State.rxPNo_of_nil h]

/-! ### The address width -/

/-- A field is below two to the number of its bits. -/
theorem fieldOf_lt (m : RegMap) (f : Field) (v : Byte) : fieldOf m f v < 2 ^ sliceWidth (fieldPos m f) :=
  Nat.mod_lt _ (Nat.two_pow_pos _)

/-- R26: in a legal state the code is 1, 2 or 3, so the width is 3 to 5 bytes. -/
theorem State.Inv.aw_bounds {s : State} (h : s.Inv) : 3 ≤ s.aw ∧ s.aw ≤ 5 := by
  have hlt : s.field .aw < 2 ^ 2 := h.params.awBits ▸ fieldOf_lt s.cfg.regMap .aw _
  have hne : s.field .aw ≠ 0 := h.registers.addrWidth
  unfold State.aw awBytes
  omega

/-! ### The effective addresses -/

theorem State.effAddr_zero (s : State) : s.effAddr 0 = (regBytes s.regs (.rxAddr 0)).take s.aw := rfl

theorem State.effAddr_one (s : State) : s.effAddr 1 = (regBytes s.regs (.rxAddr 1)).take s.aw := rfl

/-- R32, least significant byte first: the pipe's own byte stands before the rest of pipe 1's address. -/
theorem State.effAddr_lsbFirst {s : State} {p : Pipe} (hp : 2 ≤ p.val) (ho : s.cfg.addrLsbFirst = true) :
    s.effAddr p = regByte s.regs (.rxAddr p) :: (s.effAddr 1).drop 1 := by
  have h0 : p.val ≠ 0 := by omega
  have h1 : p.val ≠ 1 := by omega
  exact (if_neg h0).trans ((if_neg h1).trans (if_pos ho))

/-- R32, most significant byte first: the pipe's own byte stands after the rest of pipe 1's address. -/
theorem State.effAddr_msbFirst {s : State} {p : Pipe} (hp : 2 ≤ p.val) (ho : s.cfg.addrLsbFirst = false) :
    s.effAddr p = (regBytes s.regs (.rxAddr 1)).take (s.aw - 1) ++ [regByte s.regs (.rxAddr p)] := by
  have h0 : p.val ≠ 0 := by omega
  have h1 : p.val ≠ 1 := by omega
  exact (if_neg h0).trans ((if_neg h1).trans (if_neg (by simp [ho])))

/-- An address register has the bytes of every prefix up to the width in force: five are stored (R31). -/
theorem State.Inv.length_take_addrBytes {s : State} (h : s.Inv) (a : Addr5) {n : Nat} (hn : n ≤ s.aw) :
    ((addrBytes a).take n).length = n := by
  rw [List.length_take, addrBytes_length, Nat.min_eq_left (hn.trans h.aw_bounds.2)]

/-- Most significant byte first, pipe 1 gives all its bytes but the last. -/
theorem State.Inv.length_msbPrefix {s : State} (h : s.Inv) :
    ((regBytes s.regs (.rxAddr 1)).take (s.aw - 1)).length = s.aw - 1 :=
  h.length_take_addrBytes s.regs.rxAddrP1 (Nat.sub_le ..)

/-- Pipes 0 and 1 take the width from five stored bytes; the others trade one byte of pipe 1 for their own. -/
theorem State.Inv.effAddr_length {s : State} (h : s.Inv) (p : Pipe) : (s.effAddr p).length = s.aw := by
  have hone : (s.effAddr 1).length = s.aw := h.length_take_addrBytes s.regs.rxAddrP1 le_rfl
  have hpos : 1 ≤ s.aw := le_trans (by decide) h.aw_bounds.1
  obtain rfl | rfl | hp : p = 0 ∨ p = 1 ∨ 2 ≤ p.val := by revert p; decide
  · exact h.length_take_addrBytes s.regs.rxAddrP0 le_rfl
  · exact hone
  · cases ho : s.cfg.addrLsbFirst with
    | true =>
      rw [State.effAddr_lsbFirst hp ho, List.length_cons, List.length_drop, hone, Nat.sub_add_cancel hpos]
    | false =>
      rw [State.effAddr_msbFirst hp ho, List.length_append, h.length_msbPrefix, List.length_singleton,
        Nat.sub_add_cancel hpos]

/-- R32: away from its own least significant byte, a pipe from 2 on has the bytes of pipe 1. -/
theorem State.Inv.effAddr_shared {s : State} (h : s.Inv) {p : Pipe} {i : Nat} (hp : 2 ≤ p.val) (hi : i < s.aw)
    (hown : i ≠ if s.cfg.addrLsbFirst then 0 else s.aw - 1) :
    (s.effAddr p)[i]? = (s.effAddr 1)[i]? := by
  cases ho : s.cfg.addrLsbFirst with
  | true =>
    obtain ⟨j, rfl⟩ : ∃ j, i = j + 1 := Nat.exists_eq_succ_of_ne_zero (by simpa [ho] using hown)
    rw [State.effAddr_lsbFirst hp ho, List.getElem?_cons_succ, List.getElem?_drop, Nat.add_comm]
  | false =>
    have hlt : i < s.aw - 1 := by
      have hne : i ≠ s.aw - 1 := by simpa [ho] using hown
      omega
    rw [State.effAddr_msbFirst hp ho, State.effAddr_one, List.getElem?_append_left (h.length_msbPrefix.symm ▸ hlt),
      List.getElem?_take_of_lt hlt, List.getElem?_take_of_lt hi]

/-- Settles O36: the widths and the two byte orders by their laws; under the invariant, the lengths and the bytes
shared with pipe 1. -/
theorem effectiveAddresses : Obligations.EffectiveAddresses := by
  refine ⟨fun s => ⟨congrArg awBytes, congrArg awBytes, congrArg awBytes, s.effAddr_zero, s.effAddr_one, rfl,
    fun p hp => ⟨State.effAddr_lsbFirst hp, State.effAddr_msbFirst hp⟩⟩, fun s h => ?_⟩
  obtain ⟨hlo, hhi⟩ := h.aw_bounds
  exact ⟨hlo, hhi, h.length_take_addrBytes s.regs.txAddr le_rfl, fun p =>
    ⟨h.effAddr_length p, fun _ hp hi hown => h.effAddr_shared hp hi hown⟩⟩

end Sys2Proof.Machine
end

section
/-! PROOFS of the statement about the reserved command bytes (spec/30_encoding.md R89). -/
namespace Sys2Proof

/-! ### The rows of the opcode map as ranges of bytes -/

/-- A mask of high bits rounds a byte down to a multiple of its step. -/
theorem and_highMask_toNat (b : Byte) (k : Nat) :
    (b &&& BitVec.allOnes 8 <<< k).toNat = b.toNat / 2 ^ k * 2 ^ k := by
  have hlt : b.toNat / 2 ^ k * 2 ^ k < 2 ^ 8 := (Nat.div_mul_le_self _ _).trans_lt b.isLt
  rw [← BitVec.shiftLeft_ushiftRight, BitVec.toNat_shiftLeft, BitVec.toNat_ushiftRight, Nat.shiftLeft_eq,
    Nat.shiftRight_eq_div_pow, Nat.mod_eq_of_lt hlt]

/-- A row's mask is one of high bits, and its pattern starts a block of that mask. -/
theorem exists_highMask_of_mem {r : OpcodeRow} (h : r ∈ opcodeRows) :
    ∃ k ≤ 5, r.mask = BitVec.allOnes 8 <<< k ∧ 2 ^ k ∣ r.pattern.toNat ∧
      (r.pattern ||| ~~~r.mask).toNat = r.pattern.toNat + 2 ^ k - 1 := by
  revert r
  decide

/-- A row owns the bytes from its pattern to its pattern with every free bit set (R88). -/
theorem OpcodeRow.selects_iff_range {r : OpcodeRow} (h : r ∈ opcodeRows) (b : Byte) :
    r.selects b = true ↔ r.pattern ≤ b ∧ b ≤ r.pattern ||| ~~~r.mask := by
  obtain ⟨k, -, hmask, ⟨m, hm⟩, htop⟩ := exists_highMask_of_mem h
  have hpos : 0 < 2 ^ k := Nat.two_pow_pos k
  rw [OpcodeRow.selects, beq_iff_eq, ← BitVec.toNat_inj, BitVec.le_def, BitVec.le_def, htop, hmask,
    and_highMask_toNat, hm, Nat.mul_comm, Nat.mul_right_inj hpos.ne', Nat.div_eq_iff hpos, Nat.mul_comm m]

theorem commandOf_eq_none_iff (b : Byte) : commandOf b = none ↔ ∀ r ∈ opcodeRows, ¬ r.selects b = true := by
  rw [commandOf, Option.map_eq_none_iff, List.find?_eq_none]

theorem selects_of_commandOf {b : Byte} {c : BusCmd} (h : commandOf b = some c) :
    ∃ r ∈ opcodeRows, r.cmd = c ∧ r.selects b = true := by
  obtain ⟨r, hr, hc⟩ := Option.map_eq_some_iff.mp h
  exact ⟨r, List.mem_of_find?_eq_some hr, hc, List.find?_some (p := fun r : OpcodeRow => r.selects b) hr⟩

theorem pipeField_eq_none_iff (b : Byte) : pipeField b = none ↔ 6 ≤ b.toNat % 8 := by
  simp [pipeField]

/-- The bytes between the rows' ranges (R89). -/
theorem commandOf_eq_none_iff_gap (b : Byte) :
    commandOf b = none ↔ (0x40 ≤ b ∧ b ≤ 0x4F) ∨ (0x51 ≤ b ∧ b ≤ 0x5F) ∨ (0x62 ≤ b ∧ b ≤ 0x9F) ∨
      (0xA1 ≤ b ∧ b ≤ 0xA7) ∨ (0xB1 ≤ b ∧ b ≤ 0xE0) ∨ (0xE3 ≤ b ∧ b ≤ 0xFE) := by
  have hrange : commandOf b = none ↔ ∀ r ∈ opcodeRows, ¬ (r.pattern ≤ b ∧ b ≤ r.pattern ||| ~~~r.mask) := by
    rw [commandOf_eq_none_iff]
    exact forall₂_congr fun r hr => not_congr (r.selects_iff_range hr b)
  rw [hrange]
  simp only [opcodeRows, List.forall_mem_singleton, List.forall_mem_cons, BitVec.ofNat_eq_ofNat,
    BitVec.reduceNot, BitVec.reduceOr]
  bv_omega

/-- Inside the `WACKP` row, the bytes whose pipe number names no pipe (R89). -/
theorem commandOf_eq_wackp_and_pipeField_eq_none_iff (b : Byte) :
    commandOf b = some .wackp ∧ pipeField b = none ↔ b = 0xAE ∨ b = 0xAF := by
  constructor
  · rintro ⟨hcmd, hpipe⟩
    obtain ⟨r, hr, hc, hsel⟩ := selects_of_commandOf hcmd
    have hrow : ∀ q ∈ opcodeRows, q.cmd = .wackp → q = ⟨.wackp, 0xA8, 0xF8⟩ := by decide
    obtain rfl := hrow r hr hc
    obtain ⟨hlo, hhi⟩ := (OpcodeRow.selects_iff_range hr b).mp hsel
    have hlow : 0xA8 ≤ b.toNat := BitVec.le_def.mp hlo
    have hhigh : b.toNat ≤ 0xAF := BitVec.le_def.mp hhi
    rw [pipeField_eq_none_iff] at hpipe
    bv_omega
  · rintro (rfl | rfl) <;> decide

end Sys2Proof

namespace Sys2Proof.Machine

/-! ### Bytes with no command -/

/-- The opcode map gives the byte no command (R89): it selects no row, or the `WACKP` row with a pipe number that
names no pipe. -/
def LacksCommand (b : Byte) : Prop :=
  commandOf b = none ∨ commandOf b = some .wackp ∧ pipeField b = none

theorem lacksCommand_iff_reservedByte (b : Byte) : LacksCommand b ↔ reservedByte b = true := by
  rw [LacksCommand, commandOf_eq_none_iff_gap, commandOf_eq_wackp_and_pipeField_eq_none_iff]
  simp [reservedByte, or_assoc]

theorem decode_bus_eq_error_iff_lacksCommand (b : Byte) (data : List Byte) :
    decode (.bus b data) = .error (.reservedCommand b) ↔ LacksCommand b := by
  unfold decode decodeBus LacksCommand
  cases hc : commandOf b with
  | none => simp [hc]
  | some c =>
    cases c with
    | wackp => cases hp : pipeField b <;> simp [hc, hp]
    | _ => simp [hc]

theorem decode_bus_eq_error_iff_reservedByte (b : Byte) (data : List Byte) :
    decode (.bus b data) = .error (.reservedCommand b) ↔ reservedByte b = true :=
  (decode_bus_eq_error_iff_lacksCommand b data).trans (lacksCommand_iff_reservedByte b)

/-- The list of R89 counted: its six gaps have 16, 15, 62, 7, 48 and 28 bytes; 0xAE and 0xAF are the two others. -/
theorem length_filter_reservedByte :
    ((List.range 256).filter (fun n => reservedByte (BitVec.ofNat 8 n))).length = 178 := by
  rfl

/-- A reserved byte passes the checks that come before decoding, then raises its fault (40 R102). -/
theorem hostFrame_reserved {b : Byte} (h : reservedByte b = true) (data : List Byte) (s : State) :
    hostFrame (.bus b data) s = busAccess (.reserved b) s fun _ => raise (.reservedCommand b) := by
  simp only [hostFrame, (decode_bus_eq_error_iff_reservedByte b data).mpr h, undecoded]

/-- Settles O3: R89's list is what the opcode map leaves over; the fault is the last of the checks of R102. -/
theorem reservedBytesFault : Obligations.ReservedBytesFault :=
  ⟨decode_bus_eq_error_iff_reservedByte, length_filter_reservedByte, fun s _ data hready hb =>
    (hostFrame_reserved hb data s).trans (busAccess_ready hready)⟩

end Sys2Proof.Machine
end

section
/-! PROOFS of the statements about `RREG` and `WREG` (spec/40_register_commands.md). -/
namespace Sys2Proof.Machine

/-! ### Which register an access reaches -/

theorem State.inTuneBank_of_bank0 {s : State} (h : s.bankBit = false) (a : RegAddr) : s.inTuneBank a = false := by
  rw [State.inTuneBank, h, Bool.false_and]

/-- In either bank the address of `STATUS` reaches `STATUS` (R109, R118). -/
theorem State.inTuneBank_status {s : State} {a : RegAddr} (h : regAt s.cfg.regMap a = some .status) :
    s.inTuneBank a = false := by
  simp [State.inTuneBank, h]

/-- The holes lie outside `REG_ADDRS`, so no register map names them (10 R15, R74). -/
theorem regAt_hole (m : RegMap) {a : RegAddr} (h : a ∈ [(0x18 : RegAddr), 0x19, 0x1A, 0x1B, 0x1E, 0x1F]) :
    regAt m a = none := by
  have hout : ∀ a ∈ [(0x18 : RegAddr), 0x19, 0x1A, 0x1B, 0x1E, 0x1F], inRegAddrs a = false := by decide
  rw [regAt, hout a h]
  rfl

/-! ### The commands past their common checks -/

theorem exec_rreg_unnamed {s : State} {a : RegAddr} (hs : s.Ready) (hb : s.inTuneBank a = false)
    (ha : regAt s.cfg.regMap a = none) (n : Nat) : exec (.rreg a n) s = .fault (.unimplementedRegister a) := by
  simp [exec, execRreg, busAccess_ready hs, hb, ha]

theorem exec_rreg_named {s : State} {a : RegAddr} {r : RegName} {n : Nat} (hs : s.Ready)
    (hb : s.inTuneBank a = false) (ha : regAt s.cfg.regMap a = some r) (hn : n ≤ regWidth r) :
    exec (.rreg a n) s = .next (s.sampled.readView r n) := by
  simp [exec, execRreg, busAccess_ready hs, hb, ha, hn]

theorem exec_wreg_unnamed {s : State} {a : RegAddr} (hs : s.Ready) (hb : s.inTuneBank a = false)
    (ha : regAt s.cfg.regMap a = none) (data : List Byte) :
    exec (.wreg a data) s = .fault (.unimplementedRegister a) := by
  simp [exec, execWreg, busAccess_ready hs, hb, ha]

theorem exec_wreg_named {s : State} {a : RegAddr} {r : RegName} {v : Byte} {rest : List Byte} (hs : s.Ready)
    (hb : s.inTuneBank a = false) (ha : regAt s.cfg.regMap a = some r) (hn : (v :: rest).length ≤ regWidth r) :
    exec (.wreg a (v :: rest)) s = writeReg r a v (v :: rest) s.sampled := by
  simp only [exec, execWreg, busAccess_ready hs, State.sampled_inTuneBank, State.sampled_cfg, hb, ha,
    Nat.not_lt.2 hn, if_false, Bool.false_eq_true]

theorem regWidth_pos (r : RegName) : 1 ≤ regWidth r := by
  unfold regWidth
  split
  · split <;> decide
  · decide
  · decide

/-- Every register takes one byte. -/
theorem exec_wreg_byte {s : State} {a : RegAddr} {r : RegName} (hs : s.Ready) (hb : s.inTuneBank a = false)
    (ha : regAt s.cfg.regMap a = some r) (v : Byte) : exec (.wreg a [v]) s = writeReg r a v [v] s.sampled :=
  exec_wreg_named hs hb ha (regWidth_pos r)

/-! ### The holes -/

/-- Settles O10: no register map names a hole, and the name is looked up before the data count. -/
theorem holesFault : Obligations.HolesFault := fun s _ hs hb hole =>
  have hna := regAt_hole s.cfg.regMap hole
  ⟨exec_rreg_unnamed hs (s.inTuneBank_of_bank0 hb _) hna, exec_wreg_unnamed hs (s.inTuneBank_of_bank0 hb _) hna⟩

/-! ### The read views -/

/-- A one-bit field shows its value at its own position. -/
theorem slicePut_bool_getLsbD {k : Nat} (hk : k < 8) (b : Bool) (i : Nat) :
    (slicePut (k, k) b.toNat).getLsbD i = (b && k == i) := by
  have hw : sliceWidth (k, k) = 1 := Nat.add_sub_cancel_left k 1
  cases b with
  | false => simp [slicePut]
  | true =>
    have hone : slicePut (k, k) true.toNat = BitVec.twoPow 8 k :=
      BitVec.eq_of_toNat_eq (by simp [slicePut, hw, Nat.shiftLeft_eq])
    rw [hone, BitVec.getLsbD_twoPow, decide_eq_true hk]
    rfl

/-- R34 under the default map: each flag of `FIFO_STATUS` at its place, 0 elsewhere. -/
theorem State.fifoStatus_getLsbD {s : State} (hm : s.cfg.regMap = defaultRegMap) (i : Nat) :
    s.fifoStatus.getLsbD i =
      (s.txFull && 5 == i || s.txEmpty && 4 == i || s.rxFull && 1 == i || s.rxEmpty && 0 == i) := by
  have htf : fieldPos defaultRegMap .txFull = (5, 5) := by decide
  have hte : fieldPos defaultRegMap .txEmpty = (4, 4) := by decide
  have hrf : fieldPos defaultRegMap .rxFull = (1, 1) := by decide
  have hre : fieldPos defaultRegMap .rxEmpty = (0, 0) := by decide
  simp [State.fifoStatus, fieldPut, hm, htf, hte, hrf, hre, slicePut_bool_getLsbD]

theorem State.readView_feature (s : State) :
    s.readView .feature 1 = s.replyData [if s.featureLocked then 0x00 else s.regs.feature] := by
  cases h : s.featureLocked <;> simp [State.readView, h]

theorem State.readView_dynpd (s : State) :
    s.readView .dynpd 1 = s.replyData [if s.featureLocked then 0x00 else s.regs.dynpd] := by
  cases h : s.featureLocked <;> simp [State.readView, h]

/-- Settles O9: each read goes to its register's view. -/
theorem rregViews : Obligations.RregViews := by
  refine ⟨fun s a hs => ⟨fun ha => ?status, fun hb => ?bank0⟩, fun s hm => ?layout⟩
  case status => exact exec_rreg_named hs (s.inTuneBank_status ha) ha (regWidth_pos _)
  case bank0 =>
    have reads {r : RegName} (ha : regAt s.cfg.regMap a = some r) :
        exec (.rreg a 1) s = .next (s.sampled.readView r 1) :=
      exec_rreg_named hs (s.inTuneBank_of_bank0 hb a) ha (regWidth_pos r)
    exact ⟨reads, fun ha => ha.elim reads reads,
      fun ha => (reads ha).trans (congrArg _ s.sampled.readView_feature),
      fun ha => (reads ha).trans (congrArg _ s.sampled.readView_dynpd)⟩
  case layout =>
    simp only [State.fifoStatus_getLsbD hm]
    simp [State.txFull, State.txEmpty, State.rxFull, State.rxEmpty]

/-! ### Writes that store nothing -/

theorem State.clearEvents_eq (s : State) (v : Byte) :
    s.clearEvents v =
      { s with
        rxDr := if v.getLsbD 6 then false else s.rxDr
        txDs := if v.getLsbD 5 then false else s.txDs
        maxRt := if v.getLsbD 4 then false else s.maxRt } := by
  have hclear (b c : Bool) : (b && !c) = if c then false else b := by cases c <;> simp
  simp only [State.clearEvents, hclear]

/-- Settles O12: `STATUS` is reached in both banks, and the write goes to `clearEvents` with no other check. -/
theorem wregStatusClears : Obligations.WregStatusClears := fun s _ v hs ha =>
  (exec_wreg_byte hs (s.inTuneBank_status ha) ha v).trans (congrArg _ (s.sampled.clearEvents_eq v))

theorem writeReg_readOnly {r : RegName} (h : r ∈ [RegName.fifoStatus, .observeTx, .rpd]) (a : RegAddr) (v : Byte)
    (data : List Byte) (s : State) : writeReg r a v data s = .next s := by
  simp only [List.mem_cons, List.not_mem_nil, or_false] at h
  obtain rfl | rfl | rfl := h <;> rfl

/-- Settles O21: the write passes the common checks and keeps the sampled state. -/
theorem wregReadOnlyIgnored : Obligations.WregReadOnlyIgnored := fun s a _ v hs hb ha hr =>
  (exec_wreg_byte hs (s.inTuneBank_of_bank0 hb a) ha v).trans (writeReg_readOnly hr a v [v] s.sampled)

theorem writeReg_locked (s : State) {r : RegName} (h : r ∈ [RegName.feature, .dynpd])
    (hl : s.featureLocked = true) (a : RegAddr) (v : Byte) (data : List Byte) : writeReg r a v data s = .next s := by
  simp only [List.mem_cons, List.not_mem_nil, or_false] at h
  obtain rfl | rfl := h <;> exact if_pos hl

/-! ### Configuration writes -/

/-- The registers with no write effect of their own, and `FEATURE` and `DYNPD` once unlocked, take the plain
configuration write. -/
theorem writeReg_plain (s : State) {r : RegName} (hr : r ∉ [RegName.status, .config, .fifoStatus, .observeTx, .rpd])
    (hl : r ∈ [RegName.feature, .dynpd] → s.featureLocked = false) (a : RegAddr) (v : Byte) (data : List Byte) :
    writeReg r a v data s = writePlain r a v data s := by
  cases r with
  | status | config | fifoStatus | observeTx | rpd => exact absurd (by decide) hr
  | feature | dynpd => simp [writeReg, hl (by decide)]
  | _ => rfl

/-- In bank 0 the write of at least one byte to such a register is a plain configuration write. -/
theorem exec_wreg_plain {s : State} {a : RegAddr} {r : RegName} {v : Byte} {rest : List Byte} (hs : s.Ready)
    (hb : s.bankBit = false) (ha : regAt s.cfg.regMap a = some r) (hn : (v :: rest).length ≤ regWidth r)
    (hr : r ∉ [RegName.status, .config, .fifoStatus, .observeTx, .rpd])
    (hl : r ∈ [RegName.feature, .dynpd] → s.featureLocked = false) :
    exec (.wreg a (v :: rest)) s = writePlain r a v (v :: rest) s.sampled :=
  (exec_wreg_named hs (s.inTuneBank_of_bank0 hb a) ha hn).trans (writeReg_plain s.sampled hr hl a v _)

theorem writePlain_active (s : State) (h : s.isActive = true) (r : RegName) (a : RegAddr) (v : Byte)
    (data : List Byte) : writePlain r a v data s = .fault (.configWriteWhileActive (.reg a)) :=
  if_pos h

theorem writePlain_illegal (s : State) {r : RegName} {v : Byte} (h : s.isActive = false)
    (hv : illegalValue s.cfg.regMap r (s.masked r v) = true) (a : RegAddr) (data : List Byte) :
    writePlain r a v data s = .fault (.illegalRegisterValue a v) := by
  simp [writePlain, h, hv]

theorem writePlain_legal (s : State) {r : RegName} {v : Byte} (h : s.isActive = false)
    (hv : illegalValue s.cfg.regMap r (s.masked r v) = false) (a : RegAddr) (data : List Byte) :
    writePlain r a v data s = .next (s.storePlain r v data) := by
  simp [writePlain, h, hv]

/-- Settles O20: of the plain write's checks, the one for the active modes is the first. -/
theorem activeConfigWritesFault : Obligations.ActiveConfigWritesFault := by
  intro s a r data hs hb ha hactive hdata hlen hr hl
  obtain ⟨v, rest, rfl⟩ := List.exists_cons_of_ne_nil hdata
  exact (exec_wreg_plain hs hb ha hlen hr hl).trans (writePlain_active s.sampled hactive r a v _)

/-- Settles O19: both are plain registers whose masked value fails the second check. -/
theorem illegalValuesFault : Obligations.IllegalValuesFault := by
  intro s a v hs hb hidle
  have faults {r : RegName} (ha : regAt s.cfg.regMap a = some r)
      (hr : r ∉ [RegName.status, .config, .fifoStatus, .observeTx, .rpd]) (hl : r ∉ [RegName.feature, .dynpd])
      (hv : illegalValue s.cfg.regMap r (s.masked r v) = true) :
      exec (.wreg a [v]) s = .fault (.illegalRegisterValue a v) :=
    (exec_wreg_plain (rest := []) hs hb ha (regWidth_pos r) hr (absurd · hl)).trans
      (writePlain_illegal s.sampled hidle hv a [v])
  exact ⟨fun ha hv => faults ha (by decide) (by decide) (beq_iff_eq.2 hv),
    fun p ha hv => faults ha (by simp) (by simp) (decide_eq_true hv)⟩

/-- Such a write of a legal value, not made in an active mode, reaches the store. -/
theorem exec_wreg_stores {s : State} {a : RegAddr} {r : RegName} {v : Byte} {rest : List Byte} (hs : s.Ready)
    (hb : s.bankBit = false) (ha : regAt s.cfg.regMap a = some r) (hn : (v :: rest).length ≤ regWidth r)
    (hr : r ∉ [RegName.status, .config, .fifoStatus, .observeTx, .rpd])
    (hl : r ∈ [RegName.feature, .dynpd] → s.featureLocked = false) (hidle : s.isActive = false)
    (hv : illegalValue s.cfg.regMap r (s.masked r v) = false) :
    exec (.wreg a (v :: rest)) s = .next (s.sampled.storePlain r v (v :: rest)) :=
  (exec_wreg_plain hs hb ha hn hr hl).trans (writePlain_legal s.sampled hidle hv a _)

/-- A store changes the registers alone. -/
theorem State.storePlain_frame (s : State) (r : RegName) (v : Byte) (data : List Byte) :
    s.storePlain r v data = { s with regs := (s.storePlain r v data).regs } := by
  unfold State.storePlain
  split <;> rfl

/-- Of the stored one-byte registers only `CONFIG` has a write effect of its own. -/
theorem storedByte_plain {r : RegName} (h : r ∈ storedByteRegs) (hc : r ≠ .config) :
    r ∉ [RegName.status, .config, .fifoStatus, .observeTx, .rpd] ∧ regWidth r ≠ 5 := by
  revert r
  decide

/-- R116: the write of a one-byte register that is legal, not locked and not made in an active mode stores the byte
without its reserved bits and changes nothing else. -/
theorem exec_wreg_stores_byte {s : State} {a : RegAddr} {r : RegName} {v : Byte} (hs : s.Ready)
    (hb : s.bankBit = false) (ha : regAt s.cfg.regMap a = some r) (hr : r ∈ storedByteRegs) (hc : r ≠ .config)
    (hl : r ∈ [RegName.feature, .dynpd] → s.featureLocked = false) (hidle : s.isActive = false)
    (hv : illegalValue s.cfg.regMap r (s.masked r v) = false) :
    ∃ t, exec (.wreg a [v]) s = .next t ∧
      t = { s with reply := { status := s.status, data := [] }, regs := t.regs } ∧
      regByte t.regs r = s.masked r v ∧ ∀ q, q ≠ r → regBytes t.regs q = regBytes s.regs q := by
  obtain ⟨hplain, hwidth⟩ := storedByte_plain hr hc
  have hregs : (s.sampled.storePlain r v [v]).regs = setRegByte s.regs r (s.masked r v) := by simp [hwidth]
  refine ⟨_, exec_wreg_stores hs hb ha (regWidth_pos r) hplain hl hidle hv, State.storePlain_frame .., ?_,
    fun q hq => ?_⟩
  · rw [hregs, regByte_setRegByte_same _ _ hr]
  · rw [hregs, regBytes_setRegByte_other _ _ hq]

/-- Settles O16: the plain registers are stored, and the lock covers none of them. -/
theorem wregPlainByte : Obligations.WregPlainByte := by
  intro s a r v hs hb ha hr hidle hv
  have hsort : ∀ r ∈ plainByteRegs, r ∈ storedByteRegs ∧ r ≠ .config ∧ r ∉ [RegName.feature, .dynpd] := by decide
  obtain ⟨hstored, hc, hnl⟩ := hsort r hr
  exact exec_wreg_stores_byte hs hb ha hstored hc (absurd · hnl) hidle hv

theorem illegalValue_lockable {r : RegName} (h : r ∈ [RegName.feature, .dynpd]) (m : RegMap) (v : Byte) :
    illegalValue m r v = false := by
  simp only [List.mem_cons, List.not_mem_nil, or_false] at h
  obtain rfl | rfl := h <;> rfl

/-- Settles O18: locked, the write is dropped before the active modes are looked at; unlocked it is a plain write,
for which no value is illegal. -/
theorem wregFeatureLock : Obligations.WregFeatureLock := by
  intro s a r v hs hb ha hr
  have hsort : ∀ r ∈ [RegName.feature, .dynpd], r ∈ storedByteRegs ∧ r ≠ .config := by decide
  obtain ⟨hstored, hc⟩ := hsort r hr
  refine ⟨fun hl => ?locked, fun hl hactive => ?active, fun hl hidle => ?stored⟩
  case locked =>
    exact (exec_wreg_byte hs (s.inTuneBank_of_bank0 hb a) ha v).trans (writeReg_locked s.sampled hr hl a v [v])
  case active =>
    exact (exec_wreg_plain (rest := []) hs hb ha (regWidth_pos r) (storedByte_plain hstored hc).1 fun _ => hl).trans
      (writePlain_active s.sampled hactive r a v [v])
  case stored =>
    exact exec_wreg_stores_byte hs hb ha hstored hc (fun _ => hl) hidle (illegalValue_lockable hr _ _)

/-! ### The five-byte registers -/

theorem regBytes_setRegBytes_same (x : Regs) {r : RegName} {data : List Byte} (hr : regWidth r = 5)
    (hd : data.length ≤ 5) : regBytes (setRegBytes x r data) r = data ++ (regBytes x r).drop data.length := by
  obtain rfl | rfl | rfl := regWidth_five hr <;> exact addrBytes_addrWrite _ data hd

/-- A five-byte register is a plain one and takes every value. -/
theorem fiveBytes_plain {r : RegName} (h : regWidth r = 5) :
    r ∉ [RegName.status, .config, .fifoStatus, .observeTx, .rpd] ∧ r ∉ [RegName.feature, .dynpd] ∧
      ∀ m v, illegalValue m r v = false := by
  obtain rfl | rfl | rfl := regWidth_five h <;> exact ⟨by decide, by decide, fun _ _ => rfl⟩

/-- Settles O17: a plain write that no check stops, stored by `setRegBytes`. -/
theorem wregFiveBytes : Obligations.WregFiveBytes := by
  intro s a r data hs hb ha hr hidle hdata hlen
  obtain ⟨v, rest, rfl⟩ := List.exists_cons_of_ne_nil hdata
  obtain ⟨hplain, hnl, hlegal⟩ := fiveBytes_plain hr
  have hregs : (s.sampled.storePlain r v (v :: rest)).regs = setRegBytes s.regs r (v :: rest) := by simp [hr]
  refine ⟨_, exec_wreg_stores hs hb ha (hr ▸ hlen) hplain (absurd · hnl) hidle (hlegal _ _),
    State.storePlain_frame .., ?_, fun q hq => ?_⟩
  · rw [hregs, regBytes_setRegBytes_same s.regs hr hlen]
  · rw [hregs, regBytes_setRegBytes_other _ _ hq]

end Sys2Proof.Machine
end

section
/-! PROOFS of the statements about the FIFO commands, the special commands and the data counts
(spec/41_fifo_commands.md; for the counts of `RREG` and `WREG` 40_register_commands.md R103). -/
namespace Sys2Proof.Machine

/-! ### The count check of a bus command -/

theorem busCommand_of_countOk {c : BusCmd} {n : Nat} {ok : Bool} {s : State} {k : State → Outcome} (hs : s.Ready)
    (hok : ok = true) : busCommand c n ok s k = k s.sampled := by
  rw [hok, busCommand_ready hs]

theorem busCommand_of_not_countOk {c : BusCmd} {n : Nat} {ok : Bool} {s : State} {k : State → Outcome}
    (hs : s.Ready) (hok : ok = false) : busCommand c n ok s k = .fault (.badTransactionLength c n) := by
  rw [hok, busCommand_badCount hs]

theorem exec_rreg_badCount {s : State} {a : RegAddr} {r : RegName} {n : Nat} (hs : s.Ready)
    (hb : s.inTuneBank a = false) (ha : regAt s.cfg.regMap a = some r) (hn : regWidth r < n) :
    exec (.rreg a n) s = .fault (.badTransactionLength .rreg n) := by
  simp [exec, execRreg, busAccess_ready hs, hb, ha, hn]

theorem exec_wreg_badCount {s : State} {a : RegAddr} {r : RegName} {data : List Byte} (hs : s.Ready)
    (hb : s.inTuneBank a = false) (ha : regAt s.cfg.regMap a = some r) (hn : regWidth r < data.length) :
    exec (.wreg a data) s = .fault (.badTransactionLength .wreg data.length) := by
  simp [exec, execWreg, busAccess_ready hs, hb, ha, hn]

/-- R137: the three payload writes share one count check. -/
theorem writePayload_badCount {s : State} {data : List Byte} (hs : s.Ready) (hn : maxPayload < data.length)
    (c : BusCmd) (kind : EntryKind) (ackReq : Bool) :
    writePayload c kind ackReq data s = .fault (.badTransactionLength c data.length) :=
  busCommand_of_not_countOk hs (decide_eq_false hn.not_ge)

/-- Settles O30: each command's own count check, which comes before anything else the command does. -/
theorem dataCountsFault : Obligations.DataCountsFault := by
  intro s hs
  refine ⟨fun a r hb ha => ?registers, fun n hn => ?rrxp, fun data hn => ?payloads, fun n hn => ?rplw,
    fun data hn => ?act, fun n hn => ?noData⟩
  case registers => exact ⟨fun n => exec_rreg_badCount hs hb ha, fun data => exec_wreg_badCount hs hb ha⟩
  case rrxp => rw [exec, execRrxp, busCommand_of_not_countOk hs (decide_eq_false hn.not_ge)]
  case payloads =>
    exact ⟨writePayload_badCount hs hn .., writePayload_badCount hs hn .., fun p => writePayload_badCount hs hn ..⟩
  case rplw => rw [exec, execRplw, busCommand_of_not_countOk hs (beq_false_of_ne hn)]
  case act => rw [exec, execAct, busCommand_of_not_countOk hs (beq_false_of_ne hn)]
  case noData =>
    have hcount : (n == 0) = false := beq_false_of_ne hn
    simp only [exec, execFltx, execFlrx, execNop, busCommand_of_not_countOk hs hcount, and_self]

/-! ### Reading the RX FIFO -/

theorem State.replyDrawn_eq (s : State) (n : Nat) :
    s.replyDrawn n = { s with reply := { s.reply with data := s.drawnBytes n }, draws := s.draws + n } := rfl

theorem State.drawnBytes_one (s : State) : s.drawnBytes 1 = [Config.drawByte s.draws] := rfl

theorem State.readPayload_of_nil {s : State} (h : s.rxf = []) (n : Nat) : s.readPayload n = s.replyDrawn n := by
  simp [State.readPayload, State.replyDrawn, h]

theorem State.readPayload_of_cons {s : State} {e : RxEntry} {rest : List RxEntry} (h : s.rxf = e :: rest)
    (n : Nat) :
    s.readPayload n =
      { ((s.replyData (s.payloadBytes e.bytes n)).drew (n - e.bytes.length)) with rxf := rest } := by
  simp [State.readPayload, h]

theorem State.readWidth_of_nil {s : State} (h : s.rxf = []) : s.readWidth = s.replyDrawn 1 := by
  simp [State.readWidth, State.replyDrawn, h]

theorem State.readWidth_of_cons {s : State} {e : RxEntry} {rest : List RxEntry} (h : s.rxf = e :: rest) :
    s.readWidth = s.replyData [e.wid] := by
  simp [State.readWidth, h]

theorem exec_rrxp {s : State} {n : Nat} (hs : s.Ready) (hn : n ≤ maxPayload) :
    exec (.rrxp n) s = .next (s.sampled.readPayload n) := by
  rw [exec, execRrxp, busCommand_of_countOk hs (decide_eq_true hn)]

theorem exec_rplw {s : State} (hs : s.Ready) : exec (.rplw 1) s = .next s.sampled.readWidth := by
  rw [exec, execRplw, busCommand_of_countOk hs (beq_self_eq_true _)]

theorem exec_flrx {s : State} (hs : s.Ready) : exec (.flrx 0) s = .next { s.sampled with rxf := [] } := by
  rw [exec, execFlrx, busCommand_of_countOk hs (beq_self_eq_true _)]

/-- Settles O22: the two cases of the RX FIFO, for every count that passes the check. -/
theorem rrxpReadsAndPops : Obligations.RrxpReadsAndPops := by
  intro s n hs hn
  refine ⟨fun e rest h => ?head, fun h => ?empty⟩
  case head => simp [exec_rrxp hs hn, State.readPayload_of_cons (s := s.sampled) h, State.payloadBytes]
  case empty => simp [exec_rrxp hs hn, State.readPayload_of_nil (s := s.sampled) h, State.replyDrawn_eq]

/-- Settles O23: the two cases of the RX FIFO. -/
theorem rplwReadsWidth : Obligations.RplwReadsWidth := by
  intro s hs
  refine ⟨fun e rest h => ?head, fun h => ?empty⟩
  case head => rw [exec_rplw hs, State.readWidth_of_cons (s := s.sampled) h]; rfl
  case empty =>
    simp [exec_rplw hs, State.readWidth_of_nil (s := s.sampled) h, State.replyDrawn_eq, State.drawnBytes_one]

/-- Settles O24: the status byte of the state it leaves is that of an empty RX FIFO. -/
theorem flrxEmpties : Obligations.FlrxEmpties := fun _ hs =>
  ⟨_, exec_flrx hs, rfl, (State.status_pipe _).trans (State.rxPNo_of_nil rfl), rfl⟩

/-! ### Writing the TX FIFO -/

theorem State.txFull_iff (s : State) : s.txFull = true ↔ s.txf.length = 3 := beq_iff_eq

/-- R137: a full TX FIFO stops every payload write. -/
theorem writePayload_full {s : State} {data : List Byte} (hs : s.Ready) (hn : data.length ≤ maxPayload)
    (hf : s.txf.length = 3) (c : BusCmd) (kind : EntryKind) (ackReq : Bool) :
    writePayload c kind ackReq data s = .fault .txFifoOverflow :=
  (busCommand_of_countOk hs (decide_eq_true hn)).trans (if_pos (s.txFull_iff.2 hf))

/-- R134 to R136, for the three payload writes. -/
theorem writePayload_room {s : State} {data : List Byte} (hs : s.Ready) (hn : data.length ≤ maxPayload)
    (hf : s.txf.length ≠ 3) (c : BusCmd) (kind : EntryKind) (ackReq : Bool) :
    writePayload c kind ackReq data s = .next (s.sampled.pushTx kind data ackReq) :=
  (busCommand_of_countOk hs (decide_eq_true hn)).trans (if_neg (mt s.txFull_iff.1 hf))

/-- Settles O25: past the count check only a full TX FIFO stops the push of the entry. -/
theorem payloadWritesAppend : Obligations.PayloadWritesAppend := fun _ _ hs hn =>
  ⟨fun hf => ⟨writePayload_full hs hn hf .., writePayload_full hs hn hf ..⟩,
    fun hf => ⟨writePayload_room hs hn hf .., writePayload_room hs hn hf ..⟩⟩

/-! ### Status probes -/

theorem exec_nop {s : State} (hs : s.Ready) : exec (.nop 0) s = .next s.sampled := by
  rw [exec, execNop, busCommand_of_countOk hs (beq_self_eq_true _)]

/-- R100: whatever the register's view, no bytes of it are the empty reply, and no free value is taken. -/
theorem State.readView_zero (s : State) (r : RegName) : s.readView r 0 = s.replyData [] := by
  unfold State.readView
  split <;> rfl

theorem exec_rreg_noBytes {s : State} {a : RegAddr} {r : RegName} (hs : s.Ready) (hb : s.inTuneBank a = false)
    (ha : regAt s.cfg.regMap a = some r) : exec (.rreg a 0) s = .next s.sampled :=
  (exec_rreg_named hs hb ha (Nat.zero_le _)).trans (congrArg _ (s.sampled.readView_zero r))

theorem exec_wreg_noBytes {s : State} {a : RegAddr} {r : RegName} (hs : s.Ready) (hb : s.inTuneBank a = false)
    (ha : regAt s.cfg.regMap a = some r) : exec (.wreg a []) s = .next s.sampled := by
  simp [exec, execWreg, busAccess_ready hs, hb, ha]

/-- Settles O29: all three leave the sampled state. -/
theorem nopProbes : Obligations.NopProbes := fun _ hs =>
  ⟨exec_nop hs, fun _ _ hb ha =>
    ⟨(exec_rreg_noBytes hs hb ha).trans (exec_nop hs).symm,
      (exec_wreg_noBytes hs hb ha).trans (exec_nop hs).symm⟩⟩

end Sys2Proof.Machine
end

section
/-! PROOFS of the statement about the acknowledgment that ends a burst (spec/43_sequencer.md R184, R185). -/
namespace Sys2Proof.Machine

/-! ### The conditions of the rules -/

theorem State.running_of_settled {s : State} (hp : s.bit .pwrUp = true) (hs : s.settleUs = 0) :
    s.running = true := by
  simp [State.running, hp, hs]

theorem State.ackAdmissible_iff (s : State) :
    s.ackAdmissible = true ↔ s.effAddr 0 = s.txAddrBytes ∧ s.bit (.erx 0) = true := by
  simp [State.ackAdmissible]

theorem State.ackpayOn_iff (s : State) :
    s.ackpayOn = true ↔ s.featureLocked = false ∧ s.bit .enAckPay = true ∧ s.bit .enDpl = true := by
  simp [State.ackpayOn, and_assoc]

theorem State.rxFull_iff (s : State) : s.rxFull = true ↔ s.rxf.length = 3 := beq_iff_eq

theorem payloadOk_iff (payload : Option (List Byte)) :
    payloadOk payload = true ↔ ∀ bytes, payload = some bytes → bytes.length ≤ 32 := by
  cases payload <;> simp [payloadOk]

theorem TxEntry.isData_iff (e : TxEntry) : e.isData = true ↔ e.kind = .data := beq_iff_eq

/-! ### What an `Ack` does -/

theorem State.ackStep_of_not_awaitAck {s : State} (h : ∀ n, s.seq ≠ .awaitAck n) (payload : Option (List Byte)) :
    s.ackStep payload = s := by
  unfold State.ackStep
  split
  · exact absurd ‹_› (h _)
  · rfl
  · rfl

/-- An `Ack` that is awaited by a powered and settled block is taken exactly when it can be recognised. -/
theorem State.ackStep_of_awaitAck {s : State} {n : Nat} {payload : Option (List Byte)} (hseq : s.seq = .awaitAck n)
    (hrun : s.running = true) (hpay : payloadOk payload = true) :
    s.ackStep payload = if s.ackAdmissible then s.completeBurst.takeAckPayload payload else s := by
  simp [State.ackStep, hseq, hrun, hpay]

/-- The entry that leaves is the first data entry (R179). -/
theorem State.completeBurst_of_cur {s : State} {before after : List TxEntry} {e : TxEntry}
    (htxf : s.txf = before ++ e :: after) (hb : ∀ f ∈ before, f.kind ≠ .data) (he : e.kind = .data) :
    s.completeBurst = { s with txf := before ++ after, txDs := true, seq := .idle, retry := 0 } := by
  have hbefore : ∀ f ∈ before, f.isData = false := fun f hf => beq_false_of_ne (hb f hf)
  have hgone : s.txf.eraseP TxEntry.isData = before ++ after :=
    htxf ▸ (find_eraseP_append TxEntry.isData hbefore (e.isData_iff.2 he)).2
  simp only [State.completeBurst, State.removeCur, hgone]

theorem State.takeAckPayload_stores {s : State} (hon : s.ackpayOn = true) (hroom : s.rxf.length ≠ 3)
    (bytes : List Byte) : s.takeAckPayload (some bytes) = s.pushRx (rxEntry 0 bytes) := by
  simp [State.takeAckPayload, hon, mt s.rxFull_iff.1 hroom]

theorem State.takeAckPayload_drops {s : State} {payload : Option (List Byte)}
    (h : payload = none ∨ ¬ s.ackpayOn = true ∨ s.rxf.length = 3) : s.takeAckPayload payload = s := by
  cases payload with
  | none => rfl
  | some bytes =>
    obtain hoff | hfull := h.resolve_left (Option.some_ne_none bytes)
    · simp [State.takeAckPayload, hoff]
    · simp [State.takeAckPayload, s.rxFull_iff.2 hfull]

/-- Settles O44: an awaited `Ack` is taken exactly when it is admissible; the completed burst keeps the features and
the RX FIFO, which decide about the payload. -/
theorem ackArrivedCompletes : Obligations.AckArrivedCompletes := by
  refine ⟨fun s payload h => State.ackStep_of_not_awaitAck h payload, ?_⟩
  intro s n before after e payload hseq hp hs htxf hb he hlen
  have hack := State.ackStep_of_awaitAck hseq (State.running_of_settled hp hs) ((payloadOk_iff payload).2 hlen)
  have hdone := State.completeBurst_of_cur htxf hb he
  refine ⟨fun hno => ?unheard, fun hadm => ⟨fun bytes hsome hon hroom => ?stored, fun hno => ?dropped⟩⟩
  case unheard => rw [hack, if_neg (mt s.ackAdmissible_iff.1 hno)]
  case stored =>
    rw [hack, if_pos (s.ackAdmissible_iff.2 hadm), hsome,
      State.takeAckPayload_stores (s := s.completeBurst) (s.ackpayOn_iff.2 hon) hroom, hdone]
    rfl
  case dropped =>
    rw [← s.ackpayOn_iff] at hno
    rw [hack, if_pos (s.ackAdmissible_iff.2 hadm), State.takeAckPayload_drops (s := s.completeBurst) hno, hdone]

end Sys2Proof.Machine
end

section
/-! PROOFS of the statements about the mode and the host events (spec/42_mode_state_machine.md). -/
namespace Sys2Proof.Machine

/-! ### The four modes -/

theorem State.mode_of_unpowered {s : State} (hp : s.bit .pwrUp = false) : s.mode = .powerDown := by
  simp [State.mode, hp]

theorem State.mode_of_burst {s : State} (hp : s.bit .pwrUp = true) (hseq : s.seq ≠ .idle) :
    s.mode = .activeTransmit := by
  simp [State.mode, hp, hseq]

theorem State.mode_of_listening {s : State} (hp : s.bit .pwrUp = true) (hseq : s.seq = .idle)
    (hrx : s.bit .primRx = true) (hce : s.ce = true) : s.mode = .activeReceive := by
  simp [State.mode, hp, hseq, hrx, hce]

theorem State.mode_of_resting {s : State} (hp : s.bit .pwrUp = true) (hseq : s.seq = .idle)
    (hrest : s.ce = false ∨ s.bit .primRx = false) : s.mode = .standby := by
  obtain h | h := hrest <;> simp [State.mode, hp, hseq, h]

/-- Settles O37: the four conditions exclude each other and leave no case over, and each gives its mode. -/
theorem modeIsFunctionOfState : Obligations.ModeIsFunctionOfState := by
  intro s
  cases hp : s.bit .pwrUp with
  | false => simp [State.mode_of_unpowered hp]
  | true =>
    by_cases hseq : s.seq = .idle
    · cases hrx : s.bit .primRx with
      | false => simp [State.mode_of_resting hp hseq (.inr hrx), hseq]
      | true =>
        cases hce : s.ce with
        | false => simp [State.mode_of_resting hp hseq (.inl hce), hseq]
        | true => simp [State.mode_of_listening hp hseq hrx hce, hseq]
    · simp [State.mode_of_burst hp hseq, hseq]

/-! ### The pin -/

theorem exec_ceh_high {s : State} (hf : s.fault = none) (hce : s.ce = true) : exec .ceh s = .next s := by
  simp [exec, execCeh, unlessFaulted_eq hf, hce]

theorem exec_ceh_unpowered {s : State} (hf : s.fault = none) (hce : s.ce = false) (hp : s.bit .pwrUp = false) :
    exec .ceh s = .fault .ceInPowerDown := by
  simp [exec, execCeh, unlessFaulted_eq hf, hce, hp]

theorem exec_ceh_settling {s : State} (hf : s.fault = none) (hce : s.ce = false) (hp : s.bit .pwrUp = true)
    (hs : 0 < s.settleUs) : exec .ceh s = .fault (.accessDuringSettling .ceh) := by
  simp [exec, execCeh, unlessFaulted_eq hf, hce, hp, hs]

theorem exec_ceh_raises {s : State} (hf : s.fault = none) (hce : s.ce = false) (hp : s.bit .pwrUp = true)
    (hs : s.settleUs = 0) : exec .ceh s = .next { s with ce := true, ceHighUs := 0, pulseUsed := false } := by
  simp [exec, execCeh, unlessFaulted_eq hf, hce, hp, hs]

/-- Settles O31: the checks of `CEH` in their order; a pin raised in the receive direction listens. -/
theorem cehRaisesPin : Obligations.CehRaisesPin := fun _ hf =>
  ⟨exec_ceh_high hf, exec_ceh_unpowered hf, exec_ceh_settling hf, fun hce hp hs =>
    ⟨_, exec_ceh_raises hf hce hp hs, rfl, fun hrx hseq => State.mode_of_listening hp hseq hrx rfl⟩⟩

theorem State.endsPulse_iff (s : State) :
    s.endsPulse = true ↔ s.bit .pwrUp = true ∧ s.bit .primRx = false ∧ s.settleUs = 0 ∧ s.seq = .idle ∧
      s.pulseUsed = false ∧ s.maxRt = false ∧ ∃ e ∈ s.txf, e.kind = .data := by
  simp [State.endsPulse, State.sendable, TxEntry.isData_iff, and_assoc]

theorem exec_cel_low {s : State} (hf : s.fault = none) (hce : s.ce = false) : exec .cel s = .next s := by
  simp [exec, execCel, unlessFaulted_eq hf, hce]

theorem exec_cel_shortPulse {s : State} (hf : s.fault = none) (hce : s.ce = true) (hpulse : s.endsPulse = true)
    (hus : s.ceHighUs < s.cfg.tCePulse) : exec .cel s = .fault (.shortCePulse s.ceHighUs) := by
  simp [exec, execCel, unlessFaulted_eq hf, hce, hpulse, hus]

theorem exec_cel_latches {s : State} (hf : s.fault = none) (hce : s.ce = true) (hpulse : s.endsPulse = true)
    (hus : s.cfg.tCePulse ≤ s.ceHighUs) : exec .cel s = .next { s with txTrigger := true, ce := false } := by
  simp [exec, execCel, unlessFaulted_eq hf, hce, hpulse, Nat.not_lt.2 hus]

theorem exec_cel_lowers {s : State} (hf : s.fault = none) (hce : s.ce = true) (hpulse : ¬ s.endsPulse = true) :
    exec .cel s = .next { s with ce := false } := by
  simp [exec, execCel, unlessFaulted_eq hf, hce, hpulse]

/-- Settles O32: what counts is whether the pin is high, whether it ends an unused pulse, and that pulse's length. -/
theorem celLowersPin : Obligations.CelLowersPin := fun s hf =>
  ⟨exec_cel_low hf, fun hce hpulse => exec_cel_shortPulse hf hce (s.endsPulse_iff.2 hpulse),
    fun hce hpulse => exec_cel_latches hf hce (s.endsPulse_iff.2 hpulse),
    fun hce hpulse => exec_cel_lowers hf hce (mt s.endsPulse_iff.1 hpulse)⟩

/-! ### Time -/

/-- R156: what a delay does to the two counters. -/
def State.delayed (s : State) (us : Nat) : State :=
  { s with settleUs := s.settleUs - us, ceHighUs := if s.ce then s.ceHighUs + us else s.ceHighUs }

theorem State.delayed_zero (s : State) : s.delayed 0 = s := by
  simp [State.delayed]

theorem State.delayed_delayed (s : State) (m n : Nat) : (s.delayed m).delayed n = s.delayed (m + n) := by
  cases hce : s.ce <;> simp [State.delayed, hce, Nat.sub_sub, Nat.add_assoc]

theorem exec_delay {s : State} (hf : s.fault = none) (us : Nat) : exec (.delay us) s = .next (s.delayed us) := by
  rw [exec, execDelay, unlessFaulted_eq hf, State.delayed]

/-- Settles O33: delays compose, since both counters do and the pin stays. -/
theorem delayCounts : Obligations.DelayCounts := by
  refine fun s hf => ⟨exec_delay hf, ?zero, fun m n t ht => ?sum⟩
  case zero => rw [exec_delay hf, State.delayed_zero]
  case sum =>
    obtain rfl : t = s.delayed m := (execDelay_next ht).2
    rw [exec_delay hf, exec_delay (s := s.delayed m) hf, State.delayed_delayed]

/-! ### Writes of `CONFIG` -/

/-- R111: in bank 0 a write of `CONFIG` goes to its direction and power checks. -/
theorem exec_wreg_config {s : State} {a : RegAddr} (hs : s.Ready) (hb : s.bankBit = false)
    (ha : regAt s.cfg.regMap a = some .config) (v : Byte) : exec (.wreg a [v]) s = writeConfig v s.sampled :=
  exec_wreg_byte hs (s.inTuneBank_of_bank0 hb a) ha v

/-- R154: the write turns the direction at a moment when it may not. -/
def State.TurnsWhileBusy (s : State) (v : Byte) : Prop :=
  bitOf s.cfg.regMap .primRx (s.masked .config v) ≠ s.bit .primRx ∧
    (s.ce = true ∨ s.seq ≠ .idle ∨ s.txTrigger = true)

theorem writeConfig_turnsWhileBusy {s : State} {v : Byte} (h : s.TurnsWhileBusy v) :
    writeConfig v s = .fault .modeBypass :=
  if_pos h

theorem writeConfig_powerUp {s : State} {v : Byte} (h : ¬ s.TurnsWhileBusy v) (hold : s.bit .pwrUp = false)
    (hnew : bitOf s.cfg.regMap .pwrUp (s.masked .config v) = true) :
    writeConfig v s =
      if s.ce then .fault .ceInPowerDown else .next (s.powerUpEffect.storeConfig (s.masked .config v)) := by
  have hold' : bitOf s.cfg.regMap .pwrUp s.regs.config = false := hold
  refine (if_neg h).trans ?_
  simp [hold', hnew]

theorem writeConfig_samePower {s : State} {v : Byte} (h : ¬ s.TurnsWhileBusy v)
    (hsame : bitOf s.cfg.regMap .pwrUp (s.masked .config v) = s.bit .pwrUp) :
    writeConfig v s = .next (s.storeConfig (s.masked .config v)) := by
  have hsame' : bitOf s.cfg.regMap .pwrUp (s.masked .config v) = bitOf s.cfg.regMap .pwrUp s.regs.config := hsame
  refine (if_neg h).trans ?_
  simp [hsame']

/-- Settles O13: the direction check is the first; past it, a write that keeps the power bit is a plain store. -/
theorem wregConfigDirection : Obligations.WregConfigDirection := fun s _ v hs hb ha =>
  have hexec := exec_wreg_config hs hb ha v
  ⟨fun hturns hbusy => hexec.trans (writeConfig_turnsWhileBusy (s := s.sampled) ⟨hturns, hbusy⟩),
    fun hcalm hsame => hexec.trans (writeConfig_samePower (s := s.sampled) hcalm hsame)⟩

theorem busCommand_settling {c : BusCmd} {n : Nat} {ok : Bool} {s : State} {k : State → Outcome}
    (hf : s.fault = none) (hs : 0 < s.settleUs) :
    busCommand c n ok s k = .fault (.accessDuringSettling (.bus c)) :=
  busAccess_settling hf hs

theorem writePayload_settling {s : State} (hf : s.fault = none) (hs : 0 < s.settleUs) (c : BusCmd)
    (kind : EntryKind) (ackReq : Bool) (data : List Byte) :
    writePayload c kind ackReq data s = .fault (.accessDuringSettling (.bus c)) :=
  busCommand_settling hf hs

/-- R102: no bus command is admitted while the block settles, whatever its operands. -/
theorem exec_bus_settling {s : State} {i : Instr} {c : BusCmd} (hf : s.fault = none) (hs : 0 < s.settleUs)
    (hi : busCmdOf i = some c) : exec i s = .fault (.accessDuringSettling (.bus c)) := by
  cases i with
  | cel | ceh | delay | por => cases hi
  | rreg | wreg => cases hi; rw [exec]; exact busAccess_settling hf hs
  | wtxp | wackp | wtxpna => cases hi; rw [exec]; exact writePayload_settling hf hs ..
  | _ => cases hi; rw [exec]; exact busCommand_settling hf hs

/-- Settles O14: past the direction check the pin decides; the block that comes up settles for `T_PWRUP` less the
delay that has passed, powered and with its pin low. -/
theorem wregConfigPowerUp : Obligations.WregConfigPowerUp := by
  intro s a v hs hb ha new turns busy hold hnew hcalm
  have hexec : exec (.wreg a [v]) s =
      if s.ce then .fault .ceInPowerDown else .next (s.sampled.powerUpEffect.storeConfig new) :=
    (exec_wreg_config hs hb ha v).trans (writeConfig_powerUp (s := s.sampled) hcalm hold hnew)
  refine ⟨fun hce => hexec.trans (if_pos hce), fun hce => ?low⟩
  refine ⟨_, hexec.trans (if_neg (by simp [hce])), rfl, fun us u hus hu => ?settling,
    _, exec_delay (s := s.sampled.powerUpEffect.storeConfig new) hs.unfaulted _, ?settled⟩
  case settling =>
    obtain ⟨-, rfl⟩ := execDelay_next hu
    have hleft : 0 < s.cfg.tPwrup - us := Nat.sub_pos_of_lt hus
    exact ⟨exec_ceh_settling hs.unfaulted hce hnew hleft, fun i c => exec_bus_settling hs.unfaulted hleft⟩
  case settled => exact Nat.sub_self _

end Sys2Proof.Machine
end

section
/-! PROOFS of the statement about the ways out of ActiveTransmit (spec/42_mode_state_machine.md R162, R163). -/
namespace Sys2Proof.Machine

/-! ### A block in ActiveTransmit -/

/-- What of the invariant the ways out rest on: a burst runs on a powered block in the transmit direction (R150,
43 R178), and the reset registers leave the block unpowered (10 R60). -/
structure State.Transmitting (s : State) : Prop where
  powered  : s.bit .pwrUp = true
  transmit : s.bit .primRx = false
  busy     : s.seq ≠ .idle
  resetOff : bitOf s.cfg.regMap .pwrUp s.cfg.resetVals.config = false

theorem State.Inv.transmitting {s : State} (h : s.Inv) (hm : s.mode = .activeTransmit) : s.Transmitting := by
  obtain ⟨hp, hseq⟩ := (modeIsFunctionOfState s).2.1.1 hm
  refine ⟨hp, ?_, hseq, h.params.resetOff⟩
  have hphase := h.phase
  unfold State.PhaseOk at hphase
  split at hphase
  · exact absurd ‹_› hseq
  · exact hphase.transmit
  · exact hphase.transmit

theorem State.Transmitting.congr {s u : State} (h : s.Transmitting) (hu : SameChip s u) : u.Transmitting :=
  ⟨(hu.bit _).trans h.powered, (hu.bit _).trans h.transmit, hu.seq ▸ h.busy, hu.cfg ▸ h.resetOff⟩

theorem State.Transmitting.mode {s : State} (h : s.Transmitting) : s.mode = .activeTransmit :=
  State.mode_of_burst h.powered h.busy

theorem State.Transmitting.isActive {s : State} (h : s.Transmitting) : s.isActive = true := by
  simp [State.isActive, h.mode]

theorem State.Transmitting.not_receiving {s : State} (h : s.Transmitting) : s.receiving = false := by
  simp [State.receiving, h.mode]

/-- A burst still in progress on a block that has kept its power. -/
theorem State.Transmitting.stays {s t : State} (h : s.Transmitting) (hp : t.bit .pwrUp = s.bit .pwrUp)
    (hseq : t.seq ≠ .idle) : t.mode = .activeTransmit :=
  State.mode_of_burst (hp.trans h.powered) hseq

/-- A burst that is over on a block that has kept power and direction. -/
theorem State.Transmitting.standby {s t : State} (h : s.Transmitting) (hp : t.bit .pwrUp = s.bit .pwrUp)
    (hrx : t.bit .primRx = s.bit .primRx) (hseq : t.seq = .idle) : t.mode = .standby :=
  State.mode_of_resting (hp.trans h.powered) hseq (.inr (hrx.trans h.transmit))

/-! ### The ways out -/

/-- The state `t` is left by one of the five ways out of the burst of `s` (R162, R163). -/
def LeavesTransmit (s t : State) : Prop :=
  let events := t.rxDr = s.rxDr ∧ t.txDs = s.txDs ∧ t.maxRt = s.maxRt
  t.seq = .idle ∧ t.retry = 0 ∧
  (t.mode = .standby ∧
      (t.txDs = true ∧ t.maxRt = s.maxRt ∧ t.txf = s.txf.eraseP TxEntry.isData ∨
       t.maxRt = true ∧ t.txDs = s.txDs ∧ t.rxDr = s.rxDr ∧ t.txf = s.txf ∨
       t.txf = [] ∧ events) ∨
   t.mode = .powerDown ∧
      (t.txf = s.txf ∧ events ∨
       t.regs = s.cfg.resetVals ∧ t.txf = [] ∧ t.rxDr = false ∧ t.txDs = false ∧ t.maxRt = false))

theorem LeavesTransmit.congr {s u v t : State} (hu : SameChip s u) (hv : SameChip v t) (h : LeavesTransmit u v) :
    LeavesTransmit s t := by
  simpa only [LeavesTransmit, hu.cfg, hu.rxDr, hu.txDs, hu.maxRt, hu.txf, hv.regs, hv.rxDr, hv.txDs, hv.maxRt,
    hv.txf, hv.seq, hv.retry, hv.mode] using h

/-- In ActiveTransmit a step goes on with the burst or takes one of the ways out. -/
def StaysOrLeaves (s t : State) : Prop := t.mode = .activeTransmit ∨ LeavesTransmit s t

theorem StaysOrLeaves.congr {s u v t : State} (hu : SameChip s u) (hv : SameChip v t) (h : StaysOrLeaves u v) :
    StaysOrLeaves s t :=
  h.imp (hv.mode.trans ·) (.congr hu hv)

/-! ### The instructions -/

theorem sameChip_sampled (s : State) : SameChip s s.sampled := by constructor <;> rfl

theorem State.storeConfig_pwrUp (s : State) (new : Byte) :
    (s.storeConfig new).bit .pwrUp = bitOf s.cfg.regMap .pwrUp new := rfl

/-- Of the writes of `CONFIG`, one that clears the power bit aborts the burst (R153). -/
theorem State.Transmitting.after_writeConfig {s t : State} (h : s.Transmitting) {v : Byte}
    (hw : writeConfig v s = .next t) : StaysOrLeaves s t := by
  have hold : bitOf s.cfg.regMap .pwrUp s.regs.config = true := h.powered
  obtain ⟨hoff, -⟩ | ⟨-, hnew, rfl⟩ | ⟨hsame, rfl⟩ := (writeConfig_next hw).2
  · exact absurd (hold.symm.trans hoff) (by decide)
  · refine .inr ⟨by simp, by simp [h.busy], .inr ⟨State.mode_of_unpowered ?_, .inl (by simp)⟩⟩
    rw [State.storeConfig_pwrUp, State.powerDownEffect_cfg, hnew]
  · exact .inl (h.stays hsame.symm h.busy)

/-- Of the register writes, only one of `CONFIG` can end the burst: the others keep the phase and the power bit, or
need a block that is not active. -/
theorem State.Transmitting.after_writeReg {s t : State} (h : s.Transmitting) {r : RegName} {a : RegAddr} {v : Byte}
    {data : List Byte} (hw : writeReg r a v data s = .next t) : StaysOrLeaves s t := by
  obtain ⟨-, rfl⟩ | ⟨-, hw⟩ | rfl | ⟨-, -, hidle, -⟩ := writeReg_next hw
  · exact .inl (h.stays rfl h.busy)
  · exact h.after_writeConfig hw
  · exact .inl h.mode
  · exact absurd (h.isActive.symm.trans hidle) (by decide)

theorem State.Transmitting.after_execWreg {s t : State} (h : s.Transmitting) {a : RegAddr} {data : List Byte}
    (hw : execWreg a data s = .next t) : StaysOrLeaves s t := by
  have hsampled := h.congr (sameChip_sampled s)
  obtain ⟨-, ⟨-, rfl⟩ | ⟨-, r, -, -, ⟨-, rfl⟩ | ⟨v, rest, -, hw⟩⟩⟩ := execWreg_next hw
  · exact .inl (h.stays rfl h.busy)
  · exact .inl h.mode
  · exact (hsampled.after_writeReg hw).congr (sameChip_sampled s) (.refl t)

/-- A flush aborts the burst with no event (41 R139). -/
theorem State.Transmitting.leaves_flushTx {s : State} (h : s.Transmitting) : LeavesTransmit s s.flushTx :=
  ⟨by simp, by simp [h.busy], .inl ⟨h.standby (by simp) (by simp) (by simp), .inr (.inr (by simp))⟩⟩

/-- The registers of a reset block leave it unpowered (70 R255, 10 R60). -/
theorem State.Transmitting.leaves_powerOnReset {s : State} (h : s.Transmitting) : LeavesTransmit s s.powerOnReset :=
  ⟨rfl, rfl, .inr ⟨State.mode_of_unpowered h.resetOff, .inr ⟨rfl, rfl, rfl, rfl, rfl⟩⟩⟩

theorem State.readWidth_keepsBurst (s : State) : s.readWidth.bit .pwrUp = s.bit .pwrUp ∧ s.readWidth.seq = s.seq := by
  unfold State.readWidth
  split <;> exact ⟨rfl, rfl⟩

theorem State.readPayload_keepsBurst (s : State) (n : Nat) :
    (s.readPayload n).bit .pwrUp = s.bit .pwrUp ∧ (s.readPayload n).seq = s.seq := by
  unfold State.readPayload
  split <;> exact ⟨rfl, rfl⟩

/-- Of the instructions, only a `WREG` of `CONFIG`, `FLTX` and `POR` can end the burst. -/
theorem State.Transmitting.after_exec {s t : State} (h : s.Transmitting) {i : Instr} (he : exec i s = .next t) :
    StaysOrLeaves s t := by
  have stays (hp : t.bit .pwrUp = s.bit .pwrUp) (hseq : t.seq = s.seq) : StaysOrLeaves s t :=
    .inl (h.stays hp (hseq ▸ h.busy))
  cases i with
  | rreg => obtain ⟨-, d, n, rfl⟩ := execRreg_next he; exact stays rfl rfl
  | wreg => exact h.after_execWreg he
  | act =>
    obtain ⟨-, -, hact⟩ := execAct_next he
    exact absurd (h.isActive.symm.trans (activate_next hact).1) (by decide)
  | rplw => obtain ⟨-, -, rfl⟩ := execRplw_next he; exact (State.readWidth_keepsBurst _).elim stays
  | rrxp => obtain ⟨-, -, rfl⟩ := execRrxp_next he; exact (State.readPayload_keepsBurst _ _).elim stays
  | wtxp | wackp | wtxpna => obtain ⟨-, -, -, rfl⟩ := writePayload_next he; exact stays rfl rfl
  | fltx =>
    obtain ⟨-, -, rfl⟩ := execFltx_next he
    exact .inr ((h.congr (sameChip_sampled s)).leaves_flushTx.congr (sameChip_sampled s) (.refl _))
  | flrx => obtain ⟨-, -, rfl⟩ := execFlrx_next he; exact stays rfl rfl
  | nop => obtain ⟨-, -, rfl⟩ := execNop_next he; exact stays rfl rfl
  | cel => obtain ⟨-, ⟨-, rfl⟩ | ⟨-, -, -, rfl⟩ | ⟨-, -, rfl⟩⟩ := execCel_next he <;> exact stays rfl rfl
  | ceh => obtain ⟨-, ⟨-, rfl⟩ | ⟨-, -, -, rfl⟩⟩ := execCeh_next he <;> exact stays rfl rfl
  | delay => obtain ⟨-, rfl⟩ := execDelay_next he; exact stays rfl rfl
  | por => obtain ⟨-, rfl⟩ := execPor_next he; exact .inr h.leaves_powerOnReset

/-! ### The sequencer and Air -/

/-- The packet is gone from the queue and data-sent is set (43 R183, R185). -/
theorem State.Transmitting.leaves_sent {s t : State} (h : s.Transmitting) (hp : t.bit .pwrUp = s.bit .pwrUp)
    (hrx : t.bit .primRx = s.bit .primRx) (hseq : t.seq = .idle) (hretry : t.retry = 0) (hds : t.txDs = true)
    (hrt : t.maxRt = s.maxRt) (htxf : t.txf = s.txf.eraseP TxEntry.isData) : LeavesTransmit s t :=
  ⟨hseq, hretry, .inl ⟨h.standby hp hrx hseq, .inl ⟨hds, hrt, htxf⟩⟩⟩

/-- An attempt that asks for an acknowledgment awaits it; one that asks for none ends the burst (43 R181, R183). -/
theorem State.Transmitting.after_endAttempt {s : State} (h : s.Transmitting) (n : Nat) (e : TxEntry) :
    StaysOrLeaves s (s.endAttempt n e) := by
  unfold State.endAttempt
  split
  · exact .inl (h.stays rfl Phase.noConfusion)
  · exact .inr (h.leaves_sent rfl rfl rfl rfl rfl rfl rfl)

/-- No burst starts while one runs; what the sequencer can do is end the attempt on the air. -/
theorem State.Transmitting.after_sequencerStep {s : State} (h : s.Transmitting) : StaysOrLeaves s s.sequencerStep := by
  have hstart : s.canStart = false := by simp [State.canStart, h.busy]
  simp only [State.sequencerStep, hstart, Bool.false_eq_true, if_false]
  split
  · split
    · exact h.after_endAttempt _ _
    · exact .inl h.mode
  · exact .inl h.mode

/-- An acknowledgment that is taken ends the burst, whatever becomes of its payload (43 R185). -/
theorem State.Transmitting.leaves_takeAckPayload {s : State} (h : s.Transmitting) (payload : Option (List Byte)) :
    LeavesTransmit s (s.completeBurst.takeAckPayload payload) := by
  unfold State.takeAckPayload
  split
  · split <;> exact h.leaves_sent rfl rfl rfl rfl rfl rfl rfl
  · exact h.leaves_sent rfl rfl rfl rfl rfl rfl rfl

theorem State.Transmitting.after_ackStep {s : State} (h : s.Transmitting) (payload : Option (List Byte)) :
    StaysOrLeaves s (s.ackStep payload) := by
  unfold State.ackStep
  split
  · split
    · exact .inr (h.leaves_takeAckPayload payload)
    · exact .inl h.mode
  · exact .inl h.mode
  · exact .inl h.mode

/-- A timeout starts the next attempt, or ends the burst with max-retries set (43 R186, R187). -/
theorem State.Transmitting.after_timeoutStep {s : State} (h : s.Transmitting) : StaysOrLeaves s s.timeoutStep := by
  unfold State.timeoutStep
  split
  · split
    · split
      · exact .inl (h.stays rfl Phase.noConfusion)
      · exact .inr ⟨rfl, rfl, .inl ⟨h.standby rfl rfl rfl, .inr (.inl ⟨rfl, rfl, rfl, rfl⟩)⟩⟩
    · exact .inl h.mode
  · exact .inl h.mode
  · exact .inl h.mode

theorem State.offerStep_of_not_receiving {s : State} (h : s.receiving = false) (k : AirPacket) :
    s.offerStep k = s := by
  simp [State.offerStep, h]

theorem State.framingStep_of_not_receiving {s : State} (h : s.receiving = false) (p : Pipe) :
    s.framingStep p = s := by
  simp [State.framingStep, h]

theorem State.Transmitting.after_chipStep {s t : State} (h : s.Transmitting) (hstep : ChipStep s t) :
    StaysOrLeaves s t := by
  cases hstep with
  | instr i he => exact h.after_exec he
  | sequencer ht => exact ht ▸ h.after_sequencerStep
  | ack p ht => exact ht ▸ h.after_ackStep p
  | timeout ht => exact ht ▸ h.after_timeoutStep
  | offer k ht => exact .inl (ht ▸ (State.offerStep_of_not_receiving h.not_receiving k).symm ▸ h.mode)
  | framing p ht => exact .inl (ht ▸ (State.framingStep_of_not_receiving h.not_receiving p).symm ▸ h.mode)
  | nothing ht => exact .inl (ht ▸ h.mode)

/-- Settles O56: of what a step can do to the chip, each case goes on with the burst or takes a way out. -/
theorem leavingTransmit : Obligations.LeavingTransmit := by
  intro s t hinv hstep hactive hleft
  have h := hinv.transmitting hactive
  obtain ⟨-, u, v, hu, huv, hv⟩ := step_chip hstep
  exact (((h.congr hu).after_chipStep huv).congr hu hv).resolve_left hleft

end Sys2Proof.Machine
end

section
/-! PROOFS of the statement about two sides on one channel (spec/43_sequencer.md R203). -/
namespace Sys2Proof.Machine

/-! ### What a side emitted -/

theorem mem_packetsOf {k : AirPacket} {es : List Emission} : k ∈ packetsOf es ↔ .packet k ∈ es := by
  induction es with
  | nil => simp
  | cons e es ih => cases e <;> simp [ih]

theorem mem_acksOf {f : AckFrame} {es : List Emission} : f ∈ acksOf es ↔ .ack f ∈ es := by
  induction es with
  | nil => simp
  | cons e es ih => cases e <;> simp [ih]

/-! ### The state of one side is replaced -/

@[simp] theorem Pair.setInst_inst (w : Pair) (x : Side) (s : State) : (w.setInst x s).inst x = s := by
  cases x <;> rfl

@[simp] theorem Pair.setInst_inst_peer (w : Pair) (x : Side) (s : State) :
    (w.setInst x s).inst x.peer = w.inst x.peer := by
  cases x <;> rfl

@[simp] theorem Pair.setInst_attempts (w : Pair) (x y : Side) (s : State) :
    (w.setInst x s).attempts y = w.attempts y := by
  cases x <;> rfl

@[simp] theorem Pair.setInst_packets (w : Pair) (x : Side) (s : State) : (w.setInst x s).packets = w.packets := by
  cases x <;> rfl

@[simp] theorem Pair.setInst_acks (w : Pair) (x : Side) (s : State) : (w.setInst x s).acks = w.acks := by
  cases x <;> rfl

/-! ### The events -/

/-- What a side emits in a turn is launched as its own, and nothing else is (R203). -/
theorem pairStep_turn {w v : Pair} {x : Side} {t : Turn} (h : pairStep (.turn x t) w = some v) :
    let sent := packetsOf (newEmissions (w.inst x) (v.inst x))
    v.inst x = afterTurn t (w.inst x) ∧ v.inst x.peer = w.inst x.peer ∧
    v.attempts x = w.attempts x + sent.length ∧ v.attempts x.peer = w.attempts x.peer ∧ v.acks = w.acks ∧
    v.packets = w.packets ++ sent.mapIdx fun j k => flightOf x (w.attempts x + j + 1) k := by
  simp only [pairStep] at h
  split at h
  · obtain rfl := Option.some.inj h
    obtain ⟨hpackets, hown, hpeer, hinst, hacks⟩ := launch_spec x
      (newEmissions (w.inst x) (afterTurn t (w.inst x))) (w.setInst x (afterTurn t (w.inst x)))
    simp [hpackets, hown, hpeer, hinst, hacks]
  · cases h

/-- A delivery is of a packet in flight, over a shared channel; the peer's answers are launched for its attempt. -/
theorem pairStep_deliver {w v : Pair} {i : Nat} (h : pairStep (.deliver i) w = some v) :
    w.sharesChannel = true ∧
    ∃ f, w.packets[i]? = some f ∧ v.packets = w.packets.eraseIdx i ∧ v.inst f.sender = w.inst f.sender ∧
      v.inst f.sender.peer = afterTurn (.offer f.frame) (w.inst f.sender.peer) ∧
      (∀ x, v.attempts x = w.attempts x) ∧
      v.acks = w.acks ++ (acksOf (newEmissions (w.inst f.sender.peer) (v.inst f.sender.peer))).map fun a =>
        { receiver := f.sender, attempt := f.attempt, frame := a } := by
  simp only [pairStep] at h
  split at h
  · cases h
  · next f hf =>
    split at h
    · next hshared =>
      obtain rfl := Option.some.inj h
      rw [launchAcks_spec]
      refine ⟨hshared, f, hf, ?_⟩
      cases f.sender <;> exact ⟨rfl, rfl, rfl, fun x => by cases x <;> rfl, rfl⟩
    · cases h

theorem pairStep_lose {w v : Pair} {i : Nat} (h : pairStep (.lose i) w = some v) :
    v = { w with packets := w.packets.eraseIdx i } := by
  simp only [pairStep] at h
  split at h
  · cases h
  · exact (Option.some.inj h).symm

theorem pairStep_loseAck {w v : Pair} {i : Nat} (h : pairStep (.loseAck i) w = some v) :
    v = { w with acks := w.acks.eraseIdx i } := by
  simp only [pairStep] at h
  split at h
  · cases h
  · exact (Option.some.inj h).symm

/-- An acknowledgment is given over a shared channel, to the attempt it answers, under the address awaited. -/
theorem pairStep_answer {w v : Pair} {i : Nat} (h : pairStep (.answer i) w = some v) :
    w.sharesChannel = true ∧
    ∃ f, w.acks[i]? = some f ∧ v.acks = w.acks.eraseIdx i ∧ f.attempt = w.attempts f.receiver ∧
      f.frame.addr = (w.inst f.receiver).txAddrBytes ∧
      v.inst f.receiver = afterTurn (.ack f.frame.payload) (w.inst f.receiver) ∧
      v.inst f.receiver.peer = w.inst f.receiver.peer ∧ v.packets = w.packets ∧
      ∀ x, v.attempts x = w.attempts x := by
  simp only [pairStep] at h
  split at h
  · cases h
  · next f hf =>
    split at h
    · next hgiven =>
      simp only [Bool.and_eq_true, beq_iff_eq] at hgiven
      obtain ⟨⟨hshared, hattempt⟩, haddr⟩ := hgiven
      obtain rfl := Option.some.inj h
      refine ⟨hshared, f, hf, Pair.setInst_acks .., hattempt, haddr, Pair.setInst_inst .., ?_⟩
      cases f.receiver <;> exact ⟨rfl, rfl, fun x => by cases x <;> rfl⟩
    · cases h

/-! ### What is in flight after an event -/

/-- Only a turn of the sender puts a packet in flight. -/
theorem mem_packets_of_pairStep {w v : Pair} {e : PairEvent} (h : pairStep e w = some v) {f : PacketFlight}
    (hf : f ∈ v.packets) :
    f ∈ w.packets ∨ ∃ (t : Turn) (k : AirPacket), e = .turn f.sender t ∧
      .packet k ∈ newEmissions (w.inst f.sender) (v.inst f.sender) ∧
      f.frame = { k with id := { sender := f.sender.number, serial := k.id.serial } } := by
  cases e with
  | turn x t =>
    obtain ⟨-, -, -, -, -, hpackets⟩ := pairStep_turn h
    rw [hpackets, List.mem_append, List.mem_mapIdx] at hf
    obtain hold | ⟨j, hj, rfl⟩ := hf
    · exact .inl hold
    · exact .inr ⟨t, _, rfl, mem_packetsOf.1 (List.getElem_mem hj), rfl⟩
  | deliver i =>
    obtain ⟨-, p, -, hpackets, -⟩ := pairStep_deliver h
    exact .inl (List.mem_of_mem_eraseIdx (hpackets ▸ hf))
  | lose i =>
    obtain rfl := pairStep_lose h
    exact .inl (List.mem_of_mem_eraseIdx hf)
  | answer i =>
    obtain ⟨-, a, -, -, -, -, -, -, hpackets, -⟩ := pairStep_answer h
    exact .inl (hpackets ▸ hf)
  | loseAck i =>
    obtain rfl := pairStep_loseAck h
    exact .inl hf

/-- Only a delivery puts an acknowledgment in flight, and for the attempt delivered. -/
theorem mem_acks_of_pairStep {w v : Pair} {e : PairEvent} (h : pairStep e w = some v) {f : AckFlight}
    (hf : f ∈ v.acks) :
    f ∈ w.acks ∨ ∃ (i : Nat) (p : PacketFlight), e = .deliver i ∧ w.packets[i]? = some p ∧
      f.receiver = p.sender ∧ f.attempt = p.attempt ∧
      .ack f.frame ∈ newEmissions (w.inst p.sender.peer) (v.inst p.sender.peer) := by
  cases e with
  | turn x t =>
    obtain ⟨-, -, -, -, hacks, -⟩ := pairStep_turn h
    exact .inl (hacks ▸ hf)
  | deliver i =>
    obtain ⟨-, p, hp, -, -, -, -, hacks⟩ := pairStep_deliver h
    rw [hacks, List.mem_append, List.mem_map] at hf
    obtain hold | ⟨a, ha, rfl⟩ := hf
    · exact .inl hold
    · exact .inr ⟨i, p, rfl, hp, rfl, rfl, mem_acksOf.1 ha⟩
  | lose i =>
    obtain rfl := pairStep_lose h
    exact .inl hf
  | answer i =>
    obtain ⟨-, a, -, hacks, -⟩ := pairStep_answer h
    exact .inl (List.mem_of_mem_eraseIdx (hacks ▸ hf))
  | loseAck i =>
    obtain rfl := pairStep_loseAck h
    exact .inl (List.mem_of_mem_eraseIdx hf)

/-- Settles O60: event by event, what it does to the two sides and to what is in flight. -/
theorem deliveryTakesFlight : Obligations.DeliveryTakesFlight :=
  ⟨fun _ _ _ _ => pairStep_turn, fun _ _ _ => pairStep_deliver, fun _ _ _ h _ => mem_packets_of_pairStep h,
    fun _ _ _ h _ => mem_acks_of_pairStep h, fun _ _ _ => ⟨pairStep_lose, pairStep_loseAck⟩,
    fun _ _ _ => pairStep_answer⟩

end Sys2Proof.Machine
end

section
/-! PROOFS of the statements about the sequencer's bursts and the receive side (spec/43_sequencer.md R178, R186 to
R191, R195, R197, R198). -/
namespace Sys2Proof.Machine

/-! ### Bursts -/

theorem State.canStart_iff (s : State) :
    s.canStart = true ↔ s.bit .pwrUp = true ∧ s.settleUs = 0 ∧ s.bit .primRx = false ∧ s.seq = .idle ∧
      s.maxRt = false ∧ (∃ e ∈ s.txf, e.kind = .data) ∧
      (s.txTrigger = true ∨ (s.ce = true ∧ s.cfg.tCePulse ≤ s.ceHighUs)) := by
  simp [State.canStart, State.running, State.sendable, State.triggered, TxEntry.isData_iff, and_assoc]

theorem State.sequencerStep_of_canStart {s : State} (h : s.canStart = true) : s.sequencerStep = s.startBurst := by
  simp [State.sequencerStep, h]

/-- Only an attempt on the air can be ended, so an idle sequencer has no other step than the start of a burst. -/
theorem State.sequencerStep_of_idle {s : State} (h : ¬ s.canStart = true) (hseq : s.seq = .idle) :
    s.sequencerStep = s := by
  simp [State.sequencerStep, h, hseq]

/-- Settles O42: `canStart` is the rule's conditions; the burst that starts keeps the power it needs. -/
theorem startBurstEnabled : Obligations.StartBurstEnabled := by
  intro s
  refine ⟨fun henabled => ?started, fun hnot hseq => State.sequencerStep_of_idle (mt s.canStart_iff.1 hnot) hseq⟩
  case started =>
    rw [State.sequencerStep_of_canStart (s.canStart_iff.2 henabled)]
    exact ⟨rfl, State.mode_of_burst henabled.1 Phase.noConfusion⟩

theorem State.timeoutStep_of_not_awaitAck {s : State} (h : ∀ n, s.seq ≠ .awaitAck n) : s.timeoutStep = s := by
  unfold State.timeoutStep
  split
  · exact absurd ‹_› (h _)
  · rfl
  · rfl

/-- Settles O45: only an awaited acknowledgment can time out, and the budget decides what follows. -/
theorem timeoutRetries : Obligations.TimeoutRetries := by
  refine ⟨fun s h => State.timeoutStep_of_not_awaitAck h, fun s n hseq hp hs => ?_⟩
  simp [State.timeoutStep, hseq, State.running_of_settled hp hs]

/-! ### The conditions of the receive side -/

theorem State.receiving_iff (s : State) : s.receiving = true ↔ s.mode = .activeReceive ∧ s.settleUs = 0 := by
  simp [State.receiving]

theorem State.rxFull_eq_false_iff (s : State) : s.rxFull = false ↔ s.rxf.length ≠ 3 := beq_eq_false_iff_ne

theorem State.dynamicPipe_iff (s : State) (p : Pipe) :
    s.dynamicPipe p = true ↔ s.featureLocked = false ∧ s.bit .enDpl = true ∧ s.bit (.dpl p) = true := by
  simp [State.dynamicPipe, and_assoc]

theorem State.acknowledges_iff (s : State) (k : AirPacket) (p : Pipe) :
    s.acknowledges k p = true ↔ s.bit (.enaa p) = true ∧ k.noAck = false := by
  simp [State.acknowledges]

theorem pipeOf_none {s : State} {k : AirPacket} (h : ∀ p : Pipe, s.bit (.erx p) = true → k.addr ≠ s.effAddr p) :
    s.pipeOf k = none :=
  List.find?_eq_none.2 fun p _ => by simpa [State.pipeMatches] using h p

/-! ### What becomes of an offered frame -/

theorem State.offerStep_of_unmatched {s : State} {k : AirPacket} (h : s.pipeOf k = none) : s.offerStep k = s := by
  simp [State.offerStep, h]

theorem State.offerStep_of_not_admitted {s : State} {k : AirPacket} {p : Pipe} (hpipe : s.pipeOf k = some p)
    (h : ¬ s.admitted k p = true) : s.offerStep k = s := by
  simp [State.offerStep, hpipe, h]

/-- A frame that matches and is admitted: the duplicate check comes before the check for a full FIFO. -/
theorem State.offerStep_of_admitted {s : State} {k : AirPacket} {p : Pipe} (hrec : s.receiving = true)
    (hlen : k.bytes.length ≤ maxPayload) (hpipe : s.pipeOf k = some p) (hadm : s.admitted k p = true) :
    s.offerStep k =
      if s.lastRxId = some k.id then s.acceptDuplicate k p
      else if s.rxf.length = 3 then s.dropFull k p
      else s.accept k p := by
  simp [State.offerStep, hrec, hlen, hpipe, hadm, State.rxFull_iff]

/-- Settles O46: each of the three reasons stops the frame at its own check. -/
theorem unwantedFramesIgnored : Obligations.UnwantedFramesIgnored := by
  intro s k
  refine ⟨fun hnot => ?deaf, fun hno => State.offerStep_of_unmatched (pipeOf_none hno), ?misfit⟩
  case deaf =>
    have hrec : s.receiving = false := by
      rw [← Bool.not_eq_true, s.receiving_iff, not_and_or]
      exact hnot
    exact ⟨State.offerStep_of_not_receiving hrec k, State.framingStep_of_not_receiving hrec⟩
  case misfit =>
    intro p hp haddr hlow hstatic hlen
    refine State.offerStep_of_not_admitted (pipeOf_lowest hp haddr hlow) ?_
    rw [admitted_iff, not_or]
    exact ⟨hstatic, hlen⟩

theorem State.acceptDuplicate_eq (s : State) (k : AirPacket) (p : Pipe) :
    s.acceptDuplicate k p = if s.bit (.enaa p) = true ∧ k.noAck = false then s.emitAck p none else s :=
  if_congr (s.acknowledges_iff k p) rfl rfl

theorem State.dropFull_eq (s : State) (k : AirPacket) (p : Pipe) :
    s.dropFull k p =
      if s.cfg.ackWhenRxFull = true ∧ s.bit (.enaa p) = true ∧ k.noAck = false then s.emitAck p none else s :=
  if_congr ((Bool.and_eq_true ..).to_iff.trans (and_congr_right' (s.acknowledges_iff k p))) rfl rfl

/-- Settles O48: a frame that passes the match and the length is a duplicate or is dropped, and either way nothing
but an acknowledgment can come of it. -/
theorem duplicateAndFullDrop : Obligations.DuplicateAndFullDrop := by
  intro s k p hmode hs hlen hp haddr hlow hfits
  have hoffer := State.offerStep_of_admitted (s.receiving_iff.2 ⟨hmode, hs⟩) hlen (pipeOf_lowest hp haddr hlow)
    ((admitted_iff s k p).2 hfits)
  refine ⟨fun hdup => ?duplicate, fun hnew hfull => ?full⟩
  case duplicate =>
    rw [hoffer, if_pos hdup, State.acceptDuplicate_eq]
    rfl
  case full =>
    rw [hoffer, if_neg hnew, if_pos hfull, State.dropFull_eq]
    rfl

/-! ### Framing errors -/

/-- R198: a framing error on pipe `p` leaves an entry in the RX FIFO. -/
def State.FramingLeavesEntry (s : State) (p : Pipe) : Prop :=
  s.cfg.allowBadWidth = true ∧ s.mode = .activeReceive ∧ s.settleUs = 0 ∧ s.rxf.length ≠ 3 ∧
    s.bit (.erx p) = true ∧ s.featureLocked = false ∧ s.bit .enDpl = true ∧ s.bit (.dpl p) = true

theorem State.framingStep_of_entry {s : State} {p : Pipe} (h : s.FramingLeavesEntry p) :
    s.framingStep p = (s.pushRx (s.framingEntry p)).drew ((Config.drawLength s.draws).val + 1) := by
  obtain ⟨hbad, hmode, hs, hroom, hp, hdyn⟩ := h
  simp [State.framingStep, hbad, s.receiving_iff.2 ⟨hmode, hs⟩, s.rxFull_eq_false_iff.2 hroom, hp,
    (s.dynamicPipe_iff p).2 hdyn]

theorem State.framingStep_of_no_entry {s : State} {p : Pipe} (h : ¬ s.FramingLeavesEntry p) :
    s.framingStep p = s := by
  refine if_neg fun hcond => h ?_
  simpa [State.FramingLeavesEntry, State.receiving_iff, State.rxFull_eq_false_iff, State.dynamicPipe_iff,
    and_assoc] using hcond

/-- The free width stays above 32 in its byte, since 33 + 222 is 255. -/
theorem State.framingEntry_wid_toNat (s : State) (p : Pipe) :
    (s.framingEntry p).wid.toNat = 33 + (Config.drawExcess s.draws).val := by
  have hlt := (Config.drawExcess s.draws).isLt
  simp only [State.framingEntry, BitVec.toNat_ofNat]
  omega

theorem State.framingEntry_bytes_length (s : State) (p : Pipe) : (s.framingEntry p).bytes.length ≤ 32 := by
  have hlt := (Config.drawLength s.draws).isLt
  simp only [State.framingEntry, State.drawnBytes_length]
  omega

/-- Settles O49: the entry pushed is the framing error's, whose free values stay in their ranges. -/
theorem framingErrorEntry : Obligations.FramingErrorEntry := by
  intro s p
  refine ⟨State.framingStep_of_no_entry, fun henabled =>
    ⟨s.framingEntry p, rfl, s.framingEntry_bytes_length p, ?_, ?_⟩⟩
  · rw [State.framingEntry_wid_toNat]
    omega
  · rw [State.framingStep_of_entry henabled]
    rfl

end Sys2Proof.Machine
end

section
/-! PROOFS of the statement about the tuning bank and its calibration (spec/40_register_commands.md R109, R118;
44_driver_operations.md R224). -/
namespace Sys2Proof.Machine

/-! ### The sixteen writes of `loadCalibration` -/

/-- R207, 90 C4: a legal table has no entry at `STATUS`. -/
theorem regAt_entry_ne_status {m : RegMap} {t : CalTable} (h : t.Ok m) {e : CalEntry}
    (he : e ∈ t.entries.toList) : regAt m e.addr ≠ some .status := by
  unfold regAt
  split
  · exact h.noStatus e he
  · simp

theorem wreg_of_mem_calibrationSteps {m : RegMap} {t : CalTable} (h : t.Ok m) {i : Instr}
    (hi : i ∈ calibrationSteps t) :
    ∃ a d, i = .wreg a d ∧ regAt m a ≠ some .status ∧ 2 ≤ d.length := by
  obtain ⟨e, he, d, rfl, hd⟩ := calibrationSteps_mem hi
  exact ⟨e.addr, d, rfl, regAt_entry_ne_status h he, hd ▸ h.multiByte e he⟩

/-- The write of entry `k`. -/
def calWrite (t : CalTable) (k : Fin 14) : Instr := .wreg t.entries[k].addr (calSent t k)

theorem calibrationSteps_take (t : CalTable) : (calibrationSteps t).take 14 = List.ofFn (calWrite t) :=
  List.take_left' (List.length_ofFn (f := calWrite t))

theorem calibrationSteps_drop (t : CalTable) :
    (calibrationSteps t).drop 14 =
      [.wreg t.entries[t.toggle].addr (calToggled t t.setFirst),
        .wreg t.entries[t.toggle].addr (calToggled t !t.setFirst)] :=
  List.drop_left' (List.length_ofFn (f := calWrite t))

theorem calibrationSteps_entry (t : CalTable) (k : Fin 14) :
    (calibrationSteps t)[k.val]? = some (calWrite t k) := by
  rw [← List.getElem?_take_of_lt k.isLt, calibrationSteps_take, List.getElem?_ofFn, dif_pos k.isLt]

/-! ### Accesses in bank 1 -/

theorem State.inTuneBank_of_bank1 {s : State} {a : RegAddr} (hb : s.bankBit = true)
    (ha : regAt s.cfg.regMap a ≠ some .status) : s.inTuneBank a = true := by
  simp [State.inTuneBank, hb, ha]

theorem exec_wreg_tune {s : State} {a : RegAddr} (hs : s.Ready) (ht : s.inTuneBank a = true) (data : List Byte) :
    exec (.wreg a data) s = .next (s.sampled.tuneWrite a data) := by
  simp [exec, execWreg, busAccess_ready hs, ht]

theorem exec_rreg_tune {s : State} {a : RegAddr} (hs : s.Ready) (ht : s.inTuneBank a = true) (n : Nat) :
    exec (.rreg a n) s = .next (s.sampled.tuneRead a n) := by
  simp [exec, execRreg, busAccess_ready hs, ht]

/-- R109: of enough stored bytes the first are returned. -/
theorem State.tuneRead_stored {s : State} {a : RegAddr} {n : Nat} (h : n ≤ (tuneGet s.tune a.toNat).length) :
    s.tuneRead a n = s.replyData ((tuneGet s.tune a.toNat).take n) :=
  if_pos h

/-- R109: of too few stored bytes none is returned, only free values. -/
theorem State.tuneRead_short {s : State} {a : RegAddr} {n : Nat} (h : ¬ n ≤ (tuneGet s.tune a.toNat).length) :
    s.tuneRead a n = s.replyDrawn n :=
  if_neg h

/-- Settles O11: the table's shape gives the sixteen writes; in bank 1 an access goes to the tuning bank, where a
write keeps the form and the other entries. -/
theorem tuningBankAccess : Obligations.TuningBankAccess := by
  refine ⟨fun c hc => ?calibration, fun s a hs hb ha hwf => ?access⟩
  case calibration =>
    have hok := hc.calTable
    let t := c.calTable
    refine ⟨calibrationSteps_length t, fun i hi => wreg_of_mem_calibrationSteps hok hi, calibrationSteps_entry t,
      t.entries[t.toggle].addr, calSent t t.toggle, t.bitA, t.bitB, t.setFirst, ?_, hok.twoBits, ?_, ?_,
      calibrationSteps_drop t⟩
    · rw [calibrationSteps_take]
      exact List.mem_ofFn.2 ⟨t.toggle, rfl⟩
    · exact (calSent_length t t.toggle).symm ▸ hok.bitsIn.1
    · exact (calSent_length t t.toggle).symm ▸ hok.bitsIn.2
  case access =>
    have htune := State.inTuneBank_of_bank1 hb ha
    refine ⟨fun data => ⟨_, exec_wreg_tune hs htune data, rfl, tuneSet_wf _ _ hwf, tuneGet_set_same _ _ hwf,
      fun b hne => tuneGet_set_other _ (mt BitVec.eq_of_toNat_eq hne)⟩, fun n => ?read⟩
    case read =>
      rw [exec_rreg_tune hs htune]
      split
      · next h => rw [State.tuneRead_stored (s := s.sampled) h]; rfl
      · next h => rw [State.tuneRead_short (s := s.sampled) h]; rfl

end Sys2Proof.Machine
end

section
/-! PROOFS of the statements about the event pump and the guards of the driver operations
(spec/44_driver_operations.md). -/
namespace Sys2Proof.Machine

/-! ### The running program -/

theorem driverStep_of_frames {s : State} {f : DriverFrame} {rest : List DriverFrame} (h : s.frames = f :: rest) :
    driverStep s = runFrame f rest s := by
  simp [driverStep, h]

/-- The context `irq` runs, with the frames `fs`, and the other one stands at `other` (60 R240, R241). -/
structure State.Runs (s : State) (irq : Bool) (fs other : List DriverFrame) : Prop where
  context : s.irqThread.isEmpty = !irq
  own     : s.program irq = fs
  peer    : s.program (!irq) = other

/-- The normal context runs while the interrupt context is idle. -/
theorem State.runs_of_program {s : State} {irq : Bool} {f : DriverFrame} {rest : List DriverFrame}
    (hidle : irq = false → s.irqThread = []) (hp : s.program irq = f :: rest) :
    s.Runs irq (f :: rest) (s.program !irq) := by
  refine ⟨?_, hp, rfl⟩
  cases irq with
  | false => simp [hidle]
  | true =>
    have hirq : s.irqThread = f :: rest := hp
    simp [hirq]

theorem State.Runs.frames {s : State} {irq : Bool} {fs other : List DriverFrame} (h : s.Runs irq fs other) :
    s.frames = fs := by
  obtain ⟨hcontext, rfl, -⟩ := h
  cases irq <;> simp [State.frames, State.program, hcontext]

theorem State.Runs.congr {s t : State} {irq : Bool} {fs other : List DriverFrame} (h : s.Runs irq fs other)
    (ht : t.thread = s.thread) (hi : t.irqThread = s.irqThread) : t.Runs irq fs other := by
  obtain ⟨hcontext, rfl, rfl⟩ := h
  exact ⟨hi ▸ hcontext, by simp [State.program, ht, hi], by simp [State.program, ht, hi]⟩

/-- The program that goes on is that of the running context, and the other context stays where it is. -/
theorem State.Runs.program_setFrames {s : State} {irq : Bool} {fs other : List DriverFrame}
    (h : s.Runs irq fs other) (gs : List DriverFrame) :
    (s.setFrames gs).program irq = gs ∧ (s.setFrames gs).program (!irq) = other := by
  obtain ⟨hcontext, -, rfl⟩ := h
  cases irq <;> simp [State.program, hcontext]

/-- A context that has a frame left goes on running. -/
theorem State.Runs.setFrames_cons {s : State} {irq : Bool} {fs other : List DriverFrame}
    (h : s.Runs irq fs other) (g : DriverFrame) (gs : List DriverFrame) :
    (s.setFrames (g :: gs)).Runs irq (g :: gs) other := by
  obtain ⟨hown, hpeer⟩ := h.program_setFrames (g :: gs)
  refine ⟨?_, hown, hpeer⟩
  cases irq <;> simp [h.context]

theorem State.Ready.congr {s t : State} (h : s.Ready) (hf : t.fault = s.fault) (hs : t.settleUs = s.settleUs) :
    t.Ready :=
  ⟨hf.trans h.unfaulted, hs.trans h.settled⟩

/-! ### The event pump -/

/-- R205, the read: the byte returned is the status byte, which decides whether the pump ends. -/
theorem driverStep_pumpRead {s : State} {rest : List DriverFrame} (hs : s.Ready) (hl : LegalParams s.cfg)
    (hf : s.frames = .pumpRead :: rest) :
    driverStep s = .next ((s.sampled.replyData [s.status]).setFrames
      (if s.status = 0x00 then rest else .pumpClear s.status :: rest)) := by
  have ha : regAt s.cfg.regMap (addrOf s.cfg.regMap .status) = some .status := hl.names .status (by decide)
  have hread := exec_rreg_named hs (State.inTuneBank_status ha) ha (regWidth_pos .status)
  rw [driverStep_of_frames hf]
  refine (hostStep_eq hread).trans (congrArg Host.Outcome.next ?_)
  exact (apply_ite _ (s.status = 0x00) rest _).symm

/-- R205, the write-back: the event bits are cleared and become EventFlags. -/
def State.takeEvents (s : State) : State :=
  { s with
    rxDr := false, txDs := false, maxRt := false
    ev := { dataReceived := s.ev.dataReceived || s.rxDr
            transmitAcknowledged := s.ev.transmitAcknowledged || s.txDs
            maxRetriesReached := s.ev.maxRetriesReached || s.maxRt } }

@[simp] theorem State.takeEvents_rxDr (s : State) : s.takeEvents.rxDr = false := rfl
@[simp] theorem State.takeEvents_txDs (s : State) : s.takeEvents.txDs = false := rfl
@[simp] theorem State.takeEvents_maxRt (s : State) : s.takeEvents.maxRt = false := rfl
@[simp] theorem State.takeEvents_txf (s : State) : s.takeEvents.txf = s.txf := rfl
@[simp] theorem State.takeEvents_settleUs (s : State) : s.takeEvents.settleUs = s.settleUs := rfl
@[simp] theorem State.takeEvents_fault (s : State) : s.takeEvents.fault = s.fault := rfl
@[simp] theorem State.takeEvents_ev (s : State) :
    s.takeEvents.ev =
      { dataReceived := s.ev.dataReceived || s.rxDr
        transmitAcknowledged := s.ev.transmitAcknowledged || s.txDs
        maxRetriesReached := s.ev.maxRetriesReached || s.maxRt } := rfl

/-- The status byte has all the event bits of its state. -/
theorem State.clearEvents_setFlags_status (s : State) :
    (s.clearEvents s.status).setFlags s.status = s.takeEvents := by
  simp only [State.clearEvents, State.setFlags, State.takeEvents, State.status_rxDr, State.status_txDs,
    State.status_maxRt, Bool.and_not_self]

theorem driverStep_pumpClear {s : State} {rest : List DriverFrame} (hs : s.Ready) (hl : LegalParams s.cfg)
    (hf : s.frames = .pumpClear s.status :: rest) :
    driverStep s = .next (s.sampled.takeEvents.setFrames (if s.maxRt then .pumpFlush :: rest else rest)) := by
  have ha : regAt s.cfg.regMap (addrOf s.cfg.regMap .status) = some .status := hl.names .status (by decide)
  have hwrite := exec_wreg_byte hs (State.inTuneBank_status ha) ha s.status
  rw [driverStep_of_frames hf, ← s.sampled.clearEvents_setFlags_status, ← s.status_maxRt]
  exact hostStep_eq hwrite

theorem exec_fltx {s : State} (hs : s.Ready) : exec (.fltx 0) s = .next s.sampled.flushTx := by
  rw [exec, execFltx, busCommand_of_countOk hs (beq_self_eq_true _)]

/-- R206: the flush is the pump's last step. -/
theorem driverStep_pumpFlush {s : State} {rest : List DriverFrame} (hs : s.Ready)
    (hf : s.frames = .pumpFlush :: rest) : driverStep s = .next (s.sampled.flushTx.setFrames rest) := by
  rw [driverStep_of_frames hf]
  exact hostStep_eq (exec_fltx hs)

@[simp] theorem State.setFrames_status (s : State) (fs : List DriverFrame) : (s.setFrames fs).status = s.status := by
  unfold State.setFrames
  split <;> rfl

/-- Settles O57: the three steps of the pump, each in the context that runs it. No agent comes between them, so the
byte written back is still the status byte. -/
theorem pumpHandlesEvents : Obligations.PumpHandlesEvents := by
  intro s irq rest hs hl hidle hp ended
  have hruns := State.runs_of_program hidle hp
  have hread := driverStep_pumpRead hs hl hruns.frames
  have hrunsRead : (s.sampled.replyData [s.status]).Runs irq _ _ := hruns.congr rfl rfl
  refine ⟨fun hzero => ?quiet, fun hnonzero => ?events⟩
  case quiet =>
    rw [if_pos hzero] at hread
    exact ⟨_, hread, hrunsRead.program_setFrames rest, by simp⟩
  case events =>
    rw [if_neg hnonzero] at hread
    let t := (s.sampled.replyData [s.status]).setFrames (.pumpClear s.status :: rest)
    have hstatus : t.status = s.status := State.setFrames_status _ _
    have hmaxRt : t.maxRt = s.maxRt := State.setFrames_maxRt _ _
    have hruns : t.Runs irq _ _ := hrunsRead.setFrames_cons (.pumpClear s.status) rest
    have hclear := driverStep_pumpClear (s := t) (rest := rest) (hs.congr (by simp [t]) (by simp [t]))
      (by simpa [t] using hl) (hstatus ▸ hruns.frames)
    have hrunsTaken : t.sampled.takeEvents.Runs irq _ _ := hruns.congr rfl rfl
    rw [hmaxRt] at hclear
    refine ⟨t, _, hread, hclear, by simp, by simp, by simp, by simp [t], fun hno => ?done, fun hmax => ?flush⟩
    case done =>
      rw [hno]
      exact ⟨hrunsTaken.program_setFrames rest, by simp [t]⟩
    case flush =>
      have hruns := hrunsTaken.setFrames_cons .pumpFlush rest
      have hflush := driverStep_pumpFlush (hs.congr (by simp [t]) (by simp [t])) hruns.frames
      rw [hmax]
      exact ⟨_, hflush, by simp, (hruns.congr (by simp) (by simp)).program_setFrames rest, by simp⟩

/-! ### Steps of the normal context -/

theorem State.setFrames_of_idle {s : State} (hirq : s.irqThread = []) (fs : List DriverFrame) :
    s.setFrames fs = { s with thread := fs } := by
  simp [State.setFrames, hirq]

/-- With no interrupt-context pump running, the normal context makes the next step. -/
theorem driverStep_of_idle {s : State} {f : DriverFrame} {rest : List DriverFrame} (hirq : s.irqThread = [])
    (ht : s.thread = f :: rest) : driverStep s = runFrame f rest s :=
  driverStep_of_frames ((State.runs_of_program (irq := false) (fun _ => hirq) ht).frames)

/-! ### `init` -/

/-- R218: exactly the records that are not valid are rejected. -/
theorem InitRecord.not_valid_iff (r : InitRecord) :
    ¬ r.valid = true ↔ r.ackPayload = true ∧ r.dynamicPayload = false ∨ r.addrWidth < 3 ∨ 5 < r.addrWidth ∨
      15 < r.retransmitCount ∨ 127 < r.channel ∨ r.ownAddr.length ≠ r.addrWidth := by
  rw [InitRecord.valid_iff]
  simp only [not_and_or, not_le, Classical.not_imp, Bool.not_eq_true]

theorem State.not_isActive {s : State} (h : s.mode = .standby ∨ s.mode = .powerDown) : s.isActive = false := by
  obtain h | h := h <;> simp [State.isActive, h]

theorem driverStep_initStart_invalid {s : State} {r : InitRecord} {rest : List DriverFrame}
    (hirq : s.irqThread = []) (ht : s.thread = .initStart r :: rest) (hr : ¬ r.valid = true) :
    driverStep s = .next { s with thread := rest, opResult := some (.initError .constraintViolation) } := by
  rw [driverStep_of_idle hirq ht]
  simp [runFrame, hr, State.result, State.setFrames_of_idle, hirq]

theorem driverStep_initStart_valid {s : State} {r : InitRecord} {rest : List DriverFrame}
    (hirq : s.irqThread = []) (ht : s.thread = .initStart r :: rest) (hr : r.valid = true) (hce : s.ce = false)
    (hm : s.mode = .standby ∨ s.mode = .powerDown) :
    driverStep s = .next { s with
      thread := .script (r.steps1to6 s.cfg.regMap) :: .initFeature r :: rest
      drvPipes := s.drvPipes.program (r.programPipe s.cfg.regMap)
      ev := clearedFlags } := by
  rw [driverStep_of_idle hirq ht]
  simp [runFrame, hr, hce, State.not_isActive hm, State.setFrames_of_idle, hirq]

/-- R212: what `init` says of a pipe. -/
theorem InitRecord.programPipe_eq (m : RegMap) (r : InitRecord) (p : Pipe) (old : PipeRecord) :
    ((r.programPipe m p old).dynamic = true ↔ r.dynamicPayload = true ∧ p ∈ r.pipesInUse) ∧
    (r.programPipe m p old).staticLen =
      if r.dynamicPayload = false ∧ p ∈ r.pipesInUse then BitVec.ofNat 8 (fieldOf m (.rxPwLen p) r.staticLength)
      else old.staticLen := by
  simp [InitRecord.programPipe]

/-! ### The wait of `transmit` -/

/-- A wait that goes on stays, and in polled mode calls the pump first. -/
theorem State.waitOn_of_idle {s : State} {f : DriverFrame} {rest : List DriverFrame} (hirq : s.irqThread = [])
    (ht : s.thread = f :: rest) :
    s.waitOn f rest = { s with
      thread := match s.cfg.pumpCaller with
        | .polled => .pumpRead :: f :: rest
        | .interrupt => f :: rest } := by
  cases hc : s.cfg.pumpCaller with
  | polled => simp [State.waitOn, hc, State.setFrames_of_idle hirq]
  | interrupt => simp [State.waitOn, hc, ← ht]

theorem State.waitFrame_eq (s : State) :
    s.waitFrame = if s.maxRt = true ∧ s.cfg.staleMaxRt = .waitsForEver then .txStuck else .txWait := by
  simp [State.waitFrame]

theorem State.waitStep_acknowledged {s : State} (rest : List DriverFrame) (hirq : s.irqThread = [])
    (hack : s.ev.transmitAcknowledged = true) :
    s.waitStep rest = { s with
      thread := rest, drvState := .standby, opResult := some .success
      ev := { s.ev with transmitAcknowledged := false } } := by
  simp [State.waitStep, hack, State.result, State.setFrames_of_idle, hirq]

theorem State.waitStep_maxRetries {s : State} (rest : List DriverFrame) (hirq : s.irqThread = [])
    (hack : s.ev.transmitAcknowledged = false) (hmax : s.ev.maxRetriesReached = true) :
    s.waitStep rest = { s with
      thread := rest, drvState := .standby, opResult := some .maxRetriesExceeded
      ev := { s.ev with maxRetriesReached := false } } := by
  simp [State.waitStep, hack, hmax, State.result, State.setFrames_of_idle, hirq]

theorem State.waitStep_no_flag {s : State} (rest : List DriverFrame) (hack : s.ev.transmitAcknowledged = false)
    (hmax : s.ev.maxRetriesReached = false) : s.waitStep rest = s.waitOn .txWait rest := by
  simp [State.waitStep, hack, hmax]

/-- R208 step 1: with three entries queued the probe's status byte shows the TX FIFO full. -/
theorem driverStep_txProbe_full {s : State} {bytes : List Byte} {ackReq : Bool} {rest : List DriverFrame}
    (hs : s.Ready) (hirq : s.irqThread = []) (ht : s.thread = .txProbe bytes ackReq :: rest)
    (hfull : s.txf.length = 3) :
    driverStep s = .next { s with
      thread := rest, opResult := some .fifoFull, reply := { status := s.status, data := [] }
      ev := { s.ev with transmitAcknowledged := false, maxRetriesReached := false } } := by
  have hbit : s.status.getLsbD 0 = true := s.status_full.trans (s.txFull_iff.2 hfull)
  rw [driverStep_of_idle hirq ht]
  refine (hostStep_eq (exec_nop (s := s.clearTxFlags) (hs.congr rfl rfl))).trans (congrArg Host.Outcome.next ?_)
  exact (if_pos hbit).trans (State.setFrames_of_idle (s := s.clearTxFlags.sampled.result .fifoFull) hirq rest)

/-- The pulse ends as `CEL` does, and the wait that follows is chosen by the state before it. -/
theorem driverStep_txLower {s t : State} {rest : List DriverFrame} (hirq : s.irqThread = [])
    (ht : s.thread = .txLower :: rest) (h : driverStep s = .next t) :
    ∃ u, exec .cel s = .next u ∧ t = { u with thread := s.waitFrame :: rest } := by
  rw [driverStep_of_idle hirq ht] at h
  obtain ⟨u, hu, rfl⟩ := hostStep_next h
  obtain ⟨-, -, hirqU, -⟩ := exec_host hu
  exact ⟨u, hu, State.setFrames_of_idle (hirqU.trans hirq) _⟩

/-! ### Calls that are turned away -/

/-- R209: the four operations that need a powered block. -/
theorem driverStep_in_powerDown {s : State} (hirq : s.irqThread = []) (hd : s.drvState = .powerDown)
    (rest : List DriverFrame) (bytes : List Byte) (ackReq : Bool) (p : Pipe) :
    (s.thread = .txStart bytes ackReq :: rest → driverStep s = .fault (.driverMisuse .transmit)) ∧
    (s.thread = .modeStart .enterReceive :: rest → driverStep s = .fault (.driverMisuse .enterReceiveMode)) ∧
    (s.thread = .modeStart .enterTransmit :: rest → driverStep s = .fault (.driverMisuse .enterTransmitMode)) ∧
    (s.thread = .ackPayload p bytes :: rest → driverStep s = .fault (.driverMisuse .setAckPayload)) := by
  refine ⟨fun ht => ?_, fun ht => ?_, fun ht => ?_, fun ht => ?_⟩ <;> rw [driverStep_of_idle hirq ht]
  · exact if_pos hd
  · simp [runFrame, ModeOp.misuse, hd]
  · simp [runFrame, ModeOp.misuse, hd]
  · exact if_pos hd

/-- Settles O58: guard by guard; `init` accepts what is valid, and the wait of `transmit` follows its flags. -/
theorem operationGuards : Obligations.OperationGuards := by
  refine ⟨fun s rest bytes ackReq p hirq hd => driverStep_in_powerDown hirq hd rest bytes ackReq p,
    fun s rest r hirq ht => ?init, fun s c ht => ?busy, fun s rest hirq ht => ?wait, fun s rest hirq ht => ?stuck,
    fun s t rest hirq ht h => ?lower, fun s rest bytes ackReq hs hirq ht => driverStep_txProbe_full hs hirq ht⟩
  case init =>
    refine ⟨fun hbad => driverStep_initStart_invalid hirq ht (r.not_valid_iff.2 hbad), fun hgood hce hm => ?_⟩
    have hvalid : r.valid = true := of_not_not (mt r.not_valid_iff.1 hgood)
    refine ⟨_, driverStep_initStart_valid hirq ht hvalid hce hm, ⟨_, _, rfl⟩, rfl, fun p => ?_⟩
    rw [PipeTable.get_program]
    exact r.programPipe_eq s.cfg.regMap p _
  case busy => simp [callStep, ht]
  case wait =>
    rw [driverStep_of_idle hirq ht]
    refine ⟨fun hack => congrArg _ (State.waitStep_acknowledged rest hirq hack),
      fun hack hmax => congrArg _ (State.waitStep_maxRetries rest hirq hack hmax),
      fun hack hmax => congrArg _ ((State.waitStep_no_flag rest hack hmax).trans (State.waitOn_of_idle hirq ht))⟩
  case stuck => exact (driverStep_of_idle hirq ht).trans (congrArg _ (State.waitOn_of_idle hirq ht))
  case lower => exact s.waitFrame_eq ▸ driverStep_txLower hirq ht h

end Sys2Proof.Machine
end

section
/-! PROOFS of the statement about recorded faults (spec/60_exceptions.md R232, R233). -/
namespace Sys2Proof.Machine

theorem busAccess_faulted {a : Access} {s : State} {k : State → Outcome} {r : Fault} (h : s.fault = some r) :
    busAccess a s k = .fault r :=
  unlessFaulted_faulted h

theorem busCommand_faulted {c : BusCmd} {n : Nat} {ok : Bool} {s : State} {k : State → Outcome} {r : Fault}
    (h : s.fault = some r) : busCommand c n ok s k = .fault r :=
  busAccess_faulted h

theorem writePayload_faulted {c : BusCmd} {kind : EntryKind} {ackReq : Bool} {data : List Byte} {s : State}
    {r : Fault} (h : s.fault = some r) : writePayload c kind ackReq data s = .fault r :=
  busCommand_faulted h

/-- Every instruction begins with the check of the fault record (R102, R233). -/
theorem exec_faulted {s : State} {r : Fault} (h : s.fault = some r) (i : Instr) : exec i s = .fault r := by
  cases i with rw [exec]
  | rreg | wreg => exact busAccess_faulted h
  | wtxp | wackp | wtxpna => exact writePayload_faulted h
  | act | rplw | rrxp | fltx | flrx | nop => exact busCommand_faulted h
  | cel | ceh | delay | por => exact unlessFaulted_faulted h

theorem undecoded_faulted {s : State} {r : Fault} (h : s.fault = some r) (e : DecodeError) :
    undecoded e s = .fault r := by
  cases e with rw [undecoded]
  | reservedCommand b => exact busAccess_faulted h
  | noCommandByte => exact unlessFaulted_faulted h

theorem hostFrame_faulted {s : State} {r : Fault} (h : s.fault = some r) (f : HostFrame) :
    hostFrame f s = .fault r := by
  unfold hostFrame
  split
  · exact exec_faulted h _
  · exact undecoded_faulted h _

theorem step_faulted {s : State} {r : Fault} (h : s.fault = some r) : step s = .fault r := by
  rw [step]
  exact unlessFaulted_faulted h

/-- The first reason is kept (R232). -/
theorem State.recordFault_faulted {s : State} {r : Fault} (h : s.fault = some r) (q : Fault) :
    s.recordFault q = s := by
  unfold State.recordFault
  rw [h, Option.getD_some, ← h]

theorem State.recordFault_unfaulted {s : State} (h : s.fault = none) (r : Fault) :
    s.recordFault r = { s with fault := some r } := by
  unfold State.recordFault
  rw [h, Option.getD_none]

/-- Settles O6: whatever an agent does begins with the check of the fault record. -/
theorem faultIsFinal : Obligations.FaultIsFinal :=
  ⟨fun _ _ h => ⟨step_faulted h, exec_faulted h, hostFrame_faulted h, State.recordFault_faulted h⟩,
    fun _ r h => State.recordFault_unfaulted h r⟩

end Sys2Proof.Machine
end

section
/-! PROOFS of the statement about the two contexts of the host (spec/60_exceptions.md R240, R241;
44_driver_operations.md R209, R210; 70_reset_and_hazards.md R255). -/
namespace Sys2Proof.Machine

/-! ### Which turn is taken -/

theorem step_of_agenda {s : State} {a : Turn} {rest : List Turn} (hf : s.fault = none) (hag : s.agenda = a :: rest) :
    step s = if s.holdsBack a then driverStep s else runTurn a { s with agenda := rest } := by
  rw [step, nextTurn, unlessFaulted_eq hf, hag]

/-- A turn of the normal context is taken only while no interrupt-context pump runs. -/
theorem irqThread_of_not_holdsBack {s : State} {a : Turn} (h : ¬ s.holdsBack a = true)
    (ha : a.isNormalContext = true) : s.irqThread = [] :=
  of_not_not fun hirq => h (holdsBack_of_running hirq ha)

/-- Everything a step is: a step of the sequencer or of the driver, or a turn that the pump does not hold back. -/
theorem step_next {s t : State} (h : step s = .next t) :
    t = s.sequencerStep ∨ driverStep s = .next t ∨
      ∃ a rest, ¬ s.holdsBack a = true ∧ runTurn a { s with agenda := rest } = .next t := by
  rw [step, nextTurn] at h
  obtain ⟨-, h⟩ := unlessFaulted_next h
  split at h
  · unfold idleStep at h
    split at h
    · injection h with h
      exact .inl h.symm
    · exact .inr (.inl h)
  · split at h
    · exact .inr (.inl h)
    · exact .inr (.inr ⟨_, _, ‹_›, h⟩)

/-- The turns of the normal context but `POR` wait for the interrupt-context pump. -/
theorem isNormalContext_of_waits {a : Turn}
    (h : (∃ f, a = .host f ∧ f ≠ .por) ∨ (∃ c, a = .call c) ∨ a = .abandon) : a.isNormalContext = true := by
  obtain ⟨f, rfl, hf⟩ | ⟨c, rfl⟩ | rfl := h
  · exact (isNormalContext_host f).2 hf
  · rfl
  · rfl

theorem exec_por {s : State} (h : s.fault = none) : exec .por s = .next s.powerOnReset := by
  rw [exec, execPor, unlessFaulted_eq h]

/-- R255: a `POR` at the head of the agenda is taken at once. -/
theorem step_por {s : State} {rest : List Turn} (hf : s.fault = none) (hag : s.agenda = .host .por :: rest) :
    step s = .next { s with agenda := rest }.powerOnReset := by
  rw [step_of_agenda hf hag, holdsBack_por]
  exact exec_por (s := { s with agenda := rest }) hf

/-! ### The interrupt and the abandoned wait -/

/-- The interrupt callback may be entered (R240, R241, R244). -/
def State.MayInterrupt (s : State) : Prop :=
  s.cfg.pumpCaller = .interrupt ∧ s.irqLine = false ∧ s.irqThread = [] ∧
    (s.thread = [] ∨ ∃ f rest, s.thread = f :: rest ∧ (f = .txWait ∨ f = .txStuck))

theorem State.mayInterrupt_iff (s : State) :
    s.MayInterrupt ↔
      (s.cfg.pumpCaller == .interrupt && !s.irqLine && s.irqThread.isEmpty && s.interruptible) = true := by
  simp only [State.MayInterrupt, ← s.interruptible_iff, Bool.and_eq_true, beq_iff_eq, Bool.not_eq_true',
    List.isEmpty_iff, and_assoc]

theorem State.irqStep_of_mayInterrupt {s : State} (h : s.MayInterrupt) :
    s.irqStep = { s with irqThread := [.pumpRead] } :=
  if_pos (s.mayInterrupt_iff.1 h)

theorem State.irqStep_of_not_mayInterrupt {s : State} (h : ¬ s.MayInterrupt) : s.irqStep = s :=
  if_neg (mt s.mayInterrupt_iff.2 h)

theorem State.abandonStep_of_wait {s : State} {f : DriverFrame} {rest : List DriverFrame} (ht : s.thread = f :: rest)
    (hf : f = .txWait ∨ f = .txStuck) :
    s.abandonStep = { s with thread := [], opResult := none, drvState := .standby } := by
  rw [State.abandonStep, ht]
  exact if_pos (f.isWait_iff.2 hf)

/-- A wait that is given up ends as `abandonStep_of_wait` says; anything else goes on. -/
theorem State.abandonStep_cases (s : State) :
    s.abandonStep = s ∨ s.abandonStep = { s with thread := [], opResult := none, drvState := .standby } := by
  unfold State.abandonStep
  split
  · split
    · exact .inr rfl
    · exact .inl rfl
  · exact .inl rfl

/-! ### What leaves the host programs alone -/

/-- The two states agree on the parameters, the host programs and the driver's record. -/
structure SamePrograms (s t : State) : Prop where
  cfg       : t.cfg = s.cfg
  thread    : t.thread = s.thread
  irqThread : t.irqThread = s.irqThread
  drvState  : t.drvState = s.drvState

theorem SamePrograms.refl (s : State) : SamePrograms s s := ⟨rfl, rfl, rfl, rfl⟩

theorem samePrograms_exec {i : Instr} {s t : State} (h : exec i s = .next t) : SamePrograms s t := by
  obtain ⟨hcfg, hthread, hirq, hdrv⟩ := exec_host h
  exact ⟨hcfg, hthread, hirq, hdrv⟩

theorem samePrograms_hostFrame {f : HostFrame} {s t : State} (h : hostFrame f s = .next t) : SamePrograms s t := by
  unfold hostFrame at h
  split at h
  · exact samePrograms_exec h
  · rename_i e _
    cases e with rw [undecoded] at h
    | reservedCommand b => cases (busAccess_next h).2
    | noCommandByte =>
      injection (unlessFaulted_next h).2 with h
      exact h ▸ .refl s

theorem samePrograms_endAttempt (s : State) (n : Nat) (e : TxEntry) : SamePrograms s (s.endAttempt n e) := by
  unfold State.endAttempt
  split <;> exact ⟨rfl, rfl, rfl, rfl⟩

theorem samePrograms_sequencerStep (s : State) : SamePrograms s s.sequencerStep := by
  unfold State.sequencerStep
  split
  · exact ⟨rfl, rfl, rfl, rfl⟩
  · split
    · split
      · exact samePrograms_endAttempt s _ _
      · exact .refl s
    · exact .refl s

theorem samePrograms_completeBurst_takeAckPayload (s : State) (payload : Option (List Byte)) :
    SamePrograms s (s.completeBurst.takeAckPayload payload) := by
  unfold State.takeAckPayload
  split
  · split <;> exact ⟨rfl, rfl, rfl, rfl⟩
  · exact ⟨rfl, rfl, rfl, rfl⟩

theorem samePrograms_ackStep (s : State) (payload : Option (List Byte)) : SamePrograms s (s.ackStep payload) := by
  unfold State.ackStep
  split
  · split
    · exact samePrograms_completeBurst_takeAckPayload s payload
    · exact .refl s
  · exact .refl s
  · exact .refl s

theorem samePrograms_timeoutStep (s : State) : SamePrograms s s.timeoutStep := by
  unfold State.timeoutStep
  split
  · split
    · split <;> exact ⟨rfl, rfl, rfl, rfl⟩
    · exact .refl s
  · exact .refl s
  · exact .refl s

theorem samePrograms_accept (s : State) (k : AirPacket) (p : Pipe) : SamePrograms s (s.accept k p) := by
  unfold State.accept
  split
  · unfold State.acknowledgeNew
    split <;> exact ⟨rfl, rfl, rfl, rfl⟩
  · exact ⟨rfl, rfl, rfl, rfl⟩

/-- An acknowledgment of a duplicate, or of a frame dropped for want of room. -/
theorem samePrograms_emitAck_if (s : State) (p : Pipe) (c : Prop) [Decidable c] :
    SamePrograms s (if c then s.emitAck p none else s) := by
  split <;> exact ⟨rfl, rfl, rfl, rfl⟩

theorem samePrograms_offerStep (s : State) (k : AirPacket) : SamePrograms s (s.offerStep k) := by
  unfold State.offerStep
  split
  · split
    · exact .refl s
    · split
      · exact .refl s
      · split
        · exact samePrograms_emitAck_if s _ _
        · split
          · exact samePrograms_emitAck_if s _ _
          · exact samePrograms_accept s k _
  · exact .refl s

theorem samePrograms_framingStep (s : State) (p : Pipe) : SamePrograms s (s.framingStep p) := by
  unfold State.framingStep
  split <;> exact ⟨rfl, rfl, rfl, rfl⟩

/-! ### The laws of the host side -/

theorem State.hostOk_reset : State.reset.HostOk := ⟨nofun, nofun, fun h => absurd rfl h⟩

theorem State.HostOk.congr {s t : State} (h : s.HostOk) (e : SamePrograms s t) : t.HostOk := by
  refine ⟨?_, ?_, ?_⟩
  · rw [e.drvState, e.thread]
    exact h.record
  · rw [e.irqThread]
    exact h.pump
  · rw [e.irqThread, e.cfg, e.thread]
    exact h.point

/-- Without an interrupt-context pump only the law of the driver's record says anything. -/
theorem State.hostOk_of_idle {s : State} (hirq : s.irqThread = [])
    (h : s.drvState = .activeTransmit → ∃ f ∈ s.thread, f.InTransmit) : s.HostOk :=
  ⟨h, by simp [hirq], fun hne => absurd hirq hne⟩

/-- A step of the normal context: a frame of `transmit` is followed by another or ends the record. -/
theorem HostEffect.hostOk_of_idle {f : DriverFrame} {rest : List DriverFrame} {s t : State}
    (he : HostEffect f rest s t) (h : s.HostOk) (hirq : s.irqThread = []) (ht : s.thread = f :: rest) : t.HostOk := by
  obtain ⟨fs, u, -, -, huirq, hthread, hirqT, hrecord, -⟩ := he
  rw [State.setFrames_of_idle (huirq.trans hirq)] at hthread hirqT
  refine State.hostOk_of_idle (hirqT.trans (huirq.trans hirq)) fun hactive => ?_
  rw [hthread]
  obtain ⟨g, hg, hin⟩ | ⟨hbefore, hout⟩ := hrecord hactive
  · exact ⟨g, List.mem_append_left _ hg, hin⟩
  · obtain ⟨g, hg, hin⟩ := h.record hbefore
    rw [ht] at hg
    obtain rfl | hg := List.mem_cons.1 hg
    · exact absurd hin hout
    · exact ⟨g, List.mem_append_right _ hg, hin⟩

/-- A step of the interrupt-context pump: it leaves frames of the pump, and the normal context alone. -/
theorem HostEffect.hostOk_of_running {f : DriverFrame} {rest : List DriverFrame} {s t : State}
    (he : HostEffect f rest s t) (h : s.HostOk) (hirq : s.irqThread = f :: rest) : t.HostOk := by
  obtain ⟨hf, hrest⟩ := List.forall_mem_cons.1 (hirq ▸ h.pump)
  obtain ⟨fs, u, hcfg, huthread, huirq, hthread, hirqT, -, hpump⟩ := he
  obtain ⟨hdrv, hfs⟩ := hpump hf
  have hthreadT : t.thread = s.thread := by simp [hthread, huirq, hirq, huthread]
  have hirqNew : t.irqThread = fs ++ rest := by simp [hirqT, huirq, hirq]
  refine ⟨?_, ?_, fun _ => ?_⟩
  · rw [hdrv, hthreadT]
    exact h.record
  · rw [hirqNew]
    exact List.forall_mem_append.2 ⟨hfs, hrest⟩
  · rw [hcfg, hthreadT]
    exact h.point (by simp [hirq])

theorem State.HostOk.after_driverStep {s t : State} (h : s.HostOk) (hstep : driverStep s = .next t) : t.HostOk := by
  unfold driverStep at hstep
  split at hstep
  · injection hstep with hstep
    exact hstep ▸ h
  · next f rest hfr =>
    have he := runFrame_host hfr hstep
    unfold State.frames at hfr
    split at hfr
    · next hirq => exact he.hostOk_of_idle h (List.isEmpty_iff.1 hirq) hfr
    · exact he.hostOk_of_running h hfr

theorem State.HostOk.after_callStep {s t : State} {c : DriverCall} (h : s.HostOk) (hirq : s.irqThread = [])
    (hstep : callStep c s = .next t) : t.HostOk := by
  unfold callStep at hstep
  split at hstep
  · next hidle =>
    injection hstep with hstep
    subst hstep
    refine State.hostOk_of_idle hirq fun hactive => ?_
    obtain ⟨f, hf, -⟩ := h.record hactive
    simp [List.isEmpty_iff.1 hidle] at hf
  · cases hstep

theorem State.HostOk.after_irqStep {s : State} (h : s.HostOk) : s.irqStep.HostOk := by
  by_cases hmay : s.MayInterrupt
  · rw [State.irqStep_of_mayInterrupt hmay]
    obtain ⟨hcaller, -, -, hpoint⟩ := hmay
    exact ⟨h.record, List.forall_mem_singleton.2 (.inl rfl), fun _ => ⟨hcaller, hpoint⟩⟩
  · rwa [State.irqStep_of_not_mayInterrupt hmay]

theorem State.HostOk.after_abandonStep {s : State} (h : s.HostOk) (hirq : s.irqThread = []) : s.abandonStep.HostOk := by
  obtain he | he := s.abandonStep_cases
  · rwa [he]
  · rw [he]
    exact State.hostOk_of_idle hirq nofun

/-- Every turn that is taken keeps the laws. -/
theorem State.HostOk.after_runTurn {s t : State} {a : Turn} (h : s.HostOk)
    (hnormal : a.isNormalContext = true → s.irqThread = []) (hstep : runTurn a s = .next t) : t.HostOk := by
  cases a with
  | host f => exact h.congr (samePrograms_hostFrame hstep)
  | call c => exact h.after_callStep (hnormal rfl) hstep
  | driver => exact h.after_driverStep hstep
  | irq => injection hstep with hstep; exact hstep ▸ h.after_irqStep
  | abandon => injection hstep with hstep; exact hstep ▸ h.after_abandonStep (hnormal rfl)
  | sequencer => injection hstep with hstep; exact h.congr (hstep ▸ samePrograms_sequencerStep s)
  | ack payload => injection hstep with hstep; exact h.congr (hstep ▸ samePrograms_ackStep s payload)
  | timeout => injection hstep with hstep; exact h.congr (hstep ▸ samePrograms_timeoutStep s)
  | offer k => injection hstep with hstep; exact h.congr (hstep ▸ samePrograms_offerStep s k)
  | framing p => injection hstep with hstep; exact h.congr (hstep ▸ samePrograms_framingStep s p)

theorem State.HostOk.after_step {s t : State} (h : s.HostOk) (hstep : step s = .next t) : t.HostOk := by
  obtain rfl | hdriver | ⟨a, rest, htaken, hturn⟩ := step_next hstep
  · exact h.congr (samePrograms_sequencerStep s)
  · exact h.after_driverStep hdriver
  · exact (h.congr (t := { s with agenda := rest }) ⟨rfl, rfl, rfl, rfl⟩).after_runTurn
      (irqThread_of_not_holdsBack htaken) hturn

/-- Settles O59: the guard of the interrupt is R241's; a turn of the normal context is held back while the pump runs and
a `POR` never; the laws hold at reset and after every turn that is taken. -/
theorem hostContexts : Obligations.HostContexts := by
  refine ⟨fun s => ⟨State.irqStep_of_mayInterrupt, State.irqStep_of_not_mayInterrupt⟩,
    fun s a rest hf hirq hag hwaits => ?waits, fun s rest hf hag => ?por,
    fun s f rest ht hf => State.abandonStep_of_wait ht hf, State.hostOk_reset, fun s t => State.HostOk.after_step⟩
  case waits =>
    rw [step_of_agenda hf hag, if_pos (holdsBack_of_running hirq (isNormalContext_of_waits hwaits))]
  case por => exact ⟨_, step_por hf hag, rfl, rfl, rfl, rfl, rfl, rfl, rfl⟩

end Sys2Proof.Machine
end

section
/-! PROOFS. What `POR` leaves (spec/70_reset_and_hazards.md R255), and that the initial state of every execution is
such a state. -/
namespace Sys2Proof.Machine

/-- R255: the initial state is one that a `POR` leaves. -/
theorem State.powerOnReset_reset : State.reset.powerOnReset = State.reset := rfl

theorem exec_por_reset : exec .por State.reset = .next State.reset := by
  rw [exec_por (s := State.reset) rfl, State.powerOnReset_reset]

/-- Settles O34: without a fault `POR` is the power-on reset in any state, and the initial state is a fixed point of
it. -/
theorem porResets : Obligations.PorResets := by
  refine ⟨fun s hf => ?anyState, exec_por_reset, ?initial⟩
  case anyState => exact exec_por hf
  case initial => exact ⟨rfl, rfl, rfl, rfl, rfl, rfl⟩

end Sys2Proof.Machine
end

section
/-! PROOFS of the statements about the encoding (spec/30_encoding.md R84 to R88, R93). -/
namespace Sys2Proof

/-! ### The operand fields of a command byte -/

/-- The low five bits are the address, whatever stands above them (R84, R86). -/
theorem addrField_append (x : BitVec 3) (a : RegAddr) : addrField (x ++ a) = a :=
  BitVec.extractLsb'_append_eq_right

/-- The low three bits are the pipe; no pipe number is lost in them (R86). -/
theorem pipeField_append (x : BitVec 5) (p : Pipe) : pipeField (x ++ BitVec.ofNat 3 p.val) = some p := by
  have hlow : ((x ++ BitVec.ofNat 3 p.val).extractLsb' 0 3).toNat = p.val := by
    rw [BitVec.extractLsb'_append_eq_right, BitVec.toNat_ofNat, Nat.mod_eq_of_lt (by omega)]
  unfold pipeField
  rw [dif_pos (hlow.trans_lt p.isLt)]
  exact congrArg some (Fin.ext hlow)

@[simp] theorem idleBytes_length (n : Nat) : (idleBytes n).length = n := List.length_replicate

/-! ### What a bus transaction decodes to -/

/-- The instruction a bus command is, with the operands its byte and its data carry (R84 to R87). -/
def busInstr (b : Byte) (data : List Byte) : BusCmd → Except DecodeError Instr
  | .rreg => .ok (.rreg (addrField b) data.length)
  | .wreg => .ok (.wreg (addrField b) data)
  | .act => .ok (.act data)
  | .rplw => .ok (.rplw data.length)
  | .rrxp => .ok (.rrxp data.length)
  | .wtxp => .ok (.wtxp data)
  | .wackp => ((pipeField b).map (Instr.wackp · data)).elim (.error (.reservedCommand b)) .ok
  | .wtxpna => .ok (.wtxpna data)
  | .fltx => .ok (.fltx data.length)
  | .flrx => .ok (.flrx data.length)
  | .nop => .ok (.nop data.length)

theorem decodeBus_of_commandOf {b : Byte} {c : BusCmd} (h : commandOf b = some c) (data : List Byte) :
    decodeBus b data = busInstr b data c := by
  unfold decodeBus
  rw [h]
  cases c with
  | wackp => cases hp : pipeField b <;> simp [busInstr, hp]
  | _ => rfl

/-- Settles O1: the byte of an instruction selects its own row, and each operand is read from where it was put. -/
theorem decodeOfEncode : Obligations.DecodeOfEncode := by
  intro i
  cases i with
  | rreg a n =>
    refine (decodeBus_of_commandOf (Laws.Opcode.rreg a n).1 _).trans ?_
    rw [busInstr, addrField_append, idleBytes_length]
  | wreg a data =>
    refine (decodeBus_of_commandOf (Laws.Opcode.wreg a data).1 _).trans ?_
    rw [busInstr, addrField_append]
  | wackp p data =>
    refine (decodeBus_of_commandOf (Laws.Opcode.wackp p data).1 _).trans ?_
    rw [busInstr, pipeField_append]
    rfl
  | rplw n => exact (decodeBus_of_commandOf (Laws.Opcode.rplw n).1 _).trans (by rw [busInstr, idleBytes_length])
  | rrxp n => exact (decodeBus_of_commandOf (Laws.Opcode.rrxp n).1 _).trans (by rw [busInstr, idleBytes_length])
  | fltx n => exact (decodeBus_of_commandOf (Laws.Opcode.fltx n).1 _).trans (by rw [busInstr, idleBytes_length])
  | flrx n => exact (decodeBus_of_commandOf (Laws.Opcode.flrx n).1 _).trans (by rw [busInstr, idleBytes_length])
  | nop n => exact (decodeBus_of_commandOf (Laws.Opcode.nop n).1 _).trans (by rw [busInstr, idleBytes_length])
  | act | wtxp | wtxpna | cel | ceh | delay | por => rfl

/-! ### The rows do not overlap -/

/-- Two rows that share a byte agree on the bits both of them fix, and no two rows of the map do. -/
theorem opcodeRow_unique {q r : OpcodeRow} {b : Byte} (hq : q ∈ opcodeRows) (hr : r ∈ opcodeRows)
    (hqb : q.selects b = true) (hrb : r.selects b = true) : q = r := by
  have hrows : ∀ q ∈ opcodeRows, ∀ r ∈ opcodeRows, q.pattern &&& r.mask = r.pattern &&& q.mask → q = r := by decide
  refine hrows q hq r hr ?_
  rw [← eq_of_beq hqb, ← eq_of_beq hrb, BitVec.and_assoc, BitVec.and_assoc, BitVec.and_comm q.mask]

/-- In whatever order the rows stand, the first that selects a byte is the one row that does. -/
theorem find?_selects_eq {rows : List OpcodeRow} {r : OpcodeRow} {b : Byte} (hrows : ∀ q ∈ rows, q ∈ opcodeRows)
    (hr : r ∈ rows) (hrb : r.selects b = true) : rows.find? (fun q => q.selects b) = some r := by
  obtain ⟨q, hq⟩ := Option.isSome_iff_exists.1 (List.find?_isSome (p := fun q => q.selects b) |>.2 ⟨r, hr, hrb⟩)
  have hmem := List.mem_of_find?_eq_some hq
  have hsel := List.find?_some hq
  rw [hq, opcodeRow_unique (hrows q hmem) (hrows r hr) hsel hrb]

/-- Settles O4: the row that selects the byte is found in the permutation and in the map itself. -/
theorem opcodeRowsDisjoint : Obligations.OpcodeRowsDisjoint := by
  intro r b rows hperm hr hrb
  have hfound : ∀ l : List OpcodeRow, l.Perm opcodeRows →
      (l.find? (fun q => q.selects b)).map OpcodeRow.cmd = some r.cmd := fun l hl => by
    rw [find?_selects_eq (fun q hq => hl.mem_iff.1 hq) (hl.mem_iff.2 (hperm.mem_iff.1 hr)) hrb, Option.map_some]
  exact ⟨hfound rows hperm, hfound opcodeRows (.refl _)⟩

/-- Settles O2: the words are closed terms; the decoder runs on each. -/
theorem sampleWordsDecode : Obligations.SampleWordsDecode := by
  refine ⟨?_, ?_, ?_, ?_, ?_, ?_, ?_, ?_, ?_, ?_, ?_, ?_, ?_⟩ <;> rfl

end Sys2Proof
end

section
/-! PROOFS of the statement that every step keeps the invariant (spec/10_state.md sections 2 to 6,
43_sequencer.md R199). -/
namespace Sys2Proof.Machine

/-! ### What the invariant speaks of -/

/-- The two states agree on every field the invariant speaks of. -/
structure SameGuarded (s t : State) : Prop where
  cfg       : t.cfg = s.cfg
  regs      : t.regs = s.regs
  txf       : t.txf = s.txf
  rxf       : t.rxf = s.rxf
  nextId    : t.nextId = s.nextId
  seq       : t.seq = s.seq
  retry     : t.retry = s.retry
  settleUs  : t.settleUs = s.settleUs
  maxRt     : t.maxRt = s.maxRt
  txTrigger : t.txTrigger = s.txTrigger
  bank      : t.bank = s.bank
  tune      : t.tune = s.tune

theorem SameChip.guarded {s t : State} (h : SameChip s t) : SameGuarded s t :=
  ⟨h.cfg, h.regs, h.txf, h.rxf, h.nextId, h.seq, h.retry, h.settleUs, h.maxRt, h.txTrigger, h.bank, h.tune⟩

/-- What keeps a burst going: power, direction, budget and trigger stay, a settled block stays settled, a clear
max-retries bit clear, and a data packet queued. -/
structure KeepsBurst (s t : State) : Prop where
  powered   : t.bit .pwrUp = s.bit .pwrUp
  transmit  : t.bit .primRx = s.bit .primRx
  budget    : t.field .arc = s.field .arc
  settled   : s.settleUs = 0 → t.settleUs = 0
  noMaxRt   : s.maxRt = false → t.maxRt = false
  hasCur    : s.cur.isSome → t.cur.isSome
  noTrigger : t.txTrigger = s.txTrigger

theorem State.InBurst.congr {s t : State} {n : Nat} (h : s.InBurst n) (hk : KeepsBurst s t) (hretry : t.retry = n) :
    t.InBurst n where
  powered := hk.powered.trans h.powered
  transmit := hk.transmit.trans h.transmit
  settled := hk.settled h.settled
  noMaxRt := hk.noMaxRt h.noMaxRt
  hasCur := hk.hasCur h.hasCur
  noTrigger := hk.noTrigger.trans h.noTrigger
  retries := hretry
  budget := hk.budget ▸ h.budget

theorem State.phaseOk_of_idle {s : State} (hseq : s.seq = .idle) (hretry : s.retry = 0) : s.PhaseOk := by
  simpa only [State.PhaseOk, hseq] using hretry

theorem State.PhaseOk.retry_of_idle {s : State} (h : s.PhaseOk) (hseq : s.seq = .idle) : s.retry = 0 := by
  simpa only [State.PhaseOk, hseq] using h

theorem State.PhaseOk.inBurst {s : State} (h : s.PhaseOk) (hseq : s.seq ≠ .idle) :
    ∃ n, (s.seq = .txOnAir n ∨ s.seq = .awaitAck n) ∧ s.InBurst n := by
  unfold State.PhaseOk at h
  split at h
  case h_1 hidle => exact absurd hidle hseq
  case h_2 n hair => exact ⟨n, .inl hair, h⟩
  case h_3 n hwait => exact ⟨n, .inr hwait, h⟩

theorem State.phaseOk_of_inBurst {s : State} {n : Nat} (h : s.InBurst n)
    (hseq : s.seq = .txOnAir n ∨ s.seq = .awaitAck n) : s.PhaseOk := by
  unfold State.PhaseOk
  obtain hseq | hseq := hseq <;> rw [hseq] <;> exact h

theorem State.PhaseOk.congr {s t : State} (h : s.PhaseOk) (hk : KeepsBurst s t) (hseq : t.seq = s.seq)
    (hretry : t.retry = s.retry) : t.PhaseOk := by
  by_cases hidle : s.seq = .idle
  · exact State.phaseOk_of_idle (hseq.trans hidle) (hretry.trans (h.retry_of_idle hidle))
  · obtain ⟨n, hn, hb⟩ := h.inBurst hidle
    exact State.phaseOk_of_inBurst (hb.congr hk (hretry.trans hb.retries)) (hseq ▸ hn)

theorem SameGuarded.field {s t : State} (h : SameGuarded s t) (f : Field) : t.field f = s.field f := by
  simp only [State.field, h.cfg, h.regs]

theorem SameGuarded.bit {s t : State} (h : SameGuarded s t) (f : Field) : t.bit f = s.bit f := by
  simp only [State.bit, h.field]

theorem SameGuarded.keepsBurst {s t : State} (h : SameGuarded s t) : KeepsBurst s t where
  powered := h.bit _
  transmit := h.bit _
  budget := h.field _
  settled := h.settleUs.trans
  noMaxRt := h.maxRt.trans
  hasCur := by simp only [State.cur, h.txf, imp_self]
  noTrigger := h.txTrigger

theorem State.Inv.congr {s t : State} (h : s.Inv) (e : SameGuarded s t) : t.Inv where
  params := e.cfg ▸ h.params
  registers := e.cfg ▸ e.regs ▸ h.registers
  txDepth := e.txf ▸ h.txDepth
  rxDepth := e.rxf ▸ h.rxDepth
  txEntries := e.txf ▸ h.txEntries
  rxEntries := e.rxf ▸ h.rxEntries
  txIds := e.txf ▸ h.txIds
  txFresh := e.txf ▸ e.nextId ▸ h.txFresh
  phase := h.phase.congr e.keepsBurst e.seq e.retry
  trigger := by
    rw [e.txTrigger, e.seq, e.bit, e.bit, e.settleUs]
    exact h.trigger
  oneBank := by
    rw [e.cfg, e.bank]
    exact h.oneBank
  tuneOk := e.tune ▸ h.tuneOk

/-! ### When the sequencer is idle -/

theorem State.Inv.idle_of_unpowered {s : State} (h : s.Inv) (hp : s.bit .pwrUp = false) : s.seq = .idle := by
  by_contra hseq
  obtain ⟨n, -, hb⟩ := h.phase.inBurst hseq
  exact absurd (hb.powered.symm.trans hp) (by decide)

theorem State.Inv.idle_of_not_active {s : State} (h : s.Inv) (ha : s.isActive = false) : s.seq = .idle := by
  by_contra hseq
  obtain ⟨n, -, hb⟩ := h.phase.inBurst hseq
  simp [State.isActive, State.mode_of_burst hb.powered hseq] at ha

theorem State.idle_of_receiving {s : State} (h : s.receiving = true) : s.seq = .idle :=
  ((modeIsFunctionOfState s).2.2.1.1 (s.receiving_iff.1 h).1).2.1

/-- No trigger waits on an unpowered block. -/
theorem State.Inv.noTrigger_of_unpowered {s : State} (h : s.Inv) (hp : s.bit .pwrUp = false) : s.txTrigger = false := by
  rw [← Bool.not_eq_true]
  intro htr
  obtain ⟨-, hon, -⟩ := h.trigger htr
  exact absurd (hon.symm.trans hp) (by decide)

/-! ### The registers -/

theorem rxPw_mem_storedByteRegs : ∀ p : Pipe, .rxPw p ∈ storedByteRegs := by decide

theorem LegalRegs.setRegByte {m : RegMap} {x : Regs} (h : LegalRegs m x) {r : RegName} {v : Byte}
    (hv : illegalValue m r (v &&& implemented m r) = false) :
    LegalRegs m (setRegByte x r (v &&& implemented m r)) where
  reserved q hq := by
    by_cases he : q = r
    · subst he
      rw [regByte_setRegByte_same x _ hq, masked_masked]
    · rw [regByte_setRegByte_ne x _ he]
      exact h.reserved q hq
  addrWidth := by
    show fieldOf m .aw (regByte _ .setupAw) ≠ 0
    by_cases he : RegName.setupAw = r
    · subst he
      rw [regByte_setRegByte_same x _ (by decide)]
      exact ne_of_beq_false hv
    · rw [regByte_setRegByte_ne x _ he]
      exact h.addrWidth
  rxWidths p := by
    by_cases he : RegName.rxPw p = r
    · subst he
      rw [regByte_setRegByte_same x _ (rxPw_mem_storedByteRegs p)]
      exact Nat.not_lt.1 (of_decide_eq_false hv)
    · rw [regByte_setRegByte_ne x _ he]
      exact h.rxWidths p

theorem LegalRegs.setRegBytes {m : RegMap} {x : Regs} (h : LegalRegs m x) (r : RegName) (data : List Byte) :
    LegalRegs m (setRegBytes x r data) where
  reserved q hq := by
    rw [regByte_setRegBytes]
    exact h.reserved q hq
  addrWidth := by
    show fieldOf m .aw (regByte _ .setupAw) ≠ 0
    rw [regByte_setRegBytes]
    exact h.addrWidth
  rxWidths p := by
    rw [regByte_setRegBytes]
    exact h.rxWidths p

/-- A store of registers other than `CONFIG` while no burst runs. -/
theorem State.Inv.withRegs {s : State} (h : s.Inv) {x : Regs} (hx : LegalRegs s.cfg.regMap x)
    (hidle : s.seq = .idle) (hconfig : regByte x .config = regByte s.regs .config) : { s with regs := x }.Inv :=
  have hbit (f : Field) (hf : f.reg = .config) : { s with regs := x }.bit f = s.bit f := by
    simp only [State.bit, State.field, hf, hconfig]
  { h with
    registers := hx
    phase := State.phaseOk_of_idle hidle (h.phase.retry_of_idle hidle)
    trigger := by
      rw [hbit .pwrUp rfl, hbit .primRx rfl]
      exact h.trigger }

theorem State.Inv.storePlain {s : State} (h : s.Inv) {r : RegName} {v : Byte} (hc : r ≠ .config)
    (hidle : s.isActive = false) (hv : illegalValue s.cfg.regMap r (s.masked r v) = false) (data : List Byte) :
    (s.storePlain r v data).Inv := by
  have hseq := h.idle_of_not_active hidle
  unfold State.storePlain
  split
  · exact h.withRegs (h.registers.setRegBytes r data) hseq (regByte_setRegBytes ..)
  · exact h.withRegs (h.registers.setRegByte hv) hseq (regByte_setRegByte_ne _ _ hc.symm)

theorem LegalRegs.storeConfig {s : State} (h : LegalRegs s.cfg.regMap s.regs) (v : Byte) :
    LegalRegs s.cfg.regMap { s.regs with config := s.masked .config v } :=
  h.setRegByte (r := .config) (v := v) rfl

/-- The sequencer idle and no trigger latched: the legal registers, the settling and max-retries may be any. -/
theorem State.Inv.at_rest {s : State} (h : s.Inv) {x : Regs} (hx : LegalRegs s.cfg.regMap x) (us : Nat) (rt : Bool) :
    { s with regs := x, maxRt := rt, seq := .idle, retry := 0, txTrigger := false, settleUs := us }.Inv :=
  { h with
    registers := hx
    phase := State.phaseOk_of_idle rfl rfl
    trigger := fun htr => absurd htr Bool.false_ne_true }

/-- A write of `CONFIG` that keeps power and direction keeps what a burst needs. -/
theorem State.Inv.storeConfig {s : State} (h : s.Inv) {v : Byte}
    (hp : bitOf s.cfg.regMap .pwrUp (s.masked .config v) = s.bit .pwrUp)
    (hrx : bitOf s.cfg.regMap .primRx (s.masked .config v) = s.bit .primRx) :
    (s.storeConfig (s.masked .config v)).Inv :=
  have hk : KeepsBurst s (s.storeConfig (s.masked .config v)) := ⟨hp, hrx, rfl, id, id, id, rfl⟩
  { h with
    registers := h.registers.storeConfig v
    phase := h.phase.congr hk rfl rfl
    trigger := by
      rw [hk.powered, hk.transmit]
      exact h.trigger }

/-- R111: a write that turns the power on or off, or the direction of a block that rests, leaves the sequencer idle; any
other keeps what a burst needs. -/
theorem State.Inv.after_writeConfig {s t : State} (h : s.Inv) {v : Byte} (hw : writeConfig v s = .next t) :
    t.Inv := by
  have rests := h.at_rest (h.registers.storeConfig v)
  obtain ⟨hcalm, ⟨hold, -, -, rfl⟩ | ⟨-, -, rfl⟩ | ⟨hsame, rfl⟩⟩ := writeConfig_next hw
  case inl =>
    have hseq := h.idle_of_unpowered hold
    refine (rests s.cfg.tPwrup s.maxRt).congr ?_
    constructor <;> simp [hseq, h.phase.retry_of_idle, h.noTrigger_of_unpowered hold]
  case inr.inl =>
    refine (rests 0 s.maxRt).congr ?_
    constructor <;> simp +contextual [h.phase.retry_of_idle]
  case inr.inr =>
    by_cases hturn : bitOf s.cfg.regMap .primRx (s.masked .config v) = s.bit .primRx
    · exact h.storeConfig hsame.symm hturn
    · have hrest : ¬ (s.ce = true ∨ s.seq ≠ .idle ∨ s.txTrigger = true) := fun hbusy => hcalm ⟨hturn, hbusy⟩
      simp only [not_or, not_not, Bool.not_eq_true] at hrest
      obtain ⟨-, hseq, htr⟩ := hrest
      refine (rests s.settleUs s.maxRt).congr ?_
      constructor <;> simp [hseq, htr, h.phase.retry_of_idle]

/-! ### The queues -/

theorem State.Inv.withRxf {s : State} (h : s.Inv) {l : List RxEntry} (hdepth : l.length ≤ fifoDepth)
    (hentries : ∀ e ∈ l, e.Ok) : { s with rxf := l }.Inv :=
  { h with
    rxDepth := hdepth
    rxEntries := hentries
    phase := h.phase.congr ⟨rfl, rfl, rfl, id, id, id, rfl⟩ rfl rfl }

/-- Entries leave the RX FIFO. -/
theorem State.Inv.dropRx {s : State} (h : s.Inv) {l : List RxEntry} (hl : l.Sublist s.rxf) : { s with rxf := l }.Inv :=
  h.withRxf (hl.length_le.trans h.rxDepth) fun e he => h.rxEntries e (hl.subset he)

theorem State.Inv.pushRx {s : State} (h : s.Inv) {e : RxEntry} (hroom : s.rxf.length ≠ 3) (he : e.Ok) :
    (s.pushRx e).Inv := by
  have hdepth : (s.rxf ++ [e]).length ≤ fifoDepth := by
    rw [List.length_append, List.length_singleton]
    exact Nat.lt_of_le_of_ne h.rxDepth hroom
  have hentries : ∀ f ∈ s.rxf ++ [e], f.Ok := by
    simpa [or_imp, forall_and] using And.intro h.rxEntries he
  exact (h.withRxf hdepth hentries).congr (by constructor <;> rfl)

/-- A packet received whole: its length is its width (10 R41). -/
theorem rxEntry_ok {bytes : List Byte} (h : bytes.length ≤ maxPayload) (p : Pipe) : (rxEntry p bytes).Ok := by
  have hlt : bytes.length < 2 ^ 8 := h.trans_lt (by decide)
  exact ⟨h, .inl ((BitVec.toNat_ofNat ..).trans (Nat.mod_eq_of_lt hlt))⟩

/-- A burst's packet stays the first data entry while entries are appended. -/
theorem State.cur_pushTx {s : State} (h : s.cur.isSome) (kind : EntryKind) (bytes : List Byte) (ackReq : Bool) :
    (s.pushTx kind bytes ackReq).cur.isSome := by
  rw [State.cur_isSome] at h ⊢
  simp [h]

theorem State.Inv.pushTx {s : State} (h : s.Inv) {bytes : List Byte} (hroom : s.txFull = false)
    (hlen : bytes.length ≤ maxPayload) (kind : EntryKind) (ackReq : Bool) : (s.pushTx kind bytes ackReq).Inv :=
  { h with
    txDepth := by
      rw [State.pushTx_txf, List.length_append, List.length_singleton]
      exact Nat.lt_of_le_of_ne h.txDepth (beq_eq_false_iff_ne.1 hroom)
    txEntries := by simpa [or_imp, forall_and] using And.intro h.txEntries hlen
    txIds := by simpa [List.pairwise_append] using And.intro h.txIds h.txFresh
    txFresh := by
      simpa [or_imp, forall_and] using fun e he => Nat.lt_succ_of_lt (h.txFresh e he)
    phase := h.phase.congr ⟨rfl, rfl, rfl, id, id, fun hcur => State.cur_pushTx hcur kind bytes ackReq, rfl⟩ rfl rfl }

/-- Entries leave the TX FIFO, with no burst left that needs one. -/
theorem State.Inv.dropTx {s : State} (h : s.Inv) {l : List TxEntry} (hl : l.Sublist s.txf) (hidle : s.seq = .idle) :
    { s with txf := l }.Inv :=
  { h with
    txDepth := hl.length_le.trans h.txDepth
    txEntries := fun e he => h.txEntries e (hl.subset he)
    txIds := h.txIds.sublist hl
    txFresh := fun e he => h.txFresh e (hl.subset he)
    phase := State.phaseOk_of_idle hidle (h.phase.retry_of_idle hidle) }

theorem State.Inv.flushTx {s : State} (h : s.Inv) : s.flushTx.Inv := by
  refine ((h.at_rest h.registers s.settleUs s.maxRt).dropTx (List.nil_sublist _) rfl).congr ?_
  constructor <;> simp +contextual [h.phase.retry_of_idle]

/-! ### The instructions -/

theorem SameChip.inv {s t : State} (e : SameChip s t) (h : s.Inv) : t.Inv := h.congr e.guarded

theorem State.Inv.sampled {s : State} (h : s.Inv) : s.sampled.Inv := (sameChip_sampled s).inv h

theorem ReadOnly.sameChip {s t : State} (h : ReadOnly s t) : SameChip s t := by
  obtain ⟨d, n, rfl⟩ := h
  constructor <;> rfl

theorem State.Inv.after_writeReg {s t : State} (h : s.Inv) {r : RegName} {a : RegAddr} {v : Byte} {data : List Byte}
    (hw : writeReg r a v data s = .next t) : t.Inv := by
  obtain ⟨-, rfl⟩ | ⟨-, hw⟩ | rfl | ⟨hc, -, hidle, hv, rfl⟩ := writeReg_next hw
  · exact
      { h with
        phase := h.phase.congr ⟨rfl, rfl, rfl, id, fun hrt => by simp [hrt], id, rfl⟩ rfl rfl }
  · exact h.after_writeConfig hw
  · exact h
  · exact h.storePlain hc hidle hv data

theorem State.Inv.tuneWrite {s : State} (h : s.Inv) (a : RegAddr) (data : List Byte) : (s.tuneWrite a data).Inv :=
  { h with
    phase := h.phase.congr ⟨rfl, rfl, rfl, id, id, id, rfl⟩ rfl rfl
    tuneOk := tuneSet_wf a.toNat data h.tuneOk }

theorem State.Inv.after_execWreg {s t : State} (h : s.Inv) {a : RegAddr} {data : List Byte}
    (hw : execWreg a data s = .next t) : t.Inv := by
  obtain ⟨-, ⟨-, rfl⟩ | ⟨-, r, -, -, ⟨-, rfl⟩ | ⟨v, rest, -, hw⟩⟩⟩ := execWreg_next hw
  · exact h.sampled.tuneWrite a data
  · exact h.sampled
  · exact h.sampled.after_writeReg hw

theorem State.Inv.after_activate {s t : State} (h : s.Inv) {m : Byte} (ha : activate m s = .next t) : t.Inv := by
  obtain ⟨-, ⟨-, rfl⟩ | ⟨-, -, hdual, rfl⟩⟩ := activate_next ha
  · exact h.congr (by constructor <;> rfl)
  · exact
      { h with
        phase := h.phase.congr ⟨rfl, rfl, rfl, id, id, id, rfl⟩ rfl rfl
        oneBank := fun hstd => absurd (hdual.symm.trans hstd) (by decide) }

theorem State.Inv.readWidth {s : State} (h : s.Inv) : s.readWidth.Inv := by
  unfold State.readWidth
  split <;> exact h.congr (by constructor <;> rfl)

/-- The head is popped, or the FIFO is empty (41 R132, R133). -/
theorem State.Inv.readPayload {s : State} (h : s.Inv) (n : Nat) : (s.readPayload n).Inv := by
  unfold State.readPayload
  split
  · exact h.congr (by constructor <;> rfl)
  · rename_i e rest hrxf
    exact (h.dropRx (hrxf ▸ List.sublist_cons_self e rest)).congr (by constructor <;> rfl)

/-- The pulse that `CEL` ends latches the trigger of a block that could start a burst (42 R158). -/
theorem State.Inv.after_execCel {s t : State} (h : s.Inv) (hc : execCel s = .next t) : t.Inv := by
  obtain ⟨-, ⟨-, rfl⟩ | ⟨-, hpulse, -, rfl⟩ | ⟨-, -, rfl⟩⟩ := execCel_next hc
  · exact h
  · obtain ⟨hp, hrx, hs, hseq, -⟩ := s.endsPulse_iff.1 hpulse
    exact
      { h with
        phase := State.phaseOk_of_idle hseq (h.phase.retry_of_idle hseq)
        trigger := fun _ => ⟨hseq, hp, hrx, hs⟩ }
  · exact h.congr (by constructor <;> rfl)

theorem State.Inv.delayed {s : State} (h : s.Inv) (us : Nat) : (s.delayed us).Inv :=
  have hsettled (hs : s.settleUs = 0) : s.settleUs - us = 0 := by rw [hs, Nat.zero_sub]
  { h with
    phase := h.phase.congr ⟨rfl, rfl, rfl, hsettled, id, id, rfl⟩ rfl rfl
    trigger := fun htr =>
      have ⟨hseq, hp, hrx, hs⟩ := h.trigger htr
      ⟨hseq, hp, hrx, hsettled hs⟩ }

theorem State.Inv.powerOnReset {s : State} (h : s.Inv) : s.powerOnReset.Inv where
  params := h.params
  registers := h.params.resetRegs
  txDepth := Nat.zero_le _
  rxDepth := Nat.zero_le _
  txEntries := by simp
  rxEntries := by simp
  txIds := .nil
  txFresh := by simp
  phase := State.phaseOk_of_idle rfl rfl
  trigger htr := absurd htr Bool.false_ne_true
  oneBank _ := rfl
  tuneOk := tuneWf_nil

theorem State.Inv.after_exec {s t : State} (h : s.Inv) {i : Instr} (he : exec i s = .next t) : t.Inv := by
  cases i with
  | rreg => exact (execRreg_next he).2.sameChip.inv h
  | wreg => exact h.after_execWreg he
  | act => exact h.sampled.after_activate (execAct_next he).2.2
  | rplw => obtain ⟨-, -, rfl⟩ := execRplw_next he; exact h.sampled.readWidth
  | rrxp n => obtain ⟨-, -, rfl⟩ := execRrxp_next he; exact h.sampled.readPayload n
  | wtxp | wackp | wtxpna =>
    obtain ⟨-, hlen, hroom, rfl⟩ := writePayload_next he
    exact h.sampled.pushTx hroom hlen _ _
  | fltx => obtain ⟨-, -, rfl⟩ := execFltx_next he; exact h.sampled.flushTx
  | flrx => obtain ⟨-, -, rfl⟩ := execFlrx_next he; exact h.sampled.dropRx (List.nil_sublist _)
  | nop => obtain ⟨-, -, rfl⟩ := execNop_next he; exact h.sampled
  | cel => exact h.after_execCel he
  | ceh => obtain ⟨-, ⟨-, rfl⟩ | ⟨-, -, -, rfl⟩⟩ := execCeh_next he <;> exact h.congr (by constructor <;> rfl)
  | delay us => obtain ⟨-, rfl⟩ := execDelay_next he; exact h.delayed us
  | por => obtain ⟨-, rfl⟩ := execPor_next he; exact h.powerOnReset

/-! ### The sequencer -/

theorem State.Inv.startBurst {s : State} (h : s.Inv) (hstart : s.canStart = true) : s.startBurst.Inv := by
  obtain ⟨hp, hs, hrx, -, hrt, hdata, -⟩ := s.canStart_iff.1 hstart
  have hcur : s.cur.isSome := by simpa [State.cur_isSome, TxEntry.isData_iff] using hdata
  have hb : s.startBurst.InBurst 0 := ⟨hp, hrx, hs, hrt, hcur, rfl, rfl, Nat.zero_le _⟩
  exact
    { h with
      phase := State.phaseOk_of_inBurst hb (.inl rfl)
      trigger := fun htr => absurd htr Bool.false_ne_true }

/-- The sequencer rests, whatever entries leave the TX FIFO. -/
theorem State.Inv.end_burst {s : State} (h : s.Inv) {l : List TxEntry} (hl : l.Sublist s.txf) (rt : Bool) :
    { s with txf := l, maxRt := rt, seq := .idle, retry := 0, txTrigger := false }.Inv :=
  (h.at_rest h.registers s.settleUs rt).dropTx hl rfl

theorem State.Inv.completeBurst {s : State} (h : s.Inv) (htr : s.txTrigger = false) : s.completeBurst.Inv := by
  refine (h.end_burst (List.eraseP_sublist (p := TxEntry.isData)) s.maxRt).congr ?_
  constructor <;> simp [htr]

theorem State.Inv.emit {s : State} (h : s.Inv) (e : Emission) : (s.emit e).Inv := h.congr (by constructor <;> rfl)

/-- A burst under way goes on in another phase of attempt `n`, as the budget allows. -/
theorem State.Inv.goes_on {s : State} {m n : Nat} (h : s.Inv) (hb : s.InBurst m) (hn : n ≤ s.field .arc) {phase : Phase}
    (hphase : phase = .txOnAir n ∨ phase = .awaitAck n) : { s with seq := phase, retry := n }.Inv :=
  have hon : { s with seq := phase, retry := n }.InBurst n :=
    ⟨hb.powered, hb.transmit, hb.settled, hb.noMaxRt, hb.hasCur, hb.noTrigger, rfl, hn⟩
  { h with
    phase := State.phaseOk_of_inBurst hon hphase
    trigger := fun htr => absurd (htr.symm.trans hb.noTrigger) (by decide) }

theorem State.Inv.inBurst_of_onAir {s : State} {n : Nat} (h : s.Inv) (hseq : s.seq = .txOnAir n) : s.InBurst n := by
  simpa only [State.PhaseOk, hseq] using h.phase

theorem State.Inv.inBurst_of_awaiting {s : State} {n : Nat} (h : s.Inv) (hseq : s.seq = .awaitAck n) : s.InBurst n := by
  simpa only [State.PhaseOk, hseq] using h.phase

/-- An attempt that asks for an acknowledgment awaits it; one that asks for none ends the burst (43 R181, R183). -/
theorem State.Inv.endAttempt {s : State} (h : s.Inv) {n : Nat} (hseq : s.seq = .txOnAir n) (e : TxEntry) :
    (s.endAttempt n e).Inv := by
  have hb := h.inBurst_of_onAir hseq
  unfold State.endAttempt
  split
  · exact (h.goes_on hb hb.budget (.inr rfl)).congr
      ⟨rfl, rfl, rfl, rfl, rfl, rfl, hb.retries, rfl, rfl, rfl, rfl, rfl⟩
  · exact (h.emit _).completeBurst hb.noTrigger

theorem State.Inv.sequencerStep {s : State} (h : s.Inv) : s.sequencerStep.Inv := by
  unfold State.sequencerStep
  split
  · exact h.startBurst ‹_›
  · split
    · split
      · exact h.endAttempt ‹_› _
      · exact h
    · exact h

theorem State.Inv.takeAckPayload {s : State} (h : s.Inv) {payload : Option (List Byte)}
    (hlen : payloadOk payload = true) : (s.takeAckPayload payload).Inv := by
  unfold State.takeAckPayload
  split
  · split
    · rename_i bytes hroom
      rw [Bool.and_eq_true, Bool.not_eq_true', State.rxFull_eq_false_iff] at hroom
      exact h.pushRx hroom.2 (rxEntry_ok (of_decide_eq_true hlen) 0)
    · exact h
  · exact h

theorem State.Inv.ackStep {s : State} (h : s.Inv) (payload : Option (List Byte)) : (s.ackStep payload).Inv := by
  unfold State.ackStep
  split
  · split
    · rename_i n hseq hok
      rw [Bool.and_eq_true] at hok
      exact (h.completeBurst (h.inBurst_of_awaiting hseq).noTrigger).takeAckPayload hok.2
    · exact h
  · exact h
  · exact h

/-- The next attempt is within the budget, or the burst ends (43 R186, R187). -/
theorem State.Inv.timeoutStep {s : State} (h : s.Inv) : s.timeoutStep.Inv := by
  unfold State.timeoutStep
  split
  · rename_i n hseq
    have hb := h.inBurst_of_awaiting hseq
    split
    · split
      · exact h.goes_on hb ‹_› (.inl rfl)
      · exact (h.end_burst (.refl _) true).congr
          ⟨rfl, rfl, rfl, rfl, rfl, rfl, rfl, rfl, rfl, hb.noTrigger, rfl, rfl⟩
    · exact h
  · exact h
  · exact h

/-! ### The receive side -/

/-- An acknowledgment payload leaves the TX FIFO of a block that receives, so no burst loses its packet. -/
theorem State.Inv.acknowledgeNew {s : State} (h : s.Inv) (hidle : s.seq = .idle) (p : Pipe) :
    (s.acknowledgeNew p).Inv := by
  unfold State.acknowledgeNew
  split
  · exact (h.dropTx (List.eraseP_sublist (p := TxEntry.isAckFor p)) hidle).congr (by constructor <;> rfl)
  · exact h.emit _

theorem State.Inv.accept {s : State} (h : s.Inv) {k : AirPacket} (hidle : s.seq = .idle) (hroom : s.rxf.length ≠ 3)
    (hlen : k.bytes.length ≤ maxPayload) (p : Pipe) : (s.accept k p).Inv := by
  have hstored : (s.storeFrame k p).Inv := (h.pushRx hroom (rxEntry_ok hlen p)).congr (by constructor <;> rfl)
  unfold State.accept
  split
  · exact hstored.acknowledgeNew hidle p
  · exact hstored

/-- An acknowledgment without payload, of a duplicate or of a frame dropped for want of room. -/
theorem State.Inv.emit_if {s : State} (h : s.Inv) (e : Emission) (c : Prop) [Decidable c] :
    (if c then s.emit e else s).Inv := by
  split
  · exact h.emit e
  · exact h

theorem State.Inv.offerStep {s : State} (h : s.Inv) (k : AirPacket) : (s.offerStep k).Inv := by
  unfold State.offerStep
  split
  · rename_i hrec
    rw [Bool.and_eq_true, decide_eq_true_iff] at hrec
    split
    · exact h
    · rename_i p _
      split
      · exact h
      · split
        · exact h.emit_if _ _
        · split
          · exact h.emit_if _ _
          · rename_i hroom
            exact h.accept (State.idle_of_receiving hrec.1) (mt s.rxFull_iff.2 hroom) hrec.2 p
  · exact h

theorem State.Inv.framingStep {s : State} (h : s.Inv) (p : Pipe) : (s.framingStep p).Inv := by
  by_cases hentry : s.FramingLeavesEntry p
  · have hok : (s.framingEntry p).Ok := by
      refine ⟨s.framingEntry_bytes_length p, .inr ?_⟩
      rw [State.framingEntry_wid_toNat]
      exact Nat.le_add_right ..
    rw [State.framingStep_of_entry hentry]
    obtain ⟨-, -, -, hroom, -⟩ := hentry
    exact (h.pushRx hroom hok).congr (by constructor <;> rfl)
  · rw [State.framingStep_of_no_entry hentry]
    exact h

/-! ### The step -/

theorem State.Inv.after_chipStep {s t : State} (h : s.Inv) (hstep : ChipStep s t) : t.Inv := by
  cases hstep with
  | instr i he => exact h.after_exec he
  | sequencer ht => exact ht ▸ h.sequencerStep
  | ack p ht => exact ht ▸ h.ackStep p
  | timeout ht => exact ht ▸ h.timeoutStep
  | offer k ht => exact ht ▸ h.offerStep k
  | framing p ht => exact ht ▸ h.framingStep p
  | nothing ht => exact ht ▸ h

/-- Settles O50: each thing a step can do to the chip keeps the invariant, which speaks of the chip alone. -/
theorem stepKeepsInv : Obligations.StepKeepsInv := by
  intro s t h hstep
  obtain ⟨-, u, v, hu, huv, hv⟩ := step_chip hstep
  exact hv.inv ((hu.inv h).after_chipStep huv)

end Sys2Proof.Machine
end

section
/-! PROOFS of the statements about what each instruction changes and leaves alone (spec/20_memory.md R73,
10_state.md R25 and sections 2 to 6). -/
namespace Sys2Proof.Machine

/-! ### The footprint of an instruction -/

/-- The fields an instruction may change; what `WREG` and `POR` store in them is said elsewhere. -/
def Footprint (s t : State) : Instr → Prop
  | .rreg _ _ | .rplw _ => ∃ reply draws, t = { s with reply := reply, draws := draws }
  | .wreg _ _ => ∃ reply regs rxDr txDs maxRt seq retry txTrigger settleUs tune,
      t = { s with
        reply := reply, regs := regs, rxDr := rxDr, txDs := txDs, maxRt := maxRt, seq := seq, retry := retry
        txTrigger := txTrigger, settleUs := settleUs, tune := tune }
  | .act _ => ∃ reply locked bank, t = { s with reply := reply, featureLocked := locked, bank := bank }
  | .rrxp _ => ∃ reply draws rxf, t = { s with reply := reply, draws := draws, rxf := rxf }
  | .wtxp _ | .wackp _ _ | .wtxpna _ => ∃ reply txf nextId, t = { s with reply := reply, txf := txf, nextId := nextId }
  | .fltx _ => ∃ reply retry,
      t = { s with reply := reply, seq := .idle, retry := retry, txf := [], txTrigger := false }
  | .flrx _ => ∃ reply, t = { s with reply := reply, rxf := [] }
  | .nop _ => ∃ reply, t = { s with reply := reply }
  | .cel => ∃ trigger ce, t = { s with txTrigger := trigger, ce := ce }
  | .ceh => ∃ ce us used, t = { s with ce := ce, ceHighUs := us, pulseUsed := used }
  | .delay _ => ∃ settle us, t = { s with settleUs := settle, ceHighUs := us }
  | .por => t = s.powerOnReset

theorem State.powerDownEffect_eq (s : State) :
    s.powerDownEffect =
      { s with seq := .idle, retry := if s.seq = .idle then s.retry else 0, txTrigger := false, settleUs := 0 } := by
  by_cases hseq : s.seq = .idle <;> simp [State.powerDownEffect, State.abortBurst, hseq]

theorem State.flushTx_eq (s : State) :
    s.flushTx =
      { s with seq := .idle, retry := if s.seq = .idle then s.retry else 0, txf := [], txTrigger := false } := by
  by_cases hseq : s.seq = .idle <;> simp [State.flushTx, State.abortBurst, hseq]

theorem State.readPayload_frame (s : State) (n : Nat) :
    s.readPayload n =
      { s with
        reply := (s.readPayload n).reply, draws := (s.readPayload n).draws, rxf := (s.readPayload n).rxf } := by
  unfold State.readPayload
  split <;> rfl

theorem footprint_writeReg {s t : State} {r : RegName} {a : RegAddr} {v : Byte} {data : List Byte}
    (h : writeReg r a v data s.sampled = .next t) : Footprint s t (.wreg a data) := by
  obtain ⟨-, rfl⟩ | ⟨-, h⟩ | rfl | ⟨-, -, -, -, rfl⟩ := writeReg_next h
  · exact ⟨_, _, _, _, _, _, _, _, _, _, rfl⟩
  · obtain ⟨-, -, -, rfl⟩ | ⟨-, -, rfl⟩ | ⟨-, rfl⟩ := (writeConfig_next h).2
    · exact ⟨_, _, _, _, _, _, _, _, _, _, rfl⟩
    · rw [State.powerDownEffect_eq]
      exact ⟨_, _, _, _, _, _, _, _, _, _, rfl⟩
    · exact ⟨_, _, _, _, _, _, _, _, _, _, rfl⟩
  · exact ⟨_, _, _, _, _, _, _, _, _, _, rfl⟩
  · rw [State.storePlain_frame]
    exact ⟨_, _, _, _, _, _, _, _, _, _, rfl⟩

theorem footprint_execWreg {s t : State} {a : RegAddr} {data : List Byte} (h : execWreg a data s = .next t) :
    Footprint s t (.wreg a data) := by
  obtain ⟨-, ⟨-, rfl⟩ | ⟨-, r, -, -, ⟨-, rfl⟩ | ⟨v, rest, -, h⟩⟩⟩ := execWreg_next h
  · exact ⟨_, _, _, _, _, _, _, _, _, _, rfl⟩
  · exact ⟨_, _, _, _, _, _, _, _, _, _, rfl⟩
  · exact footprint_writeReg h

theorem exec_footprint {i : Instr} {s t : State} (h : exec i s = .next t) : Footprint s t i := by
  cases i with
  | rreg => obtain ⟨-, d, n, rfl⟩ := execRreg_next h; exact ⟨_, _, rfl⟩
  | wreg => exact footprint_execWreg h
  | act =>
    obtain ⟨-, -, h⟩ := execAct_next h
    obtain ⟨-, ⟨-, rfl⟩ | ⟨-, -, -, rfl⟩⟩ := activate_next h <;> exact ⟨_, _, _, rfl⟩
  | rplw =>
    obtain ⟨-, -, rfl⟩ := execRplw_next h
    unfold State.readWidth
    split <;> exact ⟨_, _, rfl⟩
  | rrxp =>
    obtain ⟨-, -, rfl⟩ := execRrxp_next h
    rw [State.readPayload_frame]
    exact ⟨_, _, _, rfl⟩
  | wtxp | wackp | wtxpna => obtain ⟨-, -, -, rfl⟩ := writePayload_next h; exact ⟨_, _, _, rfl⟩
  | fltx =>
    obtain ⟨-, -, rfl⟩ := execFltx_next h
    rw [State.flushTx_eq]
    exact ⟨_, _, rfl⟩
  | flrx => obtain ⟨-, -, rfl⟩ := execFlrx_next h; exact ⟨_, rfl⟩
  | nop => obtain ⟨-, -, rfl⟩ := execNop_next h; exact ⟨_, rfl⟩
  | cel => obtain ⟨-, ⟨-, rfl⟩ | ⟨-, -, -, rfl⟩ | ⟨-, -, rfl⟩⟩ := execCel_next h <;> exact ⟨_, _, rfl⟩
  | ceh => obtain ⟨-, ⟨-, rfl⟩ | ⟨-, -, -, rfl⟩⟩ := execCeh_next h <;> exact ⟨_, _, _, rfl⟩
  | delay => obtain ⟨-, rfl⟩ := execDelay_next h; exact ⟨_, _, rfl⟩
  | por => exact (execPor_next h).2

/-! ### The frames -/

/-- Settles O39: the reads are the instructions with these footprints. -/
theorem readsFrame : Obligations.ReadsFrame := by
  intro s t i h
  have hf := exec_footprint h
  cases i with
  | rreg | rplw => obtain ⟨reply, draws, rfl⟩ := hf; exact ⟨fun _ => rfl, nofun⟩
  | nop => obtain ⟨reply, rfl⟩ := hf; exact ⟨fun _ => rfl, nofun⟩
  | rrxp => obtain ⟨reply, draws, rxf, rfl⟩ := hf; exact ⟨nofun, fun _ => rfl⟩
  | _ => exact ⟨nofun, nofun⟩

theorem exec_sameHostSide {i : Instr} {s t : State} (h : exec i s = .next t) : SameHostSide s t := by
  have hf := exec_footprint h
  cases i with
  | rreg | rplw | fltx | cel | delay => obtain ⟨_, _, rfl⟩ := hf; constructor <;> rfl
  | wreg => obtain ⟨_, _, _, _, _, _, _, _, _, _, rfl⟩ := hf; constructor <;> rfl
  | act | rrxp | wtxp | wackp | wtxpna | ceh => obtain ⟨_, _, _, rfl⟩ := hf; constructor <;> rfl
  | flrx | nop => obtain ⟨_, rfl⟩ := hf; constructor <;> rfl
  | por => obtain rfl := hf; constructor <;> rfl

/-- Settles O41: a field outside an instruction's footprint stays. -/
theorem chipStateFrame : Obligations.ChipStateFrame := by
  intro s t i h
  refine ⟨exec_sameHostSide h, ?_⟩
  have hf := exec_footprint h
  cases i with
  | rreg | rplw | fltx | cel | delay => obtain ⟨_, _, rfl⟩ := hf; simp [busCmdOf]
  | wreg => obtain ⟨_, _, _, _, _, _, _, _, _, _, rfl⟩ := hf; simp [busCmdOf]
  | act | rrxp | wtxp | wackp | wtxpna | ceh => obtain ⟨_, _, _, rfl⟩ := hf; simp [busCmdOf]
  | flrx | nop => obtain ⟨_, rfl⟩ := hf; simp [busCmdOf]
  | por => obtain rfl := hf; simp [busCmdOf]

theorem exec_keeps_registers {i : Instr} {s t : State} (h : exec i s = .next t) (hw : busCmdOf i ≠ some .wreg)
    (hp : i ≠ .por) : t.regs = s.regs ∧ t.tune = s.tune := by
  have hf := exec_footprint h
  cases i with
  | rreg | rplw | fltx | cel | delay => obtain ⟨_, _, rfl⟩ := hf; exact ⟨rfl, rfl⟩
  | wreg => exact absurd rfl hw
  | act | rrxp | wtxp | wackp | wtxpna | ceh => obtain ⟨_, _, _, rfl⟩ := hf; exact ⟨rfl, rfl⟩
  | flrx | nop => obtain ⟨_, rfl⟩ := hf; exact ⟨rfl, rfl⟩
  | por => exact absurd rfl hp

/-- The store of `CONFIG` leaves the bytes of every other register alone. -/
theorem regBytes_storeConfig_other (s : State) (new : Byte) {q : RegName} (h : q ≠ .config) :
    regBytes (s.storeConfig new).regs q = regBytes s.regs q :=
  regBytes_setRegByte_other s.regs (r := .config) new h

theorem regBytes_storePlain_other (s : State) {r q : RegName} (v : Byte) (data : List Byte) (h : q ≠ r) :
    regBytes (s.storePlain r v data).regs q = regBytes s.regs q := by
  rw [State.storePlain_regs]
  split
  · exact regBytes_setRegBytes_other _ _ h
  · exact regBytes_setRegByte_other _ _ h

/-- A write of a named register stores in that register alone. -/
theorem regBytes_writeReg_other {s t : State} {r q : RegName} {a : RegAddr} {v : Byte} {data : List Byte}
    (h : writeReg r a v data s = .next t) (hq : q ≠ r) : regBytes t.regs q = regBytes s.regs q := by
  obtain ⟨-, rfl⟩ | ⟨rfl, h⟩ | rfl | ⟨-, -, -, -, rfl⟩ := writeReg_next h
  · rfl
  · obtain ⟨-, -, -, rfl⟩ | ⟨-, -, rfl⟩ | ⟨-, rfl⟩ := (writeConfig_next h).2
    · exact regBytes_storeConfig_other s.powerUpEffect _ hq
    · rw [regBytes_storeConfig_other _ _ hq, State.powerDownEffect_regs]
    · exact regBytes_storeConfig_other s _ hq
  · rfl
  · exact regBytes_storePlain_other s v data hq

theorem writeReg_tune {s t : State} {r : RegName} {a : RegAddr} {v : Byte} {data : List Byte}
    (h : writeReg r a v data s = .next t) : t.tune = s.tune := by
  obtain ⟨-, rfl⟩ | ⟨-, h⟩ | rfl | ⟨-, -, -, -, rfl⟩ := writeReg_next h
  · rfl
  · obtain ⟨-, -, -, rfl⟩ | ⟨-, -, rfl⟩ | ⟨-, rfl⟩ := (writeConfig_next h).2 <;> simp
  · rfl
  · simp

/-- Settles O40: of the instructions that store, `POR` aside, only a `WREG` is left; it goes to its register of the
operating bank or to its entry of the tuning bank. -/
theorem registersFrame : Obligations.RegistersFrame := by
  intro s t i h
  refine ⟨exec_keeps_registers h, ?_⟩
  rintro a data rfl
  obtain ⟨-, ⟨hbank, rfl⟩ | ⟨hbank, r, hr, -, ⟨-, rfl⟩ | ⟨v, rest, -, hw⟩⟩⟩ := execWreg_next h
  · refine ⟨fun q _ => rfl, fun b hb => ?_⟩
    have hne : b ≠ a.toNat := hb.resolve_left (by simp [hbank])
    exact tuneGet_set_other data hne
  · exact ⟨fun q _ => rfl, fun b _ => rfl⟩
  · refine ⟨fun q hq => ?_, fun b _ => by rw [writeReg_tune hw, State.sampled_tune]⟩
    have hne : q ≠ r := fun hqr => hq.elim (by simp [hbank]) (absurd (hqr ▸ hr))
    exact regBytes_writeReg_other (s := s.sampled) hw hne

/-! ### The event bits -/

/-- A write of a named register changes no event bit, but for `STATUS`. -/
theorem writeReg_events {s t : State} {r : RegName} {a : RegAddr} {v : Byte} {data : List Byte}
    (h : writeReg r a v data s = .next t) :
    (r = .status ∧ t = s.clearEvents v) ∨ (t.rxDr = s.rxDr ∧ t.txDs = s.txDs ∧ t.maxRt = s.maxRt) := by
  obtain h | ⟨-, h⟩ | rfl | ⟨-, -, -, -, rfl⟩ := writeReg_next h
  · exact .inl h
  · right
    obtain ⟨-, -, -, rfl⟩ | ⟨-, -, rfl⟩ | ⟨-, rfl⟩ := (writeConfig_next h).2 <;> simp
  · exact .inr ⟨rfl, rfl, rfl⟩
  · right; simp

/-- The event bits after an instruction: those before it, none after `POR`, or those a write of `STATUS` leaves. -/
theorem exec_events {i : Instr} {s t : State} (h : exec i s = .next t) :
    (t.rxDr = s.rxDr ∧ t.txDs = s.txDs ∧ t.maxRt = s.maxRt) ∨ (i = .por ∧ t = s.powerOnReset) ∨
      ∃ a v, i = .wreg a [v] ∧ regAt s.cfg.regMap a = some .status ∧ t = s.sampled.clearEvents v := by
  have hf := exec_footprint h
  cases i with
  | rreg | rplw | fltx | cel | delay => obtain ⟨_, _, rfl⟩ := hf; exact .inl ⟨rfl, rfl, rfl⟩
  | wreg a data =>
    obtain ⟨-, ⟨-, rfl⟩ | ⟨-, r, hr, hlen, ⟨-, rfl⟩ | ⟨v, rest, rfl, hw⟩⟩⟩ := execWreg_next h
    · exact .inl ⟨rfl, rfl, rfl⟩
    · exact .inl ⟨rfl, rfl, rfl⟩
    · obtain ⟨rfl, rfl⟩ | hsame := writeReg_events hw
      · obtain rfl : rest = [] := List.length_eq_zero_iff.1 (Nat.le_zero.1 (Nat.le_of_succ_le_succ hlen))
        exact .inr (.inr ⟨a, v, rfl, hr, rfl⟩)
      · exact .inl hsame
  | act | rrxp | wtxp | wackp | wtxpna | ceh => obtain ⟨_, _, _, rfl⟩ := hf; exact .inl ⟨rfl, rfl, rfl⟩
  | flrx | nop => obtain ⟨_, rfl⟩ := hf; exact .inl ⟨rfl, rfl, rfl⟩
  | por => exact .inr (.inl ⟨rfl, hf⟩)

/-- No event bit is cleared. -/
def EventsStay (s t : State) : Prop :=
  (s.rxDr = true → t.rxDr = true) ∧ (s.txDs = true → t.txDs = true) ∧ (s.maxRt = true → t.maxRt = true)

theorem EventsStay.refl (s : State) : EventsStay s s := ⟨id, id, id⟩

theorem eventsStay_sequencerStep (s : State) : EventsStay s s.sequencerStep := by
  unfold State.sequencerStep
  split
  · exact ⟨id, id, id⟩
  · split
    · split
      · unfold State.endAttempt
        split
        · exact ⟨id, id, id⟩
        · exact ⟨id, fun _ => rfl, id⟩
      · exact .refl s
    · exact .refl s

theorem eventsStay_ackStep (s : State) (payload : Option (List Byte)) : EventsStay s (s.ackStep payload) := by
  unfold State.ackStep
  split
  · split
    · unfold State.takeAckPayload
      split
      · split
        · exact ⟨fun _ => rfl, fun _ => rfl, id⟩
        · exact ⟨id, fun _ => rfl, id⟩
      · exact ⟨id, fun _ => rfl, id⟩
    · exact .refl s
  · exact .refl s
  · exact .refl s

theorem eventsStay_timeoutStep (s : State) : EventsStay s s.timeoutStep := by
  unfold State.timeoutStep
  split
  · split
    · split
      · exact ⟨id, id, id⟩
      · exact ⟨id, id, fun _ => rfl⟩
    · exact .refl s
  · exact .refl s
  · exact .refl s

/-- What an accepted frame leaves: it is stored, and an acknowledgment of it may set data-sent (43 R192, R196). -/
theorem State.accept_frame (s : State) (k : AirPacket) (p : Pipe) :
    s.accept k p = s.storeFrame k p ∨ s.accept k p = (s.storeFrame k p).emitAck p none ∨
      ∃ e : TxEntry, s.accept k p = { (s.storeFrame k p).emitAck p (some e.bytes) with
        txf := s.txf.eraseP (TxEntry.isAckFor p), txDs := true } := by
  unfold State.accept
  split
  · unfold State.acknowledgeNew
    split
    · exact .inr (.inr ⟨_, rfl⟩)
    · exact .inr (.inl rfl)
  · exact .inl rfl

/-- Everything an offered frame can do: nothing, an acknowledgment without payload, or an accepted frame. -/
theorem State.offerStep_cases (s : State) (k : AirPacket) :
    s.offerStep k = s ∨ ∃ p, s.offerStep k = s.emitAck p none ∨ s.receiving = true ∧ s.offerStep k = s.accept k p := by
  unfold State.offerStep
  split
  · rename_i hrec
    rw [Bool.and_eq_true] at hrec
    split
    · exact .inl rfl
    · rename_i p _
      split
      · exact .inl rfl
      · split
        · rw [State.acceptDuplicate_eq]
          split
          · exact .inr ⟨p, .inl rfl⟩
          · exact .inl rfl
        · split
          · rw [State.dropFull_eq]
            split
            · exact .inr ⟨p, .inl rfl⟩
            · exact .inl rfl
          · exact .inr ⟨p, .inr ⟨hrec.1, rfl⟩⟩
  · exact .inl rfl

theorem eventsStay_offerStep (s : State) (k : AirPacket) : EventsStay s (s.offerStep k) := by
  obtain he | ⟨p, he | ⟨-, he⟩⟩ := s.offerStep_cases k <;> rw [he]
  · exact .refl s
  · exact ⟨id, id, id⟩
  · obtain ha | ha | ⟨e, ha⟩ := s.accept_frame k p <;> rw [ha]
    · exact ⟨fun _ => rfl, id, id⟩
    · exact ⟨fun _ => rfl, id, id⟩
    · exact ⟨fun _ => rfl, fun _ => rfl, id⟩

theorem eventsStay_framingStep (s : State) (p : Pipe) : EventsStay s (s.framingStep p) := by
  unfold State.framingStep
  split
  · exact ⟨fun _ => rfl, id, id⟩
  · exact .refl s

/-- Settles O54: of the instructions, `POR` and a `WREG` of `STATUS` clear event bits and none sets one; the sequencer
and Air set some and clear none. -/
theorem eventBitsOwners : Obligations.EventBitsOwners := by
  refine ⟨fun i s t h => ?instructions, fun s t k payload p ht => ?sequencer⟩
  case instructions =>
    obtain ⟨hdr, hds, hrt⟩ | ⟨rfl, rfl⟩ | ⟨a, v, rfl, ha, rfl⟩ := exec_events h
    · simp [hdr, hds, hrt]
    · exact ⟨nofun, nofun, nofun, fun _ => .inl rfl⟩
    · refine ⟨by simp +contextual, by simp +contextual, by simp +contextual, fun _ => .inr ⟨a, v, rfl, ha, ?_⟩⟩
      simp
  case sequencer =>
    simp only [List.mem_cons, List.not_mem_nil, or_false] at ht
    obtain rfl | rfl | rfl | rfl | rfl := ht
    · exact eventsStay_sequencerStep s
    · exact eventsStay_ackStep s payload
    · exact eventsStay_timeoutStep s
    · exact eventsStay_offerStep s k
    · exact eventsStay_framingStep s p

end Sys2Proof.Machine
end

section
/-! PROOFS of the statements about `RREG` of a stored register and the power-down write
(spec/40_register_commands.md), `WACKP`, `FLTX` and `ACT` (41_fifo_commands.md), the write-back of the status byte
(60_exceptions.md), what is admitted while the block settles (42_mode_state_machine.md), the end of an attempt and the
accepted frame (43_sequencer.md). -/
namespace Sys2Proof.Machine

/-! ### Register commands -/

/-- A register without a read view of its own shows its stored bytes (20 R66). -/
theorem State.readView_stored (s : State) {r : RegName}
    (hr : r ∉ [RegName.status, .fifoStatus, .observeTx, .rpd, .feature, .dynpd]) (n : Nat) :
    s.readView r n = s.replyData ((regBytes s.regs r).take n) := by
  cases r with
  | status | fifoStatus | observeTx | rpd | feature | dynpd => exact absurd (by decide) hr
  | _ => rfl

/-- Settles O8: the count decides between the stored bytes and the fault. -/
theorem rregStoredRegister : Obligations.RregStoredRegister := by
  intro s a r n hs hb ha hr
  have hbank := s.inTuneBank_of_bank0 hb a
  split
  case isTrue hn => exact (exec_rreg_named hs hbank ha hn).trans (congrArg _ (s.sampled.readView_stored hr n))
  case isFalse hn => exact exec_rreg_badCount hs hbank ha (Nat.lt_of_not_le hn)

theorem writeConfig_powerDown {s : State} {v : Byte} (h : ¬ s.TurnsWhileBusy v) (hold : s.bit .pwrUp = true)
    (hnew : bitOf s.cfg.regMap .pwrUp (s.masked .config v) = false) :
    writeConfig v s = .next (s.powerDownEffect.storeConfig (s.masked .config v)) := by
  have hold' : bitOf s.cfg.regMap .pwrUp s.regs.config = true := hold
  refine (if_neg h).trans ?_
  simp [hold', hnew]

/-- Settles O15: past the direction check the power-down effect comes, then the store; the stored byte has no power
bit, which is the mode. -/
theorem wregConfigPowerDown : Obligations.WregConfigPowerDown := by
  intro s a v hs hb ha new turns busy hold hnew hcalm
  have hexec : exec (.wreg a [v]) s = .next (s.sampled.powerDownEffect.storeConfig new) :=
    (exec_wreg_config hs hb ha v).trans (writeConfig_powerDown (s := s.sampled) hcalm hold hnew)
  refine ⟨_, hexec, State.mode_of_unpowered ?_, ?_⟩
  · rw [State.storeConfig_pwrUp, State.powerDownEffect_cfg]
    exact hnew
  · rw [State.powerDownEffect_eq]
    rfl

/-! ### FIFO and special commands -/

/-- Settles O26: `WACKP` is the third of the payload writes. -/
theorem ackPayloadWriteAppends : Obligations.AckPayloadWriteAppends := fun _ _ _ hs hn =>
  ⟨fun hf => writePayload_full hs hn hf .., fun hf => writePayload_room hs hn hf ..⟩

/-- Settles O27: the flush of the sampled state. -/
theorem fltxFlushes : Obligations.FltxFlushes := fun s hs =>
  (exec_fltx hs).trans (congrArg _ s.sampled.flushTx_eq)

theorem exec_act {s : State} (hs : s.Ready) (m : Byte) : exec (.act [m]) s = activate m s.sampled :=
  busCommand_of_countOk hs (beq_self_eq_true _)

theorem activate_active {s : State} (h : s.isActive = true) (m : Byte) :
    activate m s = .fault (.configWriteWhileActive .act) :=
  if_pos h

theorem activate_feature {s : State} (h : s.isActive = false) :
    activate s.cfg.magicFeature s = .next { s with featureLocked := !s.featureLocked } := by
  simp [activate, h]

theorem activate_bank {s : State} (h : s.isActive = false) (hm : s.cfg.magicBank ≠ s.cfg.magicFeature)
    (hdual : s.cfg.profile = .dualBankLegacy) : activate s.cfg.magicBank s = .next { s with bank := !s.bank } := by
  simp [activate, h, hm, hdual]

theorem activate_other {s : State} {m : Byte} (h : s.isActive = false) (hf : m ≠ s.cfg.magicFeature)
    (hb : ¬ (m = s.cfg.magicBank ∧ s.cfg.profile = .dualBankLegacy)) :
    activate m s = .fault (.badActivateMagic m) := by
  simp [activate, h, hf, hb]

theorem State.bankBit_of_dual {s : State} (h : s.cfg.profile = .dualBankLegacy) : s.bankBit = s.bank := by
  rw [State.bankBit_eq, h, beq_self_eq_true, Bool.true_and]

/-- Settles O28: the mode first, then the two magic bytes; the bank shows in the status byte of DualBankLegacy. -/
theorem actToggles : Obligations.ActToggles := by
  intro s m hs hmagic
  rw [exec_act hs]
  refine ⟨fun hactive => activate_active (s := s.sampled) hactive m, ?feature, ?bank,
    fun hidle hf hb => activate_other (s := s.sampled) hidle hf hb⟩
  case feature =>
    rintro hidle rfl
    exact activate_feature (s := s.sampled) hidle
  case bank =>
    rintro hidle rfl hdual
    refine ⟨_, activate_bank (s := s.sampled) hidle hmagic hdual, rfl, ?_⟩
    rw [State.status_bank, State.status_bank, State.bankBit_of_dual (s := s) hdual]
    exact State.bankBit_of_dual hdual

/-! ### The status byte written back -/

/-- The three bits of a mask, the first one the highest. -/
theorem ofBool_append_getLsbD (a b c : Bool) :
    let m := BitVec.ofBool a ++ BitVec.ofBool b ++ BitVec.ofBool c
    m.getLsbD 2 = a ∧ m.getLsbD 1 = b ∧ m.getLsbD 0 = c := by
  revert a b c
  decide

/-- R238: a mask bit in force is the parameter's or the register's. -/
theorem State.irqMasks_getLsbD (s : State) :
    s.irqMasks.getLsbD 2 = (s.cfg.irqMask.getLsbD 2 || s.bit .maskRxDr) ∧
      s.irqMasks.getLsbD 1 = (s.cfg.irqMask.getLsbD 1 || s.bit .maskTxDs) ∧
      s.irqMasks.getLsbD 0 = (s.cfg.irqMask.getLsbD 0 || s.bit .maskMaxRt) := by
  obtain ⟨h2, h1, h0⟩ := ofBool_append_getLsbD (s.bit .maskRxDr) (s.bit .maskTxDs) (s.bit .maskMaxRt)
  simp only [State.irqMasks, BitVec.getLsbD_or, h2, h1, h0, and_self]

/-- R238: the line is low while an unmasked event bit is set. -/
theorem State.irqLine_eq_false_iff (s : State) :
    s.irqLine = false ↔
      (s.rxDr = true ∧ s.cfg.irqMask.getLsbD 2 = false ∧ s.bit .maskRxDr = false) ∨
      (s.txDs = true ∧ s.cfg.irqMask.getLsbD 1 = false ∧ s.bit .maskTxDs = false) ∨
      (s.maxRt = true ∧ s.cfg.irqMask.getLsbD 0 = false ∧ s.bit .maskMaxRt = false) := by
  obtain ⟨h2, h1, h0⟩ := s.irqMasks_getLsbD
  rw [State.irqLine, h2, h1, h0]
  simp only [Bool.not_eq_false', Bool.or_eq_true, Bool.and_eq_true, Bool.not_eq_true', Bool.or_eq_false_iff, or_assoc]

/-- With no event bit set the line is released. -/
theorem State.irqLine_released {s : State} (hdr : s.rxDr = false) (hds : s.txDs = false) (hrt : s.maxRt = false) :
    s.irqLine = true := by
  simp [State.irqLine, hdr, hds, hrt]

/-- A status byte written back clears the event bits it shows (R110, 10 R24). -/
theorem State.clearEvents_status (s u : State) :
    u.clearEvents s.status =
      { u with rxDr := u.rxDr && !s.rxDr, txDs := u.txDs && !s.txDs, maxRt := u.maxRt && !s.maxRt } := by
  rw [State.clearEvents, State.status_rxDr, State.status_txDs, State.status_maxRt]

theorem exec_wreg_status_byte {u : State} {a : RegAddr} (hu : u.Ready) (ha : regAt u.cfg.regMap a = some .status)
    (s : State) : exec (.wreg a [s.status]) u =
      .next { u.sampled with rxDr := u.rxDr && !s.rxDr, txDs := u.txDs && !s.txDs, maxRt := u.maxRt && !s.maxRt } :=
  (exec_wreg_byte hu (u.inTuneBank_status ha) ha s.status).trans (congrArg _ (s.clearEvents_status u.sampled))

/-- Settles O38: the status byte has the event bits of the state it was read in; written back it clears those and no
others. -/
theorem writeBackReleasesLine : Obligations.WriteBackReleasesLine := by
  refine ⟨State.irqLine_eq_false_iff, fun s a hs ha => ?released, fun s u a hu ha => ?kept⟩
  case released =>
    exact ⟨_, exec_wreg_status_byte hs ha s, State.irqLine_released (by simp) (by simp) (by simp)⟩
  case kept =>
    refine ⟨_, exec_wreg_status_byte hu ha s, ?_⟩
    simp +contextual

/-! ### Settling -/

/-- R158, R165: no pulse counts while the block settles, so `CEL` only lowers the pin. -/
theorem exec_cel_settling {s : State} (hf : s.fault = none) (hs : 0 < s.settleUs) :
    exec .cel s = .next { s with ce := false } := by
  have hpulse : ¬ s.endsPulse = true := by simp [State.endsPulse, hs.ne']
  cases hce : s.ce with
  | false => rw [exec_cel_low hf hce, ← hce]
  | true => exact exec_cel_lowers hf hce hpulse

/-- Settles O7: the bus and the rising pin stop at the settling check, which `DELAY`, `CEL` and `POR` do not make. -/
theorem settlingAdmission : Obligations.SettlingAdmission := fun s hf hs =>
  ⟨fun _ _ hi => exec_bus_settling hf hs hi,
    fun _ data hb => (hostFrame_reserved hb data s).trans (busAccess_settling hf hs),
    fun hce hp => exec_ceh_settling hf hce hp hs,
    fun us => ⟨_, exec_delay hf us, rfl⟩,
    exec_cel_settling hf hs,
    _, exec_por hf, rfl⟩

/-! ### The end of an attempt -/

/-- A running attempt with its packet queued has one step: its end (43 R180). -/
theorem State.sequencerStep_of_onAir {s : State} {n : Nat} {e : TxEntry} (hseq : s.seq = .txOnAir n)
    (hrun : s.running = true) (hcur : s.cur = some e) : s.sequencerStep = s.endAttempt n e := by
  simp [State.sequencerStep, State.canStart, hseq, hrun, hcur]

theorem State.expectsAck_iff (s : State) (e : TxEntry) :
    s.expectsAck e = true ↔ e.ackReq = true ∧ s.bit (.enaa 0) = true := (Bool.and_eq_true ..).to_iff

theorem State.cur_of_append {s : State} {before after : List TxEntry} {e : TxEntry}
    (htxf : s.txf = before ++ e :: after) (hb : ∀ f ∈ before, f.kind ≠ .data) (he : e.kind = .data) : s.cur = some e := by
  rw [State.cur, htxf]
  exact (find_eraseP_append TxEntry.isData (fun f hf => beq_false_of_ne (hb f hf)) (e.isData_iff.2 he)).1

/-- Settles O43: the first data entry goes on the air; `expectsAck` decides what follows. -/
theorem endAttemptSends : Obligations.EndAttemptSends := by
  intro s n before after e hseq hp hs htxf hb he packet
  rw [State.sequencerStep_of_onAir hseq (State.running_of_settled hp hs) (State.cur_of_append htxf hb he)]
  refine if_congr (s.expectsAck_iff e) rfl ?_
  exact State.completeBurst_of_cur (s := s.emit (.packet packet)) htxf hb he

/-! ### An accepted frame -/

theorem TxEntry.isAckFor_iff (p : Pipe) (e : TxEntry) : e.isAckFor p = true ↔ e.kind = .ackPayload p := beq_iff_eq

/-- R194: without the features, or with no payload queued for the pipe, none rides on the acknowledgment. -/
theorem State.ackPayloadFor_eq_none {s : State} {p : Pipe}
    (h : ¬ s.ackpayOn = true ∨ ∀ e ∈ s.txf, e.kind ≠ .ackPayload p) : s.ackPayloadFor p = none := by
  unfold State.ackPayloadFor
  split
  case isTrue hon =>
    exact List.find?_eq_none.2 fun e he => mt (e.isAckFor_iff p).1 (h.resolve_left (not_not_intro hon) e he)
  case isFalse => rfl

/-- R194, R196: the first payload queued for the pipe rides on the acknowledgment and leaves the queue. -/
theorem State.acknowledgeNew_with_payload {s : State} {p : Pipe} {before after : List TxEntry} {e : TxEntry}
    (hon : s.ackpayOn = true) (htxf : s.txf = before ++ e :: after) (hb : ∀ f ∈ before, f.kind ≠ .ackPayload p)
    (he : e.kind = .ackPayload p) :
    s.acknowledgeNew p = { s.emitAck p (some e.bytes) with txf := before ++ after, txDs := true } := by
  obtain ⟨hfirst, hgone⟩ := find_eraseP_append (after := after) (TxEntry.isAckFor p)
    (fun f hf => beq_false_of_ne (hb f hf)) ((e.isAckFor_iff p).2 he)
  have hpay : s.ackPayloadFor p = some e := by rw [State.ackPayloadFor, if_pos hon, htxf, hfirst]
  simp only [State.acknowledgeNew, hpay, htxf, hgone]

theorem State.acknowledgeNew_without_payload {s : State} {p : Pipe} (h : s.ackPayloadFor p = none) :
    s.acknowledgeNew p = s.emitAck p none := by
  simp only [State.acknowledgeNew, h]

/-- Settles O47: the frame passes every check and is stored; the stored state has the features and the queue that
decide about the acknowledgment. -/
theorem acceptStores : Obligations.AcceptStores := by
  intro s k p hmode hs hlen hp haddr hlow hfits hnew hroom stored acks payOn
  have hoffer : s.offerStep k = s.accept k p := by
    rw [State.offerStep_of_admitted (s.receiving_iff.2 ⟨hmode, hs⟩) hlen (pipeOf_lowest hp haddr hlow)
      ((admitted_iff s k p).2 hfits), if_neg hnew, if_neg hroom]
  have hacked (hacks : acks) : s.offerStep k = (s.storeFrame k p).acknowledgeNew p :=
    hoffer.trans (if_pos ((s.acknowledges_iff k p).2 hacks))
  refine ⟨fun hno => ?silent, fun hacks hnone => ?bare, fun hacks hon before after e htxf hb he => ?loaded⟩
  case silent => exact hoffer.trans (if_neg (mt (s.acknowledges_iff k p).1 hno))
  case bare =>
    have hnone' : ¬ (s.storeFrame k p).ackpayOn = true ∨ ∀ e ∈ s.txf, e.kind ≠ .ackPayload p :=
      hnone.imp_left (mt s.ackpayOn_iff.1)
    rw [hacked hacks, State.acknowledgeNew_without_payload (State.ackPayloadFor_eq_none hnone')]
    rfl
  case loaded =>
    rw [hacked hacks, State.acknowledgeNew_with_payload (s := s.storeFrame k p) (s.ackpayOn_iff.2 hon) htxf hb he]
    rfl

end Sys2Proof.Machine
end

section
/-! PROOFS of the statements about every step: which instruction it runs (spec/30_encoding.md section 1), the invariant
at reset (70_reset_and_hazards.md section 1), the parameters (00_scope.md section 4) and the two active modes
(42_mode_state_machine.md R161). -/
namespace Sys2Proof.Machine

/-! ### The instruction of a step -/

theorem hostFrame_of_decode {f : HostFrame} {i : Instr} (h : decode f = .ok i) (s : State) :
    hostFrame f s = exec i s := by
  rw [hostFrame, h]

/-- Settles O5: the pump holds the frame back exactly while it runs and the frame is no `POR`. -/
theorem stepRunsDecoded : Obligations.StepRunsDecoded := by
  intro s f rest i hf hag hdec
  have hturn : runTurn (.host f) { s with agenda := rest } = exec i { s with agenda := rest } :=
    hostFrame_of_decode hdec _
  rw [step_of_agenda hf hag, ← hturn]
  refine ⟨fun hfree => if_neg ?_, fun hirq hpor => if_pos ?_⟩
  · obtain hirq | rfl := hfree
    · simp [holdsBack_of_idle hirq]
    · simp [holdsBack_por]
  · exact holdsBack_of_running hirq ((isNormalContext_host f).2 hpor)

/-! ### The state after reset -/

/-- The default parameters are legal, whatever the opaque calibration table is (log entries 3 and 7). -/
theorem legalParams_default : LegalParams defaultParams where
  names := by decide
  magic := by decide
  emptyCode := by decide
  awBits := by decide
  arcBits := by decide
  calTable := Config.calTable.ok
  resetRegs := ⟨by decide, by decide, by decide⟩
  resetOff := by decide

/-- Settles O51: the registers are the legal ones of the parameters, the queues are empty, the sequencer rests. -/
theorem resetMeetsInv : Obligations.ResetMeetsInv where
  params := legalParams_default
  registers := legalParams_default.resetRegs
  txDepth := Nat.zero_le _
  rxDepth := Nat.zero_le _
  txEntries := nofun
  rxEntries := nofun
  txIds := .nil
  txFresh := nofun
  phase := rfl
  trigger := nofun
  oneBank _ := rfl
  tuneOk := tuneWf_nil

/-! ### The parameters -/

theorem chipStep_cfg {s t : State} (h : ChipStep s t) : t.cfg = s.cfg := by
  cases h with
  | instr i he => exact (samePrograms_exec he).cfg
  | sequencer ht => exact ht ▸ (samePrograms_sequencerStep s).cfg
  | ack p ht => exact ht ▸ (samePrograms_ackStep s p).cfg
  | timeout ht => exact ht ▸ (samePrograms_timeoutStep s).cfg
  | offer k ht => exact ht ▸ (samePrograms_offerStep s k).cfg
  | framing p ht => exact ht ▸ (samePrograms_framingStep s p).cfg
  | nothing ht => exact ht ▸ rfl

/-- Settles O52: what a step does to the chip keeps the parameters, and the rest of it is none of theirs. -/
theorem stepKeepsParams : Obligations.StepKeepsParams := by
  intro s t h
  obtain ⟨-, u, v, hu, huv, hv⟩ := step_chip h
  exact hv.cfg.trans ((chipStep_cfg huv).trans hu.cfg)

/-! ### From ActiveReceive no burst starts -/

/-- The sequencer is idle on a block in the receive direction. -/
structure State.Listening (s : State) : Prop where
  idle    : s.seq = .idle
  receive : s.bit .primRx = true

theorem State.listening_of_mode {s : State} (h : s.mode = .activeReceive) : s.Listening :=
  have ⟨_, hidle, hrx, _⟩ := (modeIsFunctionOfState s).2.2.1.1 h
  ⟨hidle, hrx⟩

theorem State.Listening.congr {s u : State} (h : s.Listening) (e : SameChip s u) : u.Listening :=
  ⟨e.seq.trans h.idle, (e.bit _).trans h.receive⟩

theorem writeReg_idle {s t : State} {r : RegName} {a : RegAddr} {v : Byte} {data : List Byte}
    (h : writeReg r a v data s = .next t) (hidle : s.seq = .idle) : t.seq = .idle := by
  obtain ⟨-, rfl⟩ | ⟨-, h⟩ | rfl | ⟨-, -, -, -, rfl⟩ := writeReg_next h
  · exact hidle
  · obtain ⟨-, -, -, rfl⟩ | ⟨-, -, rfl⟩ | ⟨-, rfl⟩ := (writeConfig_next h).2 <;> simp [hidle]
  · exact hidle
  · simpa using hidle

/-- No instruction starts a burst. -/
theorem exec_idle {i : Instr} {s t : State} (h : exec i s = .next t) (hidle : s.seq = .idle) : t.seq = .idle := by
  have hf := exec_footprint h
  cases i with
  | rreg | rplw | cel | delay => obtain ⟨_, _, rfl⟩ := hf; exact hidle
  | wreg a data =>
    obtain ⟨-, ⟨-, rfl⟩ | ⟨-, r, -, -, ⟨-, rfl⟩ | ⟨v, rest, -, hw⟩⟩⟩ := execWreg_next h
    · exact hidle
    · exact hidle
    · exact writeReg_idle hw hidle
  | act | rrxp | wtxp | wackp | wtxpna | ceh => obtain ⟨_, _, _, rfl⟩ := hf; exact hidle
  | fltx => obtain ⟨_, _, rfl⟩ := hf; rfl
  | flrx | nop => obtain ⟨_, rfl⟩ := hf; exact hidle
  | por => obtain rfl := hf; rfl

theorem State.sequencerStep_of_listening {s : State} (h : s.Listening) : s.sequencerStep = s := by
  have hstart : ¬ s.canStart = true := by simp [State.canStart, h.receive]
  exact State.sequencerStep_of_idle hstart h.idle

theorem State.not_awaitAck_of_idle {s : State} (h : s.seq = .idle) (n : Nat) : s.seq ≠ .awaitAck n :=
  h ▸ Phase.noConfusion

theorem State.offerStep_seq (s : State) (k : AirPacket) : (s.offerStep k).seq = s.seq := by
  obtain he | ⟨p, he | ⟨-, he⟩⟩ := s.offerStep_cases k <;> rw [he]
  · rfl
  · obtain ha | ha | ⟨e, ha⟩ := s.accept_frame k p <;> rw [ha] <;> rfl

theorem State.framingStep_seq (s : State) (p : Pipe) : (s.framingStep p).seq = s.seq := by
  unfold State.framingStep
  split <;> rfl

theorem State.Listening.after_chipStep {s t : State} (h : s.Listening) (hstep : ChipStep s t) : t.seq = .idle := by
  cases hstep with
  | instr i he => exact exec_idle he h.idle
  | sequencer ht => rw [ht, State.sequencerStep_of_listening h, h.idle]
  | ack p ht => rw [ht, State.ackStep_of_not_awaitAck (State.not_awaitAck_of_idle h.idle), h.idle]
  | timeout ht => rw [ht, State.timeoutStep_of_not_awaitAck (State.not_awaitAck_of_idle h.idle), h.idle]
  | offer k ht => rw [ht, State.offerStep_seq, h.idle]
  | framing p ht => rw [ht, State.framingStep_seq, h.idle]
  | nothing ht => rw [ht, h.idle]

/-- Settles O53: a listening block starts no burst; a burst is left to Standby or PowerDown only (R162, R163). -/
theorem standbyNeverBypassed : Obligations.StandbyNeverBypassed := by
  intro s t hinv hstep
  refine ⟨fun ⟨hrx, htx⟩ => ?starts, fun ⟨htx, hrx⟩ => ?leaves⟩
  case starts =>
    obtain ⟨-, u, v, hu, huv, hv⟩ := step_chip hstep
    have hidle := hv.seq.trans (((State.listening_of_mode hrx).congr hu).after_chipStep huv)
    exact ((modeIsFunctionOfState t).2.1.1 htx).2 hidle
  case leaves =>
    obtain ⟨-, -, ⟨hmode, -⟩ | ⟨hmode, -⟩⟩ := leavingTransmit s t hinv hstep htx (by rw [hrx]; decide)
    · exact absurd (hrx.symm.trans hmode) (by decide)
    · exact absurd (hrx.symm.trans hmode) (by decide)

end Sys2Proof.Machine
end

section
/-! PROOFS of the statement that a burst ends (spec/43_sequencer.md R188). -/
namespace Sys2Proof.Machine

/-! ### What an answer of Air does -/

theorem State.Inv.answered {s : State} (h : s.Inv) (a : Answer) : (s.answered a).Inv := by
  unfold State.answered
  split
  · split
    · exact h.ackStep _
    · exact h.timeoutStep
  · exact h.timeoutStep

theorem State.answered_of_idle {s : State} (h : s.seq = .idle) (a : Answer) : s.answered a = s := by
  have hno (n : Nat) : s.seq ≠ .awaitAck n := h ▸ Phase.noConfusion
  unfold State.answered
  split
  · rw [State.ackStep_of_not_awaitAck hno, State.timeoutStep_of_not_awaitAck hno, ite_self]
  · exact State.timeoutStep_of_not_awaitAck hno

/-- An awaited acknowledgment that is answered ends the burst, or counts as a timeout (43 R184). -/
theorem State.answered_of_awaitAck {s : State} {n : Nat} (hseq : s.seq = .awaitAck n) (hrun : s.running = true)
    (a : Answer) :
    (∃ payload, s.answered a = s.completeBurst.takeAckPayload payload) ∨ s.answered a = s.timeoutStep := by
  unfold State.answered
  split
  · rename_i payload
    split
    · rename_i hok
      rw [Bool.and_eq_true] at hok
      exact .inl ⟨payload, by rw [State.ackStep_of_awaitAck hseq hrun hok.2, if_pos hok.1]⟩
    · exact .inr rfl
  · exact .inr rfl

/-! ### One attempt -/

/-- The burst of `s` is over in `t`, at most `k` packets later: either it was sent, data-sent set and the packet gone,
or it was given up, max-retries set and the packet kept. -/
def BurstOver (k : Nat) (s t : State) : Prop :=
  t.seq = .idle ∧ t.emitted.length ≤ s.emitted.length + k ∧
  ((t.maxRt = false ∧ t.txDs = true ∧ t.txf = s.txf.eraseP TxEntry.isData) ∨
   (t.maxRt = true ∧ t.txDs = s.txDs ∧ t.txf = s.txf))

/-- One packet later the burst of `s` goes on with attempt `n`. -/
structure BurstGoesOn (n : Nat) (s t : State) : Prop where
  onAir   : t.seq = .txOnAir n
  emitted : t.emitted.length = s.emitted.length + 1
  budget  : t.field .arc = s.field .arc
  txDs    : t.txDs = s.txDs
  txf     : t.txf = s.txf

theorem BurstOver.mono {k m : Nat} {s t : State} (h : BurstOver k s t) (hkm : k ≤ m) : BurstOver m s t :=
  ⟨h.1, h.2.1.trans (Nat.add_le_add_left hkm _), h.2.2⟩

theorem BurstGoesOn.trans {n k : Nat} {s t u : State} (h : BurstGoesOn n s t) (g : BurstOver k t u) :
    BurstOver (k + 1) s u := by
  obtain ⟨hidle, hemitted, hend⟩ := g
  refine ⟨hidle, ?_, ?_⟩
  · rw [h.emitted] at hemitted
    omega
  · rwa [h.txDs, h.txf] at hend

theorem State.takeAckPayload_frame (s : State) (payload : Option (List Byte)) :
    s.takeAckPayload payload =
      { s with rxf := (s.takeAckPayload payload).rxf, rxDr := (s.takeAckPayload payload).rxDr } := by
  unfold State.takeAckPayload
  split
  · split <;> rfl
  · rfl

/-- The state of `s` after its packet went on the air as attempt `n`, with the acknowledgment awaited. -/
def State.awaiting (s : State) (n : Nat) (e : TxEntry) : State :=
  { s.emit (.packet (s.attemptPacket e)) with seq := .awaitAck n }

/-- An attempt whose acknowledgment is awaited ends the burst, or the budget allows the next one (43 R185 to R187). -/
theorem burst_after_answer {s : State} {n : Nat} (hb : s.InBurst n) (e : TxEntry) (a : Answer) :
    BurstOver 1 s ((s.awaiting n e).answered a) ∨ BurstGoesOn (n + 1) s ((s.awaiting n e).answered a) := by
  have hemitted : (s.awaiting n e).emitted.length = s.emitted.length + 1 := List.length_append
  obtain ⟨payload, he⟩ | he := State.answered_of_awaitAck (s := s.awaiting n e) rfl
    (State.running_of_settled hb.powered hb.settled) a
  · rw [he, State.takeAckPayload_frame]
    exact .inl ⟨rfl, hemitted.le, .inl ⟨hb.noMaxRt, rfl, rfl⟩⟩
  · rw [he, timeoutRetries.2 (s.awaiting n e) n rfl hb.powered hb.settled]
    split
    · exact .inr ⟨rfl, hemitted, rfl, rfl, rfl⟩
    · exact .inl ⟨rfl, hemitted.le, .inr ⟨rfl, rfl, rfl⟩⟩

/-- One attempt of a burst ends it, or the next one begins. -/
theorem burst_attempt {s : State} {n : Nat} (h : s.Inv) (hseq : s.seq = .txOnAir n) (a : Answer) :
    BurstOver 1 s (s.sequencerStep.answered a) ∨ BurstGoesOn (n + 1) s (s.sequencerStep.answered a) := by
  have hb := h.inBurst_of_onAir hseq
  obtain ⟨e, hcur⟩ := Option.isSome_iff_exists.1 hb.hasCur
  rw [State.sequencerStep_of_onAir hseq (State.running_of_settled hb.powered hb.settled) hcur]
  unfold State.endAttempt
  split
  · exact burst_after_answer hb e a
  · rw [State.answered_of_idle rfl]
    exact .inl ⟨rfl, List.length_append.le, .inl ⟨hb.noMaxRt, rfl, rfl⟩⟩

/-! ### All attempts -/

theorem burst_of_idle {s : State} (h : s.seq = .idle) (answers : List Answer) : burst answers s = s := by
  cases answers with
  | nil => rfl
  | cons a rest => exact if_pos h

/-- From attempt `n` on, the answers that the budget leaves end the burst. -/
theorem burst_over {answers : List Answer} {s : State} {n : Nat} (h : s.Inv) (hseq : s.seq = .txOnAir n)
    (hlen : answers.length + n = s.field .arc + 1) : BurstOver answers.length s (burst answers s) := by
  induction answers generalizing s n with
  | nil =>
    have hbudget := (h.inBurst_of_onAir hseq).budget
    rw [List.length_nil] at hlen
    omega
  | cons a rest ih =>
    have hburst : burst (a :: rest) s = burst rest (s.sequencerStep.answered a) :=
      if_neg (hseq ▸ Phase.noConfusion)
    rw [List.length_cons] at hlen ⊢
    rw [hburst]
    obtain hover | hon := burst_attempt h hseq a
    · rw [burst_of_idle hover.1]
      exact hover.mono (Nat.le_add_left ..)
    · refine hon.trans (ih (h.sequencerStep.answered a) hon.onAir ?_)
      rw [hon.budget]
      omega

/-- Settles O55: the attempts from 0 to the budget take `ARC + 1` answers. -/
theorem burstEnds : Obligations.BurstEnds := fun _ _ h hseq hlen =>
  hlen ▸ burst_over h hseq hlen

end Sys2Proof.Machine
end
